-- ==== Sys2Proof/Word.lean ====
section
/-! DEFINITION. The word types of the two blocks: widths only (spec/00_scope.md R7, R8, R13; all quantities are unsigned). -/

namespace Sys2Proof

/-- `REG_ADDR_W` = `REG_DATA_W` = `CAP_DATA_W` = 8 (R7): a sensor register address, a sensor register value, a pixel byte. -/
abbrev Byte := BitVec 8

/-- `DIM_W` = 16 (R8): the width and height operands, and the row and column counters. -/
abbrev Dim := BitVec 16

/-- `HOST_W` = `FB_ADDR_W` = 32 (R8): a host register, a host access, a frame-buffer byte address. -/
abbrev Word := BitVec 32

end Sys2Proof
end

