-- ==== Sys2Proof/Config.lean ====
section
/-! DEFINITION. What is fixed for one instance of the hardware: the parameters of spec/00_scope.md R7, R8 and R9, and the
free values (draws) the spec leaves open (R12, R16, spec/93_implementation_defined.md). -/

namespace Sys2Proof.Config

/-- `PROTO_ADDR8` (R7): the 8-bit protocol address of the sensor. -/
def protoAddr8 : Byte := 0x42

/-- `DEV_ADDR7` (R7, R90): "derived from an 8-bit protocol address 0x42 by a single right shift". -/
def devAddr7 : BitVec 7 := (protoAddr8 >>> 1).setWidth 7

/-- `ID_HIGH_ADDR` (R7, R67): the product-id register. -/
def idHighAddr : Byte := 0x0A

/-- `ID_LOW_ADDR` (R7, R67): the version register. -/
def idLowAddr : Byte := 0x0B

/-- `EXPECTED_PID` (R7). -/
def expectedPid : Byte := 0x76

/-- `EXPECTED_VER` (R7). -/
def expectedVer : Byte := 0x73

/-- primary-format-control, COM7 (R67; client software only). -/
def com7Addr : Byte := 0x12

/-- secondary-format-control (R67; client software only). -/
def secondaryAddr : Byte := 0x40

/-- RGB444-enable (R67; client software only). -/
def rgb444Addr : Byte := 0x8C

/-- byte-order-control-A, TSLB (R67; client software only). -/
def tslbAddr : Byte := 0x3A

/-- byte-order-control-B, COM13 (R67; client software only). -/
def com13Addr : Byte := 0x3D

/-- `RBC_WINDOW` = `CAP_WINDOW` (R8): bytes of each register window. -/
def windowBytes : Nat := 0x40

/-- Frame-buffer space holds byte addresses 0 .. 2^32 - 1 (R65). -/
def fbBytes : Nat := 4294967296

/-- The parameters R9 leaves OPEN: "a model takes each as an argument". They ride in the state as constants that no step
changes, so every claim about all states is a claim for all their values (assumption 2). -/
structure Params where
  /-- `I2C_TQ_CYCLES` - 1; the parameter itself is at least 1 (R9, R101). -/
  tqMinus1 : Nat
  /-- `PROBE_ALWAYS_BOTH` (R9, R140). -/
  probeAlwaysBoth : Bool
  /-- `RBC_BASE` / 0x40: the base is a multiple of 0x40 (R9). -/
  rbcBlock : BitVec 26
  /-- `CAP_BASE_ADDR` / 0x40 (R9). -/
  capBlock : BitVec 26
  /-- The position of the one bit set in `RGB444_EN_MASK` (R9, R191). -/
  rgb444Bit : Fin 8
deriving DecidableEq, Repr, Inhabited

/-- `I2C_TQ_CYCLES`: clock cycles in one quarter-step (R9, R101). -/
def Params.tqCycles (p : Params) : Nat := p.tqMinus1 + 1

/-- `RBC_BASE` (R9). -/
def Params.rbcBase (p : Params) : Word := p.rbcBlock ++ (0 : BitVec 6)

/-- `CAP_BASE_ADDR` (R9). -/
def Params.capBase (p : Params) : Word := p.capBlock ++ (0 : BitVec 6)

/-- `RGB444_EN_MASK` (R9): one bit set. -/
def Params.rgb444Mask (p : Params) : Byte := (1 : Byte) <<< p.rgb444Bit.val

/-- FREE VALUE (R9 OPEN): the parameters of the instance that `State.reset` describes. -/
opaque params : Params

/-- FREE VALUE (R12, U8): the level the bus slave leaves on `SDA` at the sample point of clock edge `n`, where the state
lists no level. -/
opaque sdaDraw : Nat → Bool

/-- FREE VALUE (R12): the 11 capture input levels at clock edge `n`, packed as R95 says, where the state lists none. -/
opaque videoDraw : Nat → BitVec 11

/-- FREE VALUE (R27, U1): `RBC_RDATA.DATA0` after a read that failed, completed at clock edge `n`. -/
opaque failedData0 : Nat → Byte

/-- FREE VALUE (R140, U2): `RBC_RDATA.DATA1` after a second identity read that failed or was not issued. -/
opaque failedData1 : Nat → Byte

/-- FREE VALUE (R41, U3): `rbc.d0` after a reset edge. -/
opaque resetD0 : Nat → Byte

/-- FREE VALUE (R41, U3): `rbc.d1` after a reset edge. -/
opaque resetD1 : Nat → Byte

/-- FREE VALUE (R41, U4): `cap.sync[1]` after a reset edge. -/
opaque resetSync1 : Nat → BitVec 11

/-- FREE VALUE (R41, U4): `cap.sync[2]` after a reset edge. -/
opaque resetSync2 : Nat → BitVec 11

/-- FREE VALUE (U14): what the platform's memory holds at a frame-buffer address no capture has written. -/
opaque fbInit : Nat → Byte

/-- FREE VALUE (R72, U12): whether a racing frame-buffer read at clock edge `n` returns the byte after the engine's write
(true) or before it (false). -/
opaque fbRaceSeesNew : Nat → Bool

end Sys2Proof.Config
end

