-- ==== Sys2Proof/Syntax.lean ====
section
/-! DEFINITION. The instructions: one constructor per row of spec/opcode_table.json. A command word and an SLA byte carry no
operand (spec/30_encoding.md R81, R82): operands are read from the operand registers when the command is accepted. -/

namespace Sys2Proof

/-- The commands a host writes into `RBC_CMD` and `CAP_CMD` (R83, R84), and the two bytes that open a bus transaction (R90). -/
inductive Instr where
  /-- `NOP` (RCMD, R136): nothing while idle. -/
  | nop
  /-- `RD` (RCMD, R138): `readRegister`. -/
  | rd
  /-- `WR` (RCMD, R139): `writeRegister`. -/
  | wr
  /-- `PROBE` (RCMD, R140): `probeIdentity`. -/
  | probe
  /-- `CNOP` (CCMD, R166): nothing while idle. -/
  | cnop
  /-- `CAPTURE` (CCMD, R164): `captureFrame`. -/
  | capture
  /-- `SLA_W` (SLA, R90): the byte 0x42 that opens a transaction in which the master writes. -/
  | slaW
  /-- `SLA_R` (SLA, R90): the byte 0x43 that opens a transaction in which the master reads. -/
  | slaR
deriving DecidableEq, Repr

end Sys2Proof
end

