-- ==== Sys2Proof/WellFormed.lean ====
section
/-! DEFINITION. What a well-formed encoding and a well-formed host access are (spec/30_encoding.md R80, R81, R90, R94;
spec/20_memory.md R61). An instruction itself has no field, so the checks are on the bits that carry one. -/

namespace Sys2Proof

/-- The formats of R80 that carry an instruction (`DATA` carries a plain byte). -/
inductive Format where
  /-- 32 bits, a host write to `RBC_CMD`. -/
  | rcmd
  /-- 32 bits, a host write to `CAP_CMD`. -/
  | ccmd
  /-- 8 bits, the first byte of a bus transaction. -/
  | sla
deriving DecidableEq, Repr

/-- The width column of R80. -/
def Format.nbits : Format → Nat
  | .rcmd => 32
  | .ccmd => 32
  | .sla => 8

/-- The format column of spec/opcode_table.json. -/
def Instr.format : Instr → Format
  | .nop => .rcmd
  | .rd => .rcmd
  | .wr => .rcmd
  | .probe => .rcmd
  | .cnop => .ccmd
  | .capture => .ccmd
  | .slaW => .sla
  | .slaR => .sla

/-- Bits together with the place they stand in: a word written to a command register, or a bus byte in bits [7:0]. -/
structure Code where
  fmt : Format
  bits : Word
deriving DecidableEq, Repr

/-- `OP` [3:0] of a command word (R81). -/
def Code.op (c : Code) : BitVec 4 := c.bits.extractLsb' 0 4

/-- `RSV` [31:4] of a command word (R81). -/
def Code.rsv (c : Code) : BitVec 28 := c.bits.extractLsb' 4 28

/-- `ADDR7` [7:1] of an SLA byte (R80). -/
def Code.addr7 (c : Code) : BitVec 7 := c.bits.extractLsb' 1 7

/-- `RW` [0] of an SLA byte (R80, R90): false = write, true = read. -/
def Code.rw (c : Code) : Bool := c.bits.getLsbD 0

/-- "`RSV` must be zero" (R81); an SLA code has nothing above its 8 bits. -/
def Code.reservedZero (c : Code) : Bool :=
  match c.fmt with
  | .rcmd => c.rsv == 0
  | .ccmd => c.rsv == 0
  | .sla => c.bits.extractLsb' 8 24 == 0

/-- `OP` is one the maps of R83 and R84 assign. -/
def Code.opAssigned (c : Code) : Bool :=
  match c.fmt with
  | .rcmd => c.op.toNat ≤ 3
  | .ccmd => c.op.toNat ≤ 1
  | .sla => true

/-- "every transaction uses `DEV_ADDR7`" (R82, R90). -/
def Code.addressOurs (c : Code) : Bool :=
  match c.fmt with
  | .rcmd => true
  | .ccmd => true
  | .sla => c.addr7 == Config.devAddr7

/-- The encoding stands for an instruction. -/
def Code.wf (c : Code) : Bool := c.reservedZero && c.opAssigned && c.addressOurs

/-- Every instruction is well formed: no row of the table has an operand field (R81). -/
def Instr.wf : Instr → Bool
  | .nop => true
  | .rd => true
  | .wr => true
  | .probe => true
  | .cnop => true
  | .capture => true
  | .slaW => true
  | .slaR => true

/-- A host access is at a multiple of 4 within 0 .. 0x3C (R61): anything else the host interface cannot express. -/
def offsetOk (off : Word) : Bool := off.toNat % 4 == 0 && off.toNat < Config.windowBytes

end Sys2Proof
end

