-- ==== Sys2Proof/Decode.lean ====
section
/-! DEFINITION. Decoding, total on any bits and rejecting by name (spec/30_encoding.md R85, R90, R94), and the encoder written
from the same maps (R83, R84, R90). -/

namespace Sys2Proof

/-- Why bits stand for no instruction. -/
inductive DecodeError where
  /-- `RSV` is not zero (R81, R85), or an SLA code is wider than a byte. -/
  | reservedBits
  /-- `OP` is not assigned (R83, R84). -/
  | unassignedOp
  /-- An SLA byte with another device's address (R90, R144). -/
  | foreignAddress
deriving DecidableEq, Repr

/-- The outcome of R85: an instruction, or ILLEGAL with its reason. -/
inductive Decoded where
  | instr (i : Instr)
  | illegal (why : DecodeError)
deriving DecidableEq, Repr

/-- The instruction, if there is one. -/
def Decoded.toOption : Decoded → Option Instr
  | .instr i => some i
  | .illegal _ => none

/-- `decode_rbc` (R85, R83). -/
def decodeRbc (v : Word) : Decoded :=
  if v.extractLsb' 4 28 ≠ 0 then .illegal .reservedBits
  else
    match (v.extractLsb' 0 4).toNat with
    | 0 => .instr .nop
    | 1 => .instr .rd
    | 2 => .instr .wr
    | 3 => .instr .probe
    | _ => .illegal .unassignedOp

/-- `decode_cap` (R85, R84). -/
def decodeCap (v : Word) : Decoded :=
  if v.extractLsb' 4 28 ≠ 0 then .illegal .reservedBits
  else
    match (v.extractLsb' 0 4).toNat with
    | 0 => .instr .cnop
    | 1 => .instr .capture
    | _ => .illegal .unassignedOp

/-- The first byte of a transaction: `ADDR7` [7:1] and `RW` [0] (R90). -/
def decodeSla (b : Byte) : Decoded :=
  if b.extractLsb' 1 7 ≠ Config.devAddr7 then .illegal .foreignAddress
  else if b.getLsbD 0 then .instr .slaR
  else .instr .slaW

/-- Decode bits in their place. -/
def decode (c : Code) : Decoded :=
  match c.fmt with
  | .rcmd => decodeRbc c.bits
  | .ccmd => decodeCap c.bits
  | .sla => if c.bits.extractLsb' 8 24 ≠ 0 then .illegal .reservedBits else decodeSla (c.bits.setWidth 8)

/-- The host's reading of a table row's bits. A 32-bit row is read as a write to `RBC_CMD`: the table gives the words 0 and 1 to
both command registers, and the bits alone do not say which register they are written to (assumption 8). -/
def decodeTableWord (nbits w : Nat) : Option Instr :=
  if nbits ≤ 8 then (decode ⟨.sla, BitVec.ofNat 32 w⟩).toOption
  else (decode ⟨.rcmd, BitVec.ofNat 32 w⟩).toOption

/-- `SLA` byte `{DEV_ADDR7, RW}` (R90). -/
def slaByte (rw : Bool) : Byte := Config.devAddr7 ++ BitVec.ofBool rw

/-- The word of a command: `OP` in [3:0], `RSV` = 0 (R81). -/
def commandWord (op : BitVec 4) : Word := (0 : BitVec 28) ++ op

/-- The encoder: the maps of R83 and R84, and R90. -/
def encode : Instr → Code
  | .nop => ⟨.rcmd, commandWord 0x0⟩
  | .rd => ⟨.rcmd, commandWord 0x1⟩
  | .wr => ⟨.rcmd, commandWord 0x2⟩
  | .probe => ⟨.rcmd, commandWord 0x3⟩
  | .cnop => ⟨.ccmd, commandWord 0x0⟩
  | .capture => ⟨.ccmd, commandWord 0x1⟩
  | .slaW => ⟨.sla, (slaByte false).setWidth 32⟩
  | .slaR => ⟨.sla, (slaByte true).setWidth 32⟩

end Sys2Proof
end

