-- ==== Sys2Proof/Machine/State.lean ====
section
/-! DEFINITION. The state of both blocks, of the frame-buffer memory, and of what the outside world has queued for them
(spec/10_state.md R20 to R43, spec/20_memory.md R60 to R66). Plain data throughout. -/

namespace Sys2Proof.Machine

/-! ## Types of the register client -/

/-- `rbc.phase` (R36). -/
inductive RbcPhase where
  | idle
  | run
deriving DecidableEq, Repr

/-- A position in `RegRead` (R137): the bus primitive that runs there. `stop ok` carries the result the leg ended with. -/
inductive ReadPos where
  | start
  | slaW
  | reg
  | restart
  | slaR
  | data
  | stop (ok : Bool)
deriving DecidableEq, Repr

/-- A position in the script of WR (R139). -/
inductive WritePos where
  | start
  | slaW
  | reg
  | value
  | stop (ok : Bool)
deriving DecidableEq, Repr

/-- `rbc.script` (R36): a position in the script of RD (R138), of the two reads of PROBE (R140), or of WR (R139). -/
inductive Script where
  | rd (p : ReadPos)
  | idHigh (p : ReadPos)
  | idLow (p : ReadPos)
  | wr (p : WritePos)
deriving DecidableEq, Repr

/-- `rbc.sym` (R36): a bus primitive and its operand (R105 to R109). -/
inductive Prim where
  | start
  | restart
  | stop
  | writeByte (b : Byte)
  | readByte
deriving DecidableEq, Repr

/-- A symbol of the bus trace notation of R93. -/
inductive BusSym where
  /-- `S` -/
  | s
  /-- `Sr` -/
  | sr
  /-- `P` -/
  | p
  /-- `W(b)A` or `W(b)N` -/
  | w (b : Byte) (acked : Bool)
  /-- `R(b)N` -/
  | r (b : Byte)
deriving DecidableEq, Repr

/-- The register client: its registers (R22 to R27), its engine (R36) and its two outputs (R38). `RBC_CMD` stores nothing and
`BUSY` is `phase = run` (R36). -/
structure Rbc where
  /-- `RBC_STATUS.DONE` (R24). -/
  done : Bool
  /-- `RBC_STATUS.OK` (R24). -/
  ok : Bool
  /-- `RBC_STATUS.PRESENT` (R24). -/
  present : Bool
  /-- `RBC_STATUS.ILLEGAL` (R24). -/
  illegal : Bool
  /-- `RBC_STATUS.OVR` (R24). -/
  ovr : Bool
  /-- `RBC_ADDR.REG` (R25). -/
  addr : Byte
  /-- `RBC_WDATA.DATA` (R26). -/
  wdata : Byte
  /-- `RBC_RDATA.DATA0` (R27). -/
  data0 : Byte
  /-- `RBC_RDATA.DATA1` (R27). -/
  data1 : Byte
  phase : RbcPhase
  /-- `rbc.op_s` (R132). -/
  opS : BitVec 4
  /-- `rbc.addr_s` (R132). -/
  addrS : Byte
  /-- `rbc.wdata_s` (R132). -/
  wdataS : Byte
  script : Option Script
  /-- `rbc.sym`; none while the first primitive of a command has not begun (R131). -/
  sym : Option Prim
  /-- `rbc.bitc`: the bit cell within the byte, 8 = the ACK cell. -/
  bitc : Fin 9
  /-- `rbc.q`: the quarter-step within the bit cell or condition. -/
  q : Fin 4
  /-- `rbc.tick`: clock cycles spent in the quarter-step. -/
  tick : Nat
  /-- `rbc.sh`. -/
  sh : Byte
  /-- THE MODEL'S OWN: the level `BitCell` sampled in this cell (its local `s`, R104), held until the cell ends. -/
  smp : Bool
  ok1 : Bool
  ok2 : Bool
  d0 : Byte
  d1 : Byte
  /-- `scl_o`, true = released (R38). -/
  scl : Bool
  /-- `sda_o`, true = released (R38). -/
  sda : Bool
deriving DecidableEq, Repr

/-! ## Types of the capture engine -/

/-- `cap.phase` (R37). -/
inductive CapPhase where
  | idle
  | vsDrain
  | vsWaitHigh
  | vsWaitFall
  | rowWaitStart
  | pixWaitHigh
  | pixWaitLow
  | rowWaitEnd
deriving DecidableEq, Repr

/-- One capture input vector (R39, R95). -/
structure Sample where
  vs : Bool
  hr : Bool
  pc : Bool
  d : Byte
deriving DecidableEq, Repr

/-- The capture engine: its registers (R28 to R34) and its internal state (R37). `CAP_CMD` stores nothing, `BUSY` is
`phase ≠ idle`, and `CAP_POS` is `row` and `col`. -/
structure Cap where
  /-- `CAP_STATUS.DONE` (R30). -/
  done : Bool
  /-- `CAP_STATUS.ILLEGAL` (R30). -/
  illegal : Bool
  /-- `CAP_STATUS.OVR` (R30). -/
  ovr : Bool
  /-- `CAP_BASE` (R31). -/
  base : Word
  /-- `CAP_WIDTH.WIDTH` (R32). -/
  width : Dim
  /-- `CAP_HEIGHT.HEIGHT` (R33). -/
  height : Dim
  phase : CapPhase
  row : Dim
  col : Dim
  /-- `cap.base_s` (R164). -/
  baseS : Word
  /-- `cap.w_s` (R164). -/
  wS : Dim
  /-- `cap.h_s` (R164). -/
  hS : Dim
  /-- `cap.sync[1]` (R37, R161): the stage the inputs enter. -/
  sync1 : Sample
  /-- `cap.sync[2]` (R37, R161): the stage the engine samples. -/
  sync2 : Sample
deriving DecidableEq, Repr

/-- The frame-buffer port (R66): what the engine's outputs hold in the clock cycle after the last edge. -/
structure FbPort where
  /-- `fb_we`. -/
  we : Bool
  /-- `fb_addr`. -/
  addr : Word
  /-- `fb_data`. -/
  data : Byte
deriving DecidableEq, Repr

/-- The frame buffer's written bytes (R65): addresses strictly rising. A byte no capture has written is not listed (U14). -/
abbrev Memory := List Host.Cell

/-! ## The host -/

/-- The two register windows (R22, R28). -/
inductive Block where
  | rbc
  | cap
deriving DecidableEq, Repr

/-- `HostWrite(off, v)` and `HostRead(off)` (R14, R60). -/
inductive HostAccess where
  | write (off : Word) (v : Word)
  | read (off : Word)
deriving DecidableEq, Repr

/-- What the outside presents in one clock cycle: the reset input (R40), at most one host access per block (R60), and a host
read of one frame-buffer byte (R10, R65). -/
structure HostCycle where
  rst : Bool := false
  rbc : Option HostAccess := none
  cap : Option HostAccess := none
  fb : Option Word := none
deriving DecidableEq, Repr

/-- One line of what the host still has to do: a clock cycle's accesses, or a `poll REG.FIELD == k` (R88), which reads the
register in every cycle until the bits under `mask` are `want`. -/
inductive HostLine where
  | cycle (c : HostCycle)
  | poll (b : Block) (off mask want : Word)
deriving DecidableEq, Repr

/-! ## The machine -/

/-- Everything at one clock edge. -/
structure State where
  /-- The parameters of R9; constant. -/
  params : Config.Params
  rbc : Rbc
  cap : Cap
  fb : FbPort
  mem : Memory
  /-- THE MODEL'S OWN: `mem` when the last CAPTURE was accepted, for the race of R72. -/
  memOld : Memory
  /-- INPUT: what the host does in the cycles to come, first line next; an empty list is a host that does nothing. -/
  host : List HostLine
  /-- INPUT: the levels the bus slave leaves on `SDA` at the sample points to come (R12). -/
  slave : List Bool
  /-- INPUT: the levels at the capture inputs at the clock edges to come (R12, R39). -/
  video : List Sample
  /-- THE MODEL'S OWN: clock edges so far; every free value is drawn at one. -/
  edge : Nat
  /-- OUTPUT: what the register client's host read in this cycle returned. -/
  readRbc : Option Word
  /-- OUTPUT: what the capture engine's host read in this cycle returned. -/
  readCap : Option Word
  /-- OUTPUT: what the host's frame-buffer read in this cycle returned. -/
  readFb : Option Byte
  /-- THE MODEL'S OWN: the bus trace (R93), in bus order. -/
  trace : List BusSym
deriving DecidableEq, Repr

/-- What stops the machine. -/
inductive Fault where
  /-- Raised by the capture engine's store: the exact address is past the frame-buffer space (R65). The range check of R165
  keeps it out of every run from reset (R177). Safe: the machine stops where the spec gives no such address. -/
  | fbAddressPastTop
  /-- Raised by the register client's engine: it is running with no script, which no run from reset reaches (R36). Safe. -/
  | runningWithoutScript
deriving DecidableEq, Repr

/-- What the model has no meaning for. -/
inductive Refusal where
  /-- Raised by `exec` only: the instruction has no meaning yet. Safe. -/
  | notModelled (mnemonic : String)
  /-- Raised by a host access that is not at a multiple of 4 within 0 .. 0x3C: "a model refuses a host access whose offset is not
  a multiple of 4 or is outside 0 .. 0x3C" (R61). Safe. -/
  | hostOffset
deriving DecidableEq, Repr

/-! ## Reset values -/

/-- All 11 levels 0. -/
def Sample.zero : Sample := ⟨false, false, false, 0⟩

/-- The register client after reset (R22 to R27, R36, R41). `d0` and `d1` are UNSPECIFIED there: zero is the model's
(assumption 4). -/
def Rbc.reset : Rbc where
  done := false
  ok := false
  present := false
  illegal := false
  ovr := false
  addr := 0
  wdata := 0
  data0 := 0
  data1 := 0
  phase := .idle
  opS := 0
  addrS := 0
  wdataS := 0
  script := none
  sym := none
  bitc := 0
  q := 0
  tick := 0
  sh := 0
  smp := false
  ok1 := false
  ok2 := false
  d0 := 0
  d1 := 0
  scl := true
  sda := true

/-- The capture engine after reset (R28 to R34, R37, R41). The synchronisers are UNSPECIFIED there: zero is the model's
(assumption 4). -/
def Cap.reset : Cap where
  done := false
  illegal := false
  ovr := false
  base := 0
  width := 0
  height := 0
  phase := .idle
  row := 0
  col := 0
  baseS := 0
  wS := 0
  hS := 0
  sync1 := .zero
  sync2 := .zero

/-- The frame-buffer port after reset: no write; address and data zero are the model's (assumption 4). -/
def FbPort.reset : FbPort := ⟨false, 0, 0⟩

/-- The machine right after reset (R41, R250): nothing queued by the outside, nothing written to the frame buffer. -/
def State.reset : State where
  params := Config.params
  rbc := .reset
  cap := .reset
  fb := .reset
  mem := []
  memOld := []
  host := []
  slave := []
  video := []
  edge := 0
  readRbc := none
  readCap := none
  readFb := none
  trace := []

/-! ## The updates of one part of the state -/

/-- Replace the register client. -/
def State.setRbc (s : State) (r : Rbc) : State := { s with rbc := r }

/-- Replace the capture engine. -/
def State.setCap (s : State) (c : Cap) : State := { s with cap := c }

/-- Replace the frame-buffer port. -/
def State.setFb (s : State) (p : FbPort) : State := { s with fb := p }

/-- Replace the frame buffer. -/
def State.setMem (s : State) (m : Memory) : State := { s with mem := m }

/-- Remember the frame buffer at the acceptance of a CAPTURE. -/
def State.setMemOld (s : State) (m : Memory) : State := { s with memOld := m }

/-- Replace the host's lines to come. -/
def State.setHost (s : State) (h : List HostLine) : State := { s with host := h }

/-- Replace the slave's levels to come. -/
def State.setSlave (s : State) (l : List Bool) : State := { s with slave := l }

/-- Replace the bus trace. -/
def State.setTrace (s : State) (t : List BusSym) : State := { s with trace := t }

/-- Replace what this cycle's host reads returned. -/
def State.setReads (s : State) (a b : Option Word) (c : Option Byte) : State :=
  { s with readRbc := a, readCap := b, readFb := c }

/-- Replace the video levels to come and count one clock edge. -/
def State.nextEdge (s : State) (v : List Sample) : State := { s with video := v, edge := s.edge + 1 }

end Sys2Proof.Machine
end

