-- ==== Sys2Proof/Machine/Ops.lean ====
section
/-! DEFINITION. The shared operations: sequencing of outcomes, the frame buffer, and the draws of the environment. Neither block
takes an exception (spec/60_exceptions.md R221, R228), so there is no entry and no return to model; what stands in their place,
the outcomes of R220, is in Flags.lean. -/

namespace Sys2Proof.Machine

/-- Go on with `f` from a next state; a fault or a refusal ends the step. -/
def andThen (o : Host.Outcome State Fault Refusal) (f : State → Host.Outcome State Fault Refusal) :
    Host.Outcome State Fault Refusal :=
  match o with
  | .next s => f s
  | .fault r => .fault r
  | .refused r => .refused r

/-! ## The frame buffer (R65, R66) -/

/-- The byte a capture wrote at address `a`, or none where no capture has written. -/
def Memory.get (m : Memory) (a : Nat) : Option Byte :=
  match m with
  | [] => none
  | (k, b) :: rest => if k = a then some b else Memory.get rest a

/-- Write one byte, keeping addresses strictly rising. -/
def Memory.set (m : Memory) (a : Nat) (v : Byte) : Memory :=
  match m with
  | [] => [(a, v)]
  | (k, b) :: rest =>
    if a < k then (a, v) :: (k, b) :: rest
    else if a = k then (a, v) :: rest
    else (k, b) :: Memory.set rest a v

/-- Every address of `m` is above `lo`, or `lo` is none; then rising from there. -/
def Memory.risingFrom (lo : Option Nat) (m : Memory) : Bool :=
  match m with
  | [] => true
  | (k, _) :: rest => (match lo with | none => true | some l => decide (l < k)) && Memory.risingFrom (some k) rest

/-- The canonical form: addresses strictly rising. An unlisted address reads as no value, so no entry equals what an unlisted
address reads as. -/
def Memory.wf (m : Memory) : Bool := Memory.risingFrom none m

/-- The byte at `a` as a reader outside the engine sees it: what no capture has written is the platform's (U14). -/
def Memory.view (m : Memory) (a : Nat) : Byte := (m.get a).getD (Config.fbInit a)

/-- `MemWrite(addr, 1, v)` (R14, R66): the port's outputs are asserted and the memory takes the byte. An address past the
frame-buffer space does not exist (R65). -/
def memWrite (addr : Nat) (v : Byte) (s : State) : Host.Outcome State Fault Refusal :=
  if addr < Config.fbBytes then
    .next ((s.setFb ⟨true, BitVec.ofNat 32 addr, v⟩).setMem (s.mem.set addr v))
  else .fault .fbAddressPastTop

/-! ## Draws of the environment (R12) -/

/-- R95: bit 10 `vs`, bit 9 `hr`, bit 8 `pc`, bits [7:0] the data lines, data line 7 the most significant (R68). -/
def Sample.ofBits (v : BitVec 11) : Sample := ⟨v.getLsbD 10, v.getLsbD 9, v.getLsbD 8, v.setWidth 8⟩

/-- The packing of R95. -/
def Sample.bits (x : Sample) : BitVec 11 :=
  BitVec.ofBool x.vs ++ BitVec.ofBool x.hr ++ BitVec.ofBool x.pc ++ x.d

/-- The level the bus slave leaves on `SDA` at this edge's sample point (R12, R38). -/
def slaveLevel (s : State) : Bool :=
  match s.slave with
  | b :: _ => b
  | [] => Config.sdaDraw s.edge

/-- The levels at the 11 capture inputs at this edge (R12, R39). -/
def videoLevel (s : State) : Sample :=
  match s.video with
  | v :: _ => v
  | [] => .ofBits (Config.videoDraw s.edge)

/-! ## Bit-field helpers -/

/-- `zext_32` of a flag, moved to bit `i` (R13). -/
def flagBit (b : Bool) (i : Nat) : Word := (BitVec.ofBool b).setWidth 32 <<< i

/-- `v[hi:lo]` with `hi = lo + n - 1` (R13). -/
def field (v : Word) (lo n : Nat) : BitVec n := v.extractLsb' lo n

end Sys2Proof.Machine
end

