-- ==== Sys2Proof/Machine/Flags.lean ====
section
/-! DEFINITION. The status registers, their flags (spec/10_state.md R24, R30, R35), and the outcomes of spec/60_exceptions.md R220. -/

namespace Sys2Proof.Machine

/-- `RBC_STATUS.BUSY` (R24, R36). -/
def Rbc.busy (r : Rbc) : Bool := r.phase == .run

/-- `CAP_STATUS.BUSY` (R30, R37). -/
def Cap.busy (c : Cap) : Bool := c.phase != .idle

/-- The codes of R37. -/
def CapPhase.code : CapPhase → BitVec 3
  | .idle => 0
  | .vsDrain => 1
  | .vsWaitHigh => 2
  | .vsWaitFall => 3
  | .rowWaitStart => 4
  | .pixWaitHigh => 5
  | .pixWaitLow => 6
  | .rowWaitEnd => 7

/-- `RBC_STATUS` as the host reads it (R24). -/
def Rbc.status (r : Rbc) : Word :=
  flagBit r.busy 0 ||| flagBit r.done 1 ||| flagBit r.ok 2 ||| flagBit r.present 3 ||| flagBit r.illegal 4 |||
    flagBit r.ovr 5

/-- `CAP_STATUS` as the host reads it (R30). -/
def Cap.status (c : Cap) : Word :=
  flagBit c.busy 0 ||| flagBit c.done 1 ||| flagBit c.illegal 4 ||| flagBit c.ovr 5 |||
    (c.phase.code.setWidth 32 <<< 8)

/-! ## What each event does to the flags (R35) -/

/-- A command write while `BUSY` = 1 (R133): `OVR <- 1`. -/
def Rbc.overrun (r : Rbc) : Rbc := { r with ovr := true }

/-- An illegal command word while idle (R134). -/
def Rbc.flagIllegal (r : Rbc) : Rbc := { r with illegal := true, done := true, ok := false }

/-- The flags at the acceptance of RD or WR (R131): `PRESENT` is left unchanged. -/
def Rbc.flagAccept (r : Rbc) : Rbc := { r with done := false, ok := false, illegal := false }

/-- The flags at the acceptance of PROBE (R131). -/
def Rbc.flagAcceptProbe (r : Rbc) : Rbc := { r.flagAccept with present := false }

/-- The flags of `complete(ok)` (R135). -/
def Rbc.flagComplete (r : Rbc) (ok : Bool) : Rbc := { r with done := true, ok := ok }

/-- A write to `RBC_STATUS` (R24): bit 5 clears `OVR`, nothing else changes. -/
def Rbc.writeStatus (r : Rbc) (v : Word) : Rbc := { r with ovr := r.ovr && !v.getLsbD 5 }

/-- A command write while `BUSY` = 1 (R166). -/
def Cap.overrun (c : Cap) : Cap := { c with ovr := true }

/-- A refused command write while idle (R165). -/
def Cap.flagIllegal (c : Cap) : Cap := { c with illegal := true, done := true }

/-- The flags at the acceptance of CAPTURE (R164). -/
def Cap.flagAccept (c : Cap) : Cap := { c with done := false, illegal := false }

/-- `cap_complete()` (R172). -/
def Cap.complete (c : Cap) : Cap := { c with phase := .idle, done := true }

/-- A write to `CAP_STATUS` (R30). -/
def Cap.writeStatus (c : Cap) (v : Word) : Cap := { c with ovr := c.ovr && !v.getLsbD 5 }

/-! ## Outcomes (R220) -/

/-- The seven outcomes of R220. Outcomes.lean says of each when a machine shows it. -/
inductive OutcomeCode where
  | success
  | busFail
  | idMismatch
  | illegalCmd
  | overrun
  | capDone
  /-- No status pattern: an execution that stays in one wait phase (R223). -/
  | hang
deriving DecidableEq, Repr

/-- The numbers of R220. -/
def OutcomeCode.code : OutcomeCode → Nat
  | .success => 0
  | .busFail => 1
  | .idMismatch => 2
  | .illegalCmd => 3
  | .overrun => 4
  | .capDone => 5
  | .hang => 6

/-- The outcome of the register client's last completed or refused command, read off its status pattern (R220); none before
one has completed, or while one runs. -/
def Rbc.outcome (r : Rbc) : Option OutcomeCode :=
  if r.busy || !r.done then none
  else if r.illegal then some .illegalCmd
  else if !r.ok then some .busFail
  else if r.opS == 3 && !r.present then some .idMismatch
  else some .success

/-- The outcome of the capture engine's last completed or refused command (R220). -/
def Cap.outcome (c : Cap) : Option OutcomeCode :=
  if c.busy || !c.done then none
  else if c.illegal then some .illegalCmd
  else some .capDone

/-- OVERRUN is shown by `OVR` alone, "other bits as the running command leaves them" (R220): it stands beside the outcome of a
command. -/
def overrunShown (ovr : Bool) : List OutcomeCode := if ovr then [.overrun] else []

/-- Every outcome the register client's status pattern shows (R220). -/
def Rbc.outcomes (r : Rbc) : List OutcomeCode := r.outcome.toList ++ overrunShown r.ovr

/-- Every outcome the capture engine's status pattern shows (R220). -/
def Cap.outcomes (c : Cap) : List OutcomeCode := c.outcome.toList ++ overrunShown c.ovr

end Sys2Proof.Machine
end

