-- ==== Sys2Proof/Machine/Operands.lean ====
section
/-! DEFINITION. Operand forms: the operand registers and the snapshots taken from them (spec/30_encoding.md R82,
spec/41_register_commands.md R132, spec/42_capture.md R164), and the register windows as the host reads and writes them
(spec/10_state.md R22 to R34, spec/20_memory.md R61, R62). -/

namespace Sys2Proof.Machine

/-! ## Snapshots -/

/-- `snapshot(v)` (R132), with `OP` of the accepted word. -/
def Rbc.snapshot (r : Rbc) (op : BitVec 4) : Rbc := { r with opS := op, addrS := r.addr, wdataS := r.wdata }

/-- The snapshot of R164. -/
def Cap.snapshot (c : Cap) : Cap := { c with baseS := c.base, wS := c.width, hS := c.height, row := 0, col := 0 }

/-- `illegal_range` (R165), in exact arithmetic. -/
def Cap.rangeIllegal (c : Cap) : Bool :=
  decide (0 < c.width.toNat * c.height.toNat) &&
    decide (Config.fbBytes < c.base.toNat + c.width.toNat * c.height.toNat)

/-- The frame-buffer address of element `buffer[row*width + col]` (R169), exact (R177). -/
def Cap.pixelAddr (c : Cap) : Nat := c.baseS.toNat + c.row.toNat * c.wS.toNat + c.col.toNat

/-! ## The register client's window (R22) -/

/-- `RBC_RDATA` (R27). -/
def Rbc.rdata (r : Rbc) : Word := (r.data1 ++ r.data0).setWidth 32

/-- `HostRead(off)` of the register client: `RBC_CMD` and unmapped offsets read 0, and no read has a side effect (R22, R61, R62). -/
def Rbc.readReg (r : Rbc) (off : Word) : Word :=
  match off.toNat with
  | 0x04 => r.status
  | 0x08 => r.addr.setWidth 32
  | 0x0C => r.wdata.setWidth 32
  | 0x10 => r.rdata
  | _ => 0

/-- `HostWrite(off, v)` of the register client, but for `RBC_CMD` (R22, R25, R26, R62). -/
def Rbc.writeReg (r : Rbc) (off v : Word) : Rbc :=
  match off.toNat with
  | 0x04 => r.writeStatus v
  | 0x08 => { r with addr := field v 0 8 }
  | 0x0C => { r with wdata := field v 0 8 }
  | _ => r

/-! ## The capture engine's window (R28) -/

/-- `CAP_POS` (R34). -/
def Cap.pos (c : Cap) : Word := c.row ++ c.col

/-- `HostRead(off)` of the capture engine (R28, R61, R62). -/
def Cap.readReg (c : Cap) (off : Word) : Word :=
  match off.toNat with
  | 0x04 => c.status
  | 0x08 => c.base
  | 0x0C => c.width.setWidth 32
  | 0x10 => c.height.setWidth 32
  | 0x14 => c.pos
  | _ => 0

/-- `HostWrite(off, v)` of the capture engine, but for `CAP_CMD` (R28, R31 to R34, R62). -/
def Cap.writeReg (c : Cap) (off v : Word) : Cap :=
  match off.toNat with
  | 0x04 => c.writeStatus v
  | 0x08 => { c with base := v }
  | 0x0C => { c with width := field v 0 16 }
  | 0x10 => { c with height := field v 0 16 }
  | _ => c

/-! ## The platform's addresses (R9, R70, R231) -/

/-- The window and offset a platform address falls into, if any: each block occupies its window and nothing else. -/
def locate (p : Config.Params) (a : Word) : Option (Block × Word) :=
  if a.extractLsb' 6 26 = p.rbcBlock then some (.rbc, (a.extractLsb' 0 6).setWidth 32)
  else if a.extractLsb' 6 26 = p.capBlock then some (.cap, (a.extractLsb' 0 6).setWidth 32)
  else none

end Sys2Proof.Machine
end

