-- ==== Sys2Proof/Machine/Bus.lean ====
section
/-! DEFINITION. The bit-banged master's primitives, quarter-step by quarter-step (spec/40_bus_primitives.md R100 to R112). -/

namespace Sys2Proof.Machine

/-- The primitive is a byte of nine bit cells (R108, R109), not a condition. -/
def Prim.isByte : Prim → Bool
  | .start => false
  | .restart => false
  | .stop => false
  | .writeByte _ => true
  | .readByte => true

/-- The level the master leaves on `sda_o` in a bit cell: a data bit being written, most significant first, else released
(R108, R109). -/
def cellLevel (p : Prim) (bitc : Fin 9) (sh : Byte) : Bool :=
  match p with
  | .writeByte _ => if bitc = 8 then true else sh.msb
  | _ => true

/-- `Drive(scl, sda)` of quarter-step `q` (R104 to R107): the two outputs, 1 = released. -/
def driveOf (p : Prim) (bitc : Fin 9) (q : Fin 4) (sh : Byte) : Bool × Bool :=
  match p with
  | .start => match q with
    | 0 => (true, true)
    | 1 => (true, false)
    | _ => (false, false)
  | .restart => match q with
    | 0 => (false, true)
    | 1 => (true, true)
    | 2 => (true, false)
    | 3 => (false, false)
  | .stop => match q with
    | 0 => (false, false)
    | 1 => (true, false)
    | _ => (true, true)
  | .writeByte b => match q with
    | 0 => (false, cellLevel (.writeByte b) bitc sh)
    | 1 => (true, cellLevel (.writeByte b) bitc sh)
    | 2 => (true, cellLevel (.writeByte b) bitc sh)
    | 3 => (false, cellLevel (.writeByte b) bitc sh)
  | .readByte => match q with
    | 0 => (false, cellLevel .readByte bitc sh)
    | 1 => (true, cellLevel .readByte bitc sh)
    | 2 => (true, cellLevel .readByte bitc sh)
    | 3 => (false, cellLevel .readByte bitc sh)

/-- The last quarter-step of a condition or of a bit cell (R112: 3, 4, 3 and 4 quarter-steps). -/
def Prim.lastQ : Prim → Fin 4
  | .start => 2
  | .restart => 3
  | .stop => 2
  | .writeByte _ => 3
  | .readByte => 3

/-- Quarter-steps of a whole primitive (R112). -/
def Prim.quarters : Prim → Nat
  | .start => 3
  | .restart => 4
  | .stop => 3
  | .writeByte _ => 36
  | .readByte => 36

/-- Set both outputs for the quarter-step the engine is in (R101). -/
def Rbc.drive (r : Rbc) (p : Prim) : Rbc :=
  { r with scl := (driveOf p r.bitc r.q r.sh).1, sda := (driveOf p r.bitc r.q r.sh).2 }

/-- Begin a primitive: its first quarter-step, with `rbc.sh <- b` at the entry of `WriteByte(b)` (R108). DESIGN CHOICE (assumption
10): `rbc.bitc` is 0 in a condition too; the rules give it a value within a byte only (R36, R108, R109). -/
def Rbc.beginPrim (r : Rbc) (p : Prim) : Rbc :=
  Rbc.drive { r with sym := some p, bitc := 0, q := 0, tick := 0, sh := (match p with | .writeByte b => b | _ => r.sh) } p

/-- The next quarter-step of the same condition or bit cell. -/
def Rbc.nextQuarter (r : Rbc) (p : Prim) : Rbc := Rbc.drive { r with q := r.q + 1, tick := 0 } p

/-- What a bit cell leaves in `rbc.sh` when it ends: shifted left, a received bit entering at bit 0; the ACK cell of a read
brings no bit (R108, R109). -/
def shiftCell (p : Prim) (bitc : Fin 9) (sh : Byte) (smp : Bool) : Byte :=
  match p with
  | .writeByte _ => if bitc = 8 then sh else sh <<< 1
  | .readByte => if bitc = 8 then sh else (sh <<< 1) ||| (BitVec.ofBool smp).setWidth 8
  | _ => sh

/-- The next bit cell of the same byte. -/
def Rbc.nextCell (r : Rbc) (p : Prim) : Rbc :=
  Rbc.drive { r with bitc := r.bitc + 1, q := 0, tick := 0, sh := shiftCell p r.bitc r.sh r.smp } p

/-- `rbc.sh` in bit cell `k` of a byte that begins with `b` there, `smp i` being the level sampled in cell `i` (R108, R109). -/
def cellSh (p : Prim) (smp : Nat → Bool) (b : Byte) : Nat → Byte
  | 0 => b
  | k + 1 => shiftCell p (Fin.ofNat 9 k) (cellSh p smp b k) (smp k)

/-- The levels of `SCL` and `SDA`: the master's outputs, wired-AND with the slave's drives (R38). -/
def lineLevels (r : Rbc) (sclSlave sdaSlave : Bool) : Bool × Bool := (r.scl && sclSlave, r.sda && sdaSlave)

/-- `SdaSample()` (R15, R104): the level of the `SDA` line, `level` being the slave's drive (R38). The master reads no other line
(R103). -/
def Rbc.sample (r : Rbc) (level : Bool) : Rbc := { r with smp := (lineLevels r true level).2 }

/-- The trace symbol of a primitive that has ended (R93, R105 to R109). -/
def primSym (p : Prim) (r : Rbc) : BusSym :=
  match p with
  | .start => .s
  | .restart => .sr
  | .stop => .p
  | .writeByte b => .w b (!r.smp)
  | .readByte => .r r.sh

/-- What a primitive that has ended tells the script: `acked` of `WriteByte`; a condition and a read byte always succeed
(R108 to R110). -/
def primResult (p : Prim) (r : Rbc) : Bool :=
  match p with
  | .writeByte _ => !r.smp
  | _ => true

end Sys2Proof.Machine
end

