-- ==== Sys2Proof/Machine/Capture.lean ====
section
/-! DEFINITION. What a command written to `CAP_CMD` does at the clock edge that performs the write (spec/42_capture.md R164 to
R166). The capture that follows is the engine's (CapEngine.lean). -/

namespace Sys2Proof.Machine

/-- The check that stands before every command write (R166, R225). -/
def capUnlessBusy (s : State) (f : State → Host.Outcome State Fault Refusal) : Host.Outcome State Fault Refusal :=
  if s.cap.busy then .next (s.setCap s.cap.overrun) else f s

/-- A refused word or range (R165). -/
def capRefuse (s : State) : Host.Outcome State Fault Refusal := .next (s.setCap s.cap.flagIllegal)

/-- Acceptance of CAPTURE (R164). -/
def Cap.start (c : Cap) : Cap := { c.flagAccept.snapshot with phase := .vsDrain }

/-- CNOP (R166): no state changes while idle; while busy, an overrun. -/
def execCnop (s : State) : Host.Outcome State Fault Refusal := capUnlessBusy s .next

/-- CAPTURE (R164): refused when the buffer would pass 2^32 (R165), else accepted. -/
def execCapture (s : State) : Host.Outcome State Fault Refusal :=
  capUnlessBusy s fun s =>
    if s.cap.rangeIllegal then capRefuse s else .next ((s.setCap s.cap.start).setMemOld s.mem)

/-- A word that decodes to ILLEGAL (R165). -/
def capIllegal (s : State) : Host.Outcome State Fault Refusal := capUnlessBusy s capRefuse

end Sys2Proof.Machine
end

