-- ==== Sys2Proof/Machine/RegisterClient.lean ====
section
/-! DEFINITION. What a command written to `RBC_CMD` does at the clock edge that performs the write
(spec/41_register_commands.md R131 to R140). The bus activity that follows is the engine's (RbcEngine.lean). -/

namespace Sys2Proof.Machine

/-- The check that stands before every command write (R131, R133, R225): while `BUSY` = 1 the write is ignored and sets `OVR`. -/
def rbcUnlessBusy (s : State) (f : Rbc → Rbc) : Host.Outcome State Fault Refusal :=
  if s.rbc.busy then .next (s.setRbc s.rbc.overrun) else .next (s.setRbc (f s.rbc))

/-- Acceptance of a bus command (R131): snapshot, `RUN`, and the start of the script, none of whose primitives has begun. -/
def Rbc.start (r : Rbc) (op : BitVec 4) (sc : Script) : Rbc :=
  { r.snapshot op with phase := .run, script := some sc, sym := none }

/-- NOP (R136): no state changes while idle; while busy, R133. -/
def execNop (s : State) : Host.Outcome State Fault Refusal := rbcUnlessBusy s id

/-- RD accepted (R131, R138). -/
def execRd (s : State) : Host.Outcome State Fault Refusal :=
  rbcUnlessBusy s fun r => r.flagAccept.start 0x1 (.rd .start)

/-- WR accepted (R131, R139). -/
def execWr (s : State) : Host.Outcome State Fault Refusal :=
  rbcUnlessBusy s fun r => r.flagAccept.start 0x2 (.wr .start)

/-- PROBE accepted (R131, R140): `PRESENT` is cleared too. -/
def execProbe (s : State) : Host.Outcome State Fault Refusal :=
  rbcUnlessBusy s fun r => r.flagAcceptProbe.start 0x3 (.idHigh .start)

/-- A word that decodes to ILLEGAL (R131, R134): refused while idle, an overrun while busy. -/
def rbcIllegal (s : State) : Host.Outcome State Fault Refusal := rbcUnlessBusy s Rbc.flagIllegal

end Sys2Proof.Machine
end

