-- ==== Sys2Proof/Machine/SlaByte.lean ====
section
/-! DEFINITION. The first byte of a bus transaction (spec/30_encoding.md R90, spec/40_bus_primitives.md R108): the engine puts it
into the shift register and begins to send it, most significant bit first. -/

namespace Sys2Proof.Machine

/-- Begin `WriteByte` of an SLA byte. An idle master drives nothing (R102, R144). -/
def beginSla (rw : Bool) (s : State) : Host.Outcome State Fault Refusal :=
  if s.rbc.busy then .next (s.setRbc (s.rbc.beginPrim (.writeByte (slaByte rw)))) else .next s

/-- SLA+W, 0x42: "`RW` = 0 for a transaction in which the master writes" (R90). -/
def execSlaW (s : State) : Host.Outcome State Fault Refusal := beginSla false s

/-- SLA+R, 0x43: "1 for one in which it reads" (R90). -/
def execSlaR (s : State) : Host.Outcome State Fault Refusal := beginSla true s

end Sys2Proof.Machine
end

