-- ==== Sys2Proof/Machine/Dispatch.lean ====
section
/-! DEFINITION. One arm per instruction. -/

namespace Sys2Proof.Machine

def exec (i : Instr) (s : State) : Host.Outcome State Fault Refusal :=
  match i with
  | .nop => Sys2Proof.Machine.execNop s
  | .rd => Sys2Proof.Machine.execRd s
  | .wr => Sys2Proof.Machine.execWr s
  | .probe => Sys2Proof.Machine.execProbe s
  | .cnop => Sys2Proof.Machine.execCnop s
  | .capture => Sys2Proof.Machine.execCapture s
  | .slaW => Sys2Proof.Machine.execSlaW s
  | .slaR => Sys2Proof.Machine.execSlaR s

end Sys2Proof.Machine
end

