-- ==== Sys2Proof/Machine/CapEngine.lean ====
section
/-! DEFINITION. The capture engine: one sample per clock edge through the transition table of spec/42_capture.md R163. -/

namespace Sys2Proof.Machine

/-- Enter a phase, no other effect. -/
def Cap.goto (c : Cap) (p : CapPhase) : Cap := { c with phase := p }

/-- VS_DRAIN (R163, R167). -/
def capVsDrain (x : Sample) (s : State) : Host.Outcome State Fault Refusal :=
  if x.vs then .next s else .next (s.setCap (s.cap.goto .vsWaitHigh))

/-- VS_WAIT_HIGH (R163, R167). -/
def capVsWaitHigh (x : Sample) (s : State) : Host.Outcome State Fault Refusal :=
  if x.vs then .next (s.setCap (s.cap.goto .vsWaitFall)) else .next s

/-- VS_WAIT_FALL (R163, R167, R176): the frame-sync wait runs even when `h` = 0. -/
def capVsWaitFall (x : Sample) (s : State) : Host.Outcome State Fault Refusal :=
  if x.vs then .next s
  else if s.cap.hS = 0 then .next (s.setCap s.cap.complete)
  else .next (s.setCap (Cap.goto { s.cap with row := 0 } .rowWaitStart))

/-- ROW_WAIT_START (R163, R168): on the level, not an edge. -/
def capRowWaitStart (x : Sample) (s : State) : Host.Outcome State Fault Refusal :=
  if x.hr then
    if s.cap.wS = 0 then .next (s.setCap (s.cap.goto .rowWaitEnd))
    else .next (s.setCap (Cap.goto { s.cap with col := 0 } .pixWaitHigh))
  else .next s

/-- PIX_WAIT_HIGH (R163, R169): the byte comes from the sample that showed `pc` = 1. -/
def capPixWaitHigh (x : Sample) (s : State) : Host.Outcome State Fault Refusal :=
  if x.pc then memWrite s.cap.pixelAddr x.d (s.setCap (s.cap.goto .pixWaitLow)) else .next s

/-- PIX_WAIT_LOW (R163, R170). -/
def capPixWaitLow (x : Sample) (s : State) : Host.Outcome State Fault Refusal :=
  if x.pc then .next s
  else if s.cap.col.toNat + 1 < s.cap.wS.toNat then
    .next (s.setCap (Cap.goto { s.cap with col := s.cap.col + 1 } .pixWaitHigh))
  else .next (s.setCap (Cap.goto { s.cap with col := s.cap.col + 1 } .rowWaitEnd))

/-- ROW_WAIT_END (R163, R171, R172). -/
def capRowWaitEnd (x : Sample) (s : State) : Host.Outcome State Fault Refusal :=
  if x.hr then .next s
  else if s.cap.row.toNat + 1 < s.cap.hS.toNat then
    .next (s.setCap (Cap.goto { s.cap with row := s.cap.row + 1, col := 0 } .rowWaitStart))
  else .next (s.setCap (Cap.complete { s.cap with row := s.cap.row + 1, col := 0 }))

/-- The engine at one clock edge with the sample `x = CapSample()` (R162, R163). -/
def capOn (x : Sample) (s : State) : Host.Outcome State Fault Refusal :=
  match s.cap.phase with
  | .idle => .next s
  | .vsDrain => capVsDrain x s
  | .vsWaitHigh => capVsWaitHigh x s
  | .vsWaitFall => capVsWaitFall x s
  | .rowWaitStart => capRowWaitStart x s
  | .pixWaitHigh => capPixWaitHigh x s
  | .pixWaitLow => capPixWaitLow x s
  | .rowWaitEnd => capRowWaitEnd x s

/-- `CapSample()` is the level the second synchroniser stage holds before the edge (R161). -/
def capEdge (s : State) : Host.Outcome State Fault Refusal := capOn s.cap.sync2 s

/-- Both synchroniser stages take one step (R161): `CapSample()` at edge `k` is the level of edge `k - 2`. -/
def Cap.shiftSync (c : Cap) (x : Sample) : Cap := { c with sync1 := x, sync2 := c.sync1 }

end Sys2Proof.Machine
end

