-- ==== Sys2Proof/Machine/RbcEngine.lean ====
section
/-! DEFINITION. The register-client engine: the scripts of RD, WR and PROBE (spec/41_register_commands.md R137 to R140) run over
the quarter-steps of spec/40_bus_primitives.md, one clock edge at a time (R101, R131, R135, R270). -/

namespace Sys2Proof.Machine

/-! ## Scripts -/

/-- The position after one in `RegRead(a)` (R137), given what the primitive there told: on the first NACK, a stop and the leg's
failure; none after the stop. -/
def ReadPos.after : ReadPos → Bool → Option ReadPos
  | .start, _ => some .slaW
  | .slaW, acked => some (if acked then .reg else .stop false)
  | .reg, acked => some (if acked then .restart else .stop false)
  | .restart, _ => some .slaR
  | .slaR, acked => some (if acked then .data else .stop false)
  | .data, _ => some (.stop true)
  | .stop _, _ => none

/-- The position after one in the script of WR (R139). -/
def WritePos.after : WritePos → Bool → Option WritePos
  | .start, _ => some .slaW
  | .slaW, acked => some (if acked then .reg else .stop false)
  | .reg, acked => some (if acked then .value else .stop false)
  | .value, acked => some (.stop acked)
  | .stop _, _ => none

/-- The position after one in a command's script; none when the command is complete. PROBE goes on to its second read when the
first succeeded or `PROBE_ALWAYS_BOTH` (R140). -/
def Script.after (always : Bool) : Script → Bool → Option Script
  | .rd p, acked => (p.after acked).map .rd
  | .wr p, acked => (p.after acked).map .wr
  | .idHigh (.stop ok), _ => if ok || always then some (.idLow .start) else none
  | .idHigh p, acked => (p.after acked).map .idHigh
  | .idLow p, acked => (p.after acked).map .idLow

/-- The primitive at a position of `RegRead(a)` (R137). -/
def ReadPos.prim (a : Byte) : ReadPos → Prim
  | .start => .start
  | .slaW => .writeByte (slaByte false)
  | .reg => .writeByte a
  | .restart => .restart
  | .slaR => .writeByte (slaByte true)
  | .data => .readByte
  | .stop _ => .stop

/-- The primitive at a position of WR (R139). -/
def WritePos.prim (a v : Byte) : WritePos → Prim
  | .start => .start
  | .slaW => .writeByte (slaByte false)
  | .reg => .writeByte a
  | .value => .writeByte v
  | .stop _ => .stop

/-- The primitive at a position, its operands taken from the snapshot only (R132). -/
def primAt (r : Rbc) : Script → Prim
  | .rd p => p.prim r.addrS
  | .idHigh p => p.prim Config.idHighAddr
  | .idLow p => p.prim Config.idLowAddr
  | .wr p => p.prim r.addrS r.wdataS

/-- The position sends an SLA byte; its `RW` bit (R90). -/
def Script.sla : Script → Option Bool
  | .rd .slaW => some false
  | .rd .slaR => some true
  | .idHigh .slaW => some false
  | .idHigh .slaR => some true
  | .idLow .slaW => some false
  | .idLow .slaR => some true
  | .wr .slaW => some false
  | _ => none

/-! ## What the end of a primitive leaves -/

/-- A byte read goes to `rbc.d0` (RD, first read of PROBE) or `rbc.d1` (second read) (R36, R138, R140). -/
def Rbc.keepByte (r : Rbc) : Script → Rbc
  | .rd .data => { r with d0 := r.sh }
  | .idHigh .data => { r with d0 := r.sh }
  | .idLow .data => { r with d1 := r.sh }
  | _ => r

/-- A read of PROBE that has stopped leaves its result in `rbc.ok1` or `rbc.ok2`; after the first read `ok2` is false until the
second one ends, so that it is false when that is not issued (R140). -/
def Rbc.keepResult (r : Rbc) : Script → Rbc
  | .idHigh (.stop ok) => { r with ok1 := ok, ok2 := false }
  | .idLow (.stop ok) => { r with ok2 := ok }
  | _ => r

/-- `complete(ok)` (R135): idle again, nothing of the script left. -/
def Rbc.complete (r : Rbc) (ok : Bool) : Rbc :=
  { r.flagComplete ok with phase := .idle, script := none, sym := none, bitc := 0, q := 0, tick := 0 }

/-- `RBC_RDATA.DATA0 <- (ok ? v : UNSPECIFIED)` and `complete(ok)` of RD (R138). -/
def completeRd (ok : Bool) (n : Nat) (r : Rbc) : Rbc :=
  Rbc.complete { r with data0 := if ok then r.d0 else Config.failedData0 n } ok

/-- `complete` of WR (R139): `RBC_RDATA` is left alone. -/
def completeWr (ok : Bool) (r : Rbc) : Rbc := r.complete ok

/-- The end of PROBE (R140): both bytes, the verdict, and `complete(ok1 and ok2)`. -/
def completeProbe (n : Nat) (r : Rbc) : Rbc :=
  Rbc.complete
    { r with
      data0 := if r.ok1 then r.d0 else Config.failedData0 n
      data1 := if r.ok2 then r.d1 else Config.failedData1 n
      present := r.ok1 && r.ok2 && r.d0 == Config.expectedPid && r.d1 == Config.expectedVer }
    (r.ok1 && r.ok2)

/-- The completion of the command whose script ends at a position; a script ends at its stop only. -/
def completeAt (n : Nat) (r : Rbc) : Script → Rbc
  | .rd (.stop ok) => completeRd ok n r
  | .rd _ => completeRd false n r
  | .wr (.stop ok) => completeWr ok r
  | .wr _ => completeWr false r
  | .idHigh _ => completeProbe n r
  | .idLow _ => completeProbe n r

/-! ## One clock edge -/

/-- Begin the primitive at a position. An SLA byte is decoded and run as the instruction it is (R90). -/
def beginAt (pos : Script) (s : State) : Host.Outcome State Fault Refusal :=
  match pos.sla with
  | some rw =>
    match decodeSla (slaByte rw) with
    | .instr i => exec i (s.setRbc { s.rbc with script := some pos })
    | .illegal _ => .next (s.setRbc (Rbc.beginPrim { s.rbc with script := some pos } (primAt s.rbc pos)))
  | none => .next (s.setRbc (Rbc.beginPrim { s.rbc with script := some pos } (primAt s.rbc pos)))

/-- A primitive has ended: its symbol joins the trace (R93), its result is kept, and the script goes on or the command
completes. -/
def primEnd (pos : Script) (p : Prim) (s : State) : Host.Outcome State Fault Refusal :=
  let t := (s.setTrace (s.trace ++ [primSym p s.rbc])).setRbc ((s.rbc.keepByte pos).keepResult pos)
  match pos.after s.params.probeAlwaysBoth (primResult p s.rbc) with
  | some pos' => beginAt pos' t
  | none => .next (t.setRbc (completeAt s.edge t.rbc pos))

/-- The end of the second quarter-step of a bit cell: "sample at the last clock edge of q1" (R104). One level of the slave is
used up. -/
def sampleCell (s : State) : State := (s.setRbc (s.rbc.sample (slaveLevel s))).setSlave s.slave.tail

/-- A quarter-step has ended (R104 to R109). -/
def quarterEnd (pos : Script) (p : Prim) (s : State) : Host.Outcome State Fault Refusal :=
  if p.isByte then
    if s.rbc.q = 1 then
      let t := sampleCell s
      .next (t.setRbc (t.rbc.nextQuarter p))
    else if s.rbc.q = 3 then
      if s.rbc.bitc = 8 then primEnd pos p (s.setRbc { s.rbc with sh := shiftCell p s.rbc.bitc s.rbc.sh s.rbc.smp })
      else .next (s.setRbc (s.rbc.nextCell p))
    else .next (s.setRbc (s.rbc.nextQuarter p))
  else if s.rbc.q < p.lastQ then .next (s.setRbc (s.rbc.nextQuarter p))
  else primEnd pos p s

/-- The engine at one clock edge while `rbc.phase` = RUN: the first edge after acceptance begins the script (R131); after that a
quarter-step lasts `I2C_TQ_CYCLES` edges (R101). -/
def rbcEdge (s : State) : Host.Outcome State Fault Refusal :=
  match s.rbc.script with
  | none => .fault .runningWithoutScript
  | some pos =>
    match s.rbc.sym with
    | none => beginAt pos s
    | some p =>
      if s.rbc.tick < s.params.tqMinus1 then .next (s.setRbc { s.rbc with tick := s.rbc.tick + 1 })
      else quarterEnd pos p s

end Sys2Proof.Machine
end

