-- ==== Sys2Proof/Machine/HostPort.lean ====
section
/-! DEFINITION. Host accesses at one clock edge (spec/20_memory.md R60 to R64, spec/60_exceptions.md R225, R226) and the lines a
host program is made of (spec/30_encoding.md R88). -/

namespace Sys2Proof.Machine

/-- A write to `RBC_CMD` (R131): decoded and run. -/
def rbcCommand (v : Word) (s : State) : Host.Outcome State Fault Refusal :=
  match decodeRbc v with
  | .instr i => exec i s
  | .illegal _ => rbcIllegal s

/-- A write to `CAP_CMD` (R164 to R166): decoded and run. -/
def capCommand (v : Word) (s : State) : Host.Outcome State Fault Refusal :=
  match decodeCap v with
  | .instr i => exec i s
  | .illegal _ => capIllegal s

/-- The register client's host access of this cycle, if any (R22, R62). A read changes nothing. -/
def rbcAccess (a : Option HostAccess) (s : State) : Host.Outcome State Fault Refusal :=
  match a with
  | none => .next s
  | some (.read _) => .next s
  | some (.write off v) => if off.toNat = 0 then rbcCommand v s else .next (s.setRbc (s.rbc.writeReg off v))

/-- The capture engine's host access of this cycle, if any (R28, R62). -/
def capAccess (a : Option HostAccess) (s : State) : Host.Outcome State Fault Refusal :=
  match a with
  | none => .next s
  | some (.read _) => .next s
  | some (.write off v) => if off.toNat = 0 then capCommand v s else .next (s.setCap (s.cap.writeReg off v))

/-- The offset of an access is one the host interface can express (R61). -/
def accessOk (a : Option HostAccess) : Bool :=
  match a with
  | none => true
  | some (.read off) => offsetOk off
  | some (.write off _) => offsetOk off

/-- What a read returns, given the window as it stands before the edge (R63, R226). -/
def readBack (window : Word → Word) (a : Option HostAccess) : Option Word :=
  match a with
  | some (.read off) => some (window off)
  | _ => none

/-- The host's read of a frame-buffer byte: while the capture that writes it is `BUSY` it is a race, and returns the byte before
or after the engine's write (R72, R222, U12). -/
def fbByte (s : State) (a : Word) : Byte :=
  if s.cap.busy && decide (s.cap.baseS.toNat ≤ a.toNat) &&
      decide (a.toNat < s.cap.baseS.toNat + s.cap.wS.toNat * s.cap.hS.toNat) && !Config.fbRaceSeesNew s.edge
  then s.memOld.view a.toNat
  else s.mem.view a.toNat

/-! ## The host's lines -/

/-- The accesses of a line in one clock cycle; a poll is a read (R88). -/
def HostLine.now (l : HostLine) : HostCycle :=
  match l with
  | .cycle c => c
  | .poll .rbc off _ _ => { rbc := some (.read off) }
  | .poll .cap off _ _ => { cap := some (.read off) }

/-- What the outside presents in this cycle. -/
def State.now (s : State) : HostCycle :=
  match s.host with
  | [] => {}
  | l :: _ => l.now

/-- A window as the host reads it before the edge. -/
def State.window (s : State) (b : Block) (off : Word) : Word :=
  match b with
  | .rbc => s.rbc.readReg off
  | .cap => s.cap.readReg off

/-- The lines left after this cycle: a poll stays until its field equals the value polled for (R88). -/
def State.hostAfter (s : State) : List HostLine :=
  match s.host with
  | [] => []
  | .cycle _ :: rest => rest
  | .poll b off mask want :: rest => if s.window b off &&& mask = want then rest else s.host

end Sys2Proof.Machine
end

