-- ==== Sys2Proof/Machine/Clock.lean ====
section
/-! DEFINITION. One rising edge of `clk` (spec/10_state.md R40): reset before everything (spec/70_reset_and_hazards.md R250), then
the host accesses, then each engine that was running before the edge (spec/60_exceptions.md R226), then the synchronisers. -/

namespace Sys2Proof.Machine

/-- What the edge takes from the host's lines, and what the reads of the cycle return: values from before the edge (R63, R226). -/
def openEdge (c : HostCycle) (s : State) : State :=
  ((s.setHost s.hostAfter).setReads (readBack s.rbc.readReg c.rbc) (readBack s.cap.readReg c.cap)
    (c.fb.map (fbByte s))).setFb { s.fb with we := false }

/-- The synchronisers step, and the edge is counted (R161). -/
def closeEdge (s : State) : State :=
  (s.setCap (s.cap.shiftSync (videoLevel s))).nextEdge s.video.tail

/-- The register client after a reset edge (R41, R250). -/
def rbcAfterReset (n : Nat) : Rbc := { Rbc.reset with d0 := Config.resetD0 n, d1 := Config.resetD1 n }

/-- The capture engine after a reset edge (R41, R250). -/
def capAfterReset (n : Nat) : Cap :=
  { Cap.reset with sync1 := .ofBits (Config.resetSync1 n), sync2 := .ofBits (Config.resetSync2 n) }

/-- An edge with `rst` = 1 (R250 to R252): every element of both blocks takes its reset value, host writes are ignored and host
reads return reset values; what a capture has written stays. -/
def resetEdge (c : HostCycle) (s : State) : State :=
  ((((s.setHost s.hostAfter).setReads (readBack Rbc.reset.readReg c.rbc) (readBack Cap.reset.readReg c.cap)
    (c.fb.map (fbByte s))).setFb .reset).setRbc (rbcAfterReset s.edge)).setCap (capAfterReset s.edge) |>.nextEdge s.video.tail

/-- Run the register-client engine if it was running before the edge (R131, R226). -/
def runRbc (before : State) (s : State) : Host.Outcome State Fault Refusal :=
  if before.rbc.busy then rbcEdge s else .next s

/-- Run the capture engine if it was running before the edge (R162, R226). -/
def runCap (before : State) (s : State) : Host.Outcome State Fault Refusal :=
  if before.cap.busy then capEdge s else .next s

/-- Both host accesses of the cycle. -/
def hostEdge (c : HostCycle) (s : State) : Host.Outcome State Fault Refusal :=
  andThen (rbcAccess c.rbc s) (capAccess c.cap)

/-- What follows the host accesses at an edge: both engines, and the synchronisers. -/
def finishEdge (before : State) (s : State) : Host.Outcome State Fault Refusal :=
  andThen (runRbc before s) fun s1 => andThen (runCap before s1) fun s2 => .next (closeEdge s2)

/-- One clock edge with what the outside presents in the cycle. -/
def clockEdge (c : HostCycle) (s : State) : Host.Outcome State Fault Refusal :=
  if accessOk c.rbc && accessOk c.cap then
    if c.rst then .next (resetEdge c s)
    else andThen (hostEdge c (openEdge c s)) (finishEdge s)
  else .refused .hostOffset

/-- Put a host write of a command register before the host's other lines. -/
def withHostWrite (v : Word) (s : State) : State := s.setHost (.cycle { rbc := some (.write 0 v) } :: s.host)

/-- Put the engine where it is about to send an SLA byte, in a cycle in which the host does nothing. -/
def withSlaByte (b : Byte) (s : State) : State :=
  let t := s.setHost (.cycle {} :: s.host)
  match decodeSla b with
  | .instr .slaW => t.setRbc { s.rbc with phase := .run, script := some (.rd .slaW), sym := none }
  | .instr .slaR => t.setRbc { s.rbc with phase := .run, script := some (.rd .slaR), sym := none }
  | _ => t

end Sys2Proof.Machine
end

