-- ==== Sys2Proof/Machine/Step.lean ====
section
/-! DEFINITION. The step: one rising edge of `clk` with what the outside has queued for the cycle. -/

namespace Sys2Proof.Machine

/-- One clock edge (R19, R40). -/
def step (s : State) : Host.Outcome State Fault Refusal := clockEdge s.now s

/-- `s` with an instruction where the next step takes its next one from: a command word is the host's write to `RBC_CMD` of the
next cycle, an SLA byte the one the register-client engine sends next (assumption 8). -/
def State.withFetchWord (s : State) (nbits w : Nat) : State :=
  if nbits ≤ 8 then withSlaByte (BitVec.ofNat 8 w) s else withHostWrite (BitVec.ofNat 32 w) s

end Sys2Proof.Machine
end

