-- ==== Sys2Proof/Machine/Symbol.lean ====
section
/-! DEFINITION. The register client at symbol level (spec/40_bus_primitives.md R111): each primitive is one atom, and each command
is the pseudocode of spec/41_register_commands.md R137 to R140 over the slave's draws, nine of them for a byte. The engine of
RbcEngine.lean is another rendering of the same rules; obligations say that the two agree. -/

namespace Sys2Proof.Machine

/-- The draws of one byte: eight data cells and the ACK cell (R108, R109). -/
def drawsPerByte : Nat := 9

/-- `WriteByte` returns ACK: the level in the ninth cell is 0 (R108, R92). -/
def slaveAcks (ds : List Bool) : Bool := !(ds.getD 8 true)

/-- The byte `ReadByte` assembles from eight levels, most significant first (R109). -/
def slaveByte (ds : List Bool) : Byte := (ds.take 8).foldl (fun b l => (b <<< 1) ||| (BitVec.ofBool l).setWidth 8) 0

/-- The register client after the cells of a primitive, with the draws of its byte: the last level sampled, and the shift
register emptied by a write or filled by a read (R108, R109). -/
def Rbc.afterCells (r : Rbc) (p : Prim) (ds : List Bool) : Rbc :=
  match p with
  | .writeByte _ => { r with smp := ds.getD 8 true, sh := 0 }
  | .readByte => { r with smp := ds.getD 8 true, sh := slaveByte ds }
  | _ => r

/-- Draws a primitive takes: one for each bit cell (R104). -/
def Prim.draws (p : Prim) : Nat := if p.isByte then drawsPerByte else 0

/-- Quarter-steps of a sequence of primitives (R112). -/
def quartersOf (ps : List Prim) : Nat := (ps.map Prim.quarters).sum

/-- What a register read or write comes to: its result, its trace (R93), its quarter-steps (R112), and the draws left. -/
structure BusRun where
  /-- The byte read, or none where the read failed ("value is undefined when ok is false"). -/
  value : Option Byte
  ok : Bool
  trace : List BusSym
  quarters : Nat
  rest : List Bool
deriving DecidableEq, Repr

/-- `RegRead(a)` (R137). -/
def regRead (a : Byte) (ds : List Bool) : BusRun :=
  if !slaveAcks ds then
    ⟨none, false, [.s, .w 0x42 false, .p], quartersOf [.start, .writeByte 0x42, .stop], ds.drop 9⟩
  else if !slaveAcks (ds.drop 9) then
    ⟨none, false, [.s, .w 0x42 true, .w a false, .p], quartersOf [.start, .writeByte 0x42, .writeByte a, .stop], ds.drop 18⟩
  else if !slaveAcks (ds.drop 18) then
    ⟨none, false, [.s, .w 0x42 true, .w a true, .sr, .w 0x43 false, .p],
      quartersOf [.start, .writeByte 0x42, .writeByte a, .restart, .writeByte 0x43, .stop], ds.drop 27⟩
  else
    ⟨some (slaveByte (ds.drop 27)), true,
      [.s, .w 0x42 true, .w a true, .sr, .w 0x43 true, .r (slaveByte (ds.drop 27)), .p],
      quartersOf [.start, .writeByte 0x42, .writeByte a, .restart, .writeByte 0x43, .readByte, .stop], ds.drop 36⟩

/-- The register write of WR (R139). -/
def regWrite (a v : Byte) (ds : List Bool) : BusRun :=
  if !slaveAcks ds then
    ⟨none, false, [.s, .w 0x42 false, .p], quartersOf [.start, .writeByte 0x42, .stop], ds.drop 9⟩
  else if !slaveAcks (ds.drop 9) then
    ⟨none, false, [.s, .w 0x42 true, .w a false, .p], quartersOf [.start, .writeByte 0x42, .writeByte a, .stop], ds.drop 18⟩
  else
    ⟨none, slaveAcks (ds.drop 18), [.s, .w 0x42 true, .w a true, .w v (slaveAcks (ds.drop 18)), .p],
      quartersOf [.start, .writeByte 0x42, .writeByte a, .writeByte v, .stop], ds.drop 27⟩

/-- The two reads of PROBE (R140): the second is issued when the first succeeded or `PROBE_ALWAYS_BOTH`. -/
structure ProbeRun where
  pid : Option Byte
  ver : Option Byte
  trace : List BusSym
  quarters : Nat
  rest : List Bool
deriving DecidableEq, Repr

/-- `probeIdentity()` (R140). -/
def probeRun (always : Bool) (ds : List Bool) : ProbeRun :=
  let r1 := regRead Config.idHighAddr ds
  if r1.ok || always then
    let r2 := regRead Config.idLowAddr r1.rest
    ⟨r1.value, r2.value, r1.trace ++ r2.trace, r1.quarters + r2.quarters, r2.rest⟩
  else ⟨r1.value, none, r1.trace, r1.quarters, r1.rest⟩

/-- `ok` of PROBE: "the conjunction of both individual reads succeeding" (R140). -/
def ProbeRun.ok (r : ProbeRun) : Bool := r.pid.isSome && r.ver.isSome

/-- The identity verdict (R140). -/
def ProbeRun.present (r : ProbeRun) : Bool :=
  r.pid == some Config.expectedPid && r.ver == some Config.expectedVer

end Sys2Proof.Machine
end

