-- ==== Sys2Proof/Machine/Fixture.lean ====
section
/-! DEFINITION. Premises, not hardware: the fixtures of spec/95_test_vectors.md section 0, as the draws they make. No definition of
the machine uses them. -/

namespace Sys2Proof.Machine

/-- The levels a slave leaves while the master writes a byte: nothing in the data cells, then ACK or NACK (R92, R108). -/
def ackDraws (acked : Bool) : List Bool := List.replicate 8 true ++ [!acked]

/-- The levels a slave leaves while the master reads a byte, most significant bit first; the ACK cell is the master's (R109). -/
def byteDraws (b : Byte) : List Bool :=
  [b.getLsbD 7, b.getLsbD 6, b.getLsbD 5, b.getLsbD 4, b.getLsbD 3, b.getLsbD 2, b.getLsbD 1, b.getLsbD 0, true]

/-- Fixture M's registers: a register file that keeps what is written. -/
abbrev MockRegs := Byte → Byte

/-- Fixture M answering `RD` of address `a`. -/
def mockRdDraws (m : MockRegs) (a : Byte) : List Bool :=
  ackDraws true ++ ackDraws true ++ ackDraws true ++ byteDraws (m a)

/-- Fixture M answering `WR`. -/
def mockWrDraws : List Bool := ackDraws true ++ ackDraws true ++ ackDraws true

/-- Fixture M after `WR` of `v` to address `a`. -/
def mockWrite (m : MockRegs) (a v : Byte) : MockRegs := fun x => if x = a then v else m x

/-- Fixture M answering `PROBE`. -/
def mockProbeDraws (m : MockRegs) : List Bool := mockRdDraws m Config.idHighAddr ++ mockRdDraws m Config.idLowAddr

/-- M[ABSENT] answering any command: every level is 1. -/
def absentDraws (n : Nat) : List Bool := List.replicate n true

/-- One pixel: `pc` high with the byte, then `pc` low. -/
def pixelWave (b : Byte) : List Sample := [⟨false, true, true, b⟩, ⟨false, true, false, b⟩]

/-- One row: `hr` rises, the pixels, `hr` falls. -/
def rowWave (bs : List Byte) : List Sample := ⟨false, true, false, 0⟩ :: bs.flatMap pixelWave ++ [⟨false, false, false, 0⟩]

/-- A frame-sync pulse, then the rows: a video source that meets the premise of R223. -/
def frameWave (rows : List (List Byte)) : List Sample :=
  [⟨false, false, false, 0⟩, ⟨true, false, false, 0⟩, ⟨false, false, false, 0⟩] ++ rows.flatMap rowWave

/-- The samples the capture engine examines from here on: what the synchronisers hold, then what comes in (R161). -/
def State.pendingSamples (s : State) : List Sample := s.cap.sync2 :: s.cap.sync1 :: s.video

end Sys2Proof.Machine
end

