-- ==== Sys2Proof/Machine/HostProgram.lean ====
section
/-! DEFINITION. The host's side: register names, the lines of spec/30_encoding.md R88, the pseudo-instructions of R89, and their run
on the machine up to their last line. -/

namespace Sys2Proof.Machine

/-- The registers of R22 and R28. -/
inductive RegName where
  | rbcCmd
  | rbcStatus
  | rbcAddr
  | rbcWdata
  | rbcRdata
  | capCmd
  | capStatus
  | capBase
  | capWidth
  | capHeight
  | capPos
deriving DecidableEq, Repr

/-- The block a register belongs to. -/
def RegName.block : RegName → Block
  | .rbcCmd => .rbc
  | .rbcStatus => .rbc
  | .rbcAddr => .rbc
  | .rbcWdata => .rbc
  | .rbcRdata => .rbc
  | .capCmd => .cap
  | .capStatus => .cap
  | .capBase => .cap
  | .capWidth => .cap
  | .capHeight => .cap
  | .capPos => .cap

/-- `offset(REG)` (R22, R28, R88). -/
def RegName.offset : RegName → Word
  | .rbcCmd => 0x00
  | .rbcStatus => 0x04
  | .rbcAddr => 0x08
  | .rbcWdata => 0x0C
  | .rbcRdata => 0x10
  | .capCmd => 0x00
  | .capStatus => 0x04
  | .capBase => 0x08
  | .capWidth => 0x0C
  | .capHeight => 0x10
  | .capPos => 0x14

/-- The platform address of a register (R9, R22, R28, R231). -/
def RegName.platformAddr (p : Config.Params) (n : RegName) : Word :=
  match n.block with
  | .rbc => p.rbcBase + n.offset
  | .cap => p.capBase + n.offset

/-- One access of a block's window as a line of the host. -/
def accessLine (b : Block) (a : HostAccess) : HostLine :=
  match b with
  | .rbc => .cycle { rbc := some a }
  | .cap => .cycle { cap := some a }

/-- `write REG, imm` (R88). -/
def writeLine (n : RegName) (v : Word) : HostLine := accessLine n.block (.write n.offset v)

/-- `read REG -> t` (R88); the value appears in `readRbc` or `readCap`. -/
def readLine (n : RegName) : HostLine := accessLine n.block (.read n.offset)

/-- `poll REG.BUSY == 0` (R88): bit 0 of a status register. -/
def pollIdle (n : RegName) : HostLine := .poll n.block n.offset 1 0

/-- The pseudo-instructions of R89. -/
inductive Pseudo where
  | nopRbc
  | rd (a : Byte)
  | wr (a v : Byte)
  | probe
  | waitRbc
  | rdSync (a : Byte)
  | wrSync (a v : Byte)
  | probeSync
  | nopCap
  | capture (base : Word) (w h : Dim)
  | waitCap
deriving DecidableEq, Repr

/-- The simple expansions of R89. -/
def rdLines (a : Byte) : List HostLine := [writeLine .rbcAddr (a.setWidth 32), writeLine .rbcCmd 0x1]

/-- `wr a, v` (R89). -/
def wrLines (a v : Byte) : List HostLine :=
  [writeLine .rbcAddr (a.setWidth 32), writeLine .rbcWdata (v.setWidth 32), writeLine .rbcCmd 0x2]

/-- The exact expansions of R89. -/
def Pseudo.expand : Pseudo → List HostLine
  | .nopRbc => [writeLine .rbcCmd 0x0]
  | .rd a => rdLines a
  | .wr a v => wrLines a v
  | .probe => [writeLine .rbcCmd 0x3]
  | .waitRbc => [pollIdle .rbcStatus]
  | .rdSync a => rdLines a ++ [pollIdle .rbcStatus, readLine .rbcStatus, readLine .rbcRdata]
  | .wrSync a v => wrLines a v ++ [pollIdle .rbcStatus, readLine .rbcStatus]
  | .probeSync => [writeLine .rbcCmd 0x3, pollIdle .rbcStatus, readLine .rbcStatus, readLine .rbcRdata]
  | .nopCap => [writeLine .capCmd 0x0]
  | .capture base w h =>
    [writeLine .capBase base, writeLine .capWidth (w.setWidth 32), writeLine .capHeight (h.setWidth 32),
      writeLine .capCmd 0x1]
  | .waitCap => [pollIdle .capStatus]

/-- `(ok, v)` of `rd.sync`: `ok = s[2]`, `v = r[7:0]` (R89). -/
def rdSyncResult (s r : Word) : Bool × Byte := (s.getLsbD 2, field r 0 8)

/-- `ok` of `wr.sync` (R89). -/
def wrSyncResult (s : Word) : Bool := s.getLsbD 2

/-- `(ok, present, pid, ver)` of `probe.sync` (R89). -/
def probeSyncResult (s r : Word) : Bool × Bool × Byte × Byte :=
  (s.getLsbD 2, s.getLsbD 3, field r 0 8, field r 8 8)

/-! ## Running a client's lines on the machine -/

/-- What a `read REG -> t` line returned, `t` being the state after its edge; a poll keeps no value (R88). -/
def HostLine.returned (l : HostLine) (t : State) : List Word :=
  match l with
  | .cycle _ => t.readRbc.toList ++ t.readCap.toList
  | .poll _ _ _ _ => []

/-- Run the machine until the host has no line left, or for `n` edges: what its `read` lines returned, in order, and the state
then. None if a line is still left ("may never end", R88) or the machine stops. -/
def runHost : Nat → State → Option (List Word × State)
  | 0, s => if s.host.isEmpty then some ([], s) else none
  | n + 1, s =>
    match s.host with
    | [] => some ([], s)
    | l :: _ =>
      match step s with
      | .next t => (runHost n t).map fun r => (l.returned t ++ r.1, r.2)
      | .fault _ => none
      | .refused _ => none

/-- Run a client's lines on the machine: the host does them and nothing else (R89). -/
def runLines (n : Nat) (ls : List HostLine) (s : State) : Option (List Word × State) := runHost n (s.setHost ls)

end Sys2Proof.Machine
end

