-- ==== Sys2Proof/Machine/Client.lean ====
section
/-! DEFINITION. Client software over the commands (spec/49_client_procedures.md R190 to R202): the Format Controller and the capture
wrapper. "Every rule of this file constrains a host program, not the hardware": the machine uses nothing of it. A client is written
over the blocking functions of R89, whatever answers them; `machinePort` is the machine answering them. -/

namespace Sys2Proof.Machine

/-- The blocking functions of R89 over some world `σ`: `rd.sync a -> (ok, v)` and `wr.sync a, v -> ok`. A call answers none where it
does not return. -/
structure SyncPort (σ : Type) where
  rd : σ → Byte → Option (Bool × Byte × σ)
  wr : σ → Byte → Byte → Option (Bool × σ)

/-- With a blocking capture: `capture base, w, h` and then `wait.cap` (R89, R202). -/
structure BlockPort (σ : Type) extends SyncPort σ where
  capture : σ → Word → Dim → Dim → Option σ

/-- The leg that failed (R190, R196). -/
inductive Leg where
  | read
  | write
deriving DecidableEq, Repr

/-- `DONE | FAIL(a, READ | WRITE)` (R190, R196). -/
inductive ClientResult where
  | done
  | fail (a : Byte) (leg : Leg)
deriving DecidableEq, Repr

/-- `rmw(a, f) -> result` (R190): `f` is any function from 8 bits to 8 bits. -/
def rmw {σ : Type} (io : SyncPort σ) (a : Byte) (f : Byte → Byte) (w : σ) : Option (ClientResult × σ) :=
  match io.rd w a with
  | none => none
  | some (false, _, w1) => some (.fail a .read, w1)
  | some (true, v, w1) =>
    match io.wr w1 a (f v) with
    | none => none
    | some (false, w2) => some (.fail a .write, w2)
    | some (true, w2) => some (.done, w2)

/-- One step of a format procedure: the arguments of its `rmw` (R193 to R195). -/
structure RmwStep where
  addr : Byte
  f : Byte → Byte

/-- Steps in order, stopping at the first that fails: no rollback, no retry (R196). -/
def runSteps {σ : Type} (io : SyncPort σ) (steps : List RmwStep) (w : σ) : Option (ClientResult × σ) :=
  match steps with
  | [] => some (.done, w)
  | r :: rest =>
    match rmw io r.addr r.f w with
    | none => none
    | some (.done, w1) => runSteps io rest w1
    | some (.fail a leg, w1) => some (.fail a leg, w1)

/-- The closed variant set of R192. -/
inductive OutputFormat where
  | yuvInterleaved
  | rgb565
  | rawBayer
deriving DecidableEq, Repr

/-- What a caller asks for: a format of the closed set, or a request that names none of them (R192). -/
inductive FormatRequest where
  | format (f : OutputFormat)
  /-- "an unrecognized/default request" (R192). -/
  | unrecognized
deriving DecidableEq, Repr

/-- "an unrecognized/default request resolves to YUV_Interleaved" (R192). -/
def FormatRequest.resolve : FormatRequest → OutputFormat
  | .format f => f
  | .unrecognized => .yuvInterleaved

/-- The sequences of R193, R194 and R195. -/
def OutputFormat.steps (p : Config.Params) : OutputFormat → List RmwStep
  | .yuvInterleaved =>
    [⟨Config.com7Addr, fun v => v &&& 0xFA⟩, ⟨Config.tslbAddr, fun v => v &&& 0xF7⟩,
      ⟨Config.com13Addr, fun v => v &&& 0xFE⟩]
  | .rgb565 =>
    [⟨Config.com7Addr, fun v => (v ||| 0x04) &&& 0xFE⟩, ⟨Config.secondaryAddr, fun v => (v ||| 0x10) &&& 0xDF⟩,
      ⟨Config.rgb444Addr, fun v => v &&& ~~~p.rgb444Mask⟩]
  | .rawBayer => [⟨Config.com7Addr, fun v => (v ||| 0x01) &&& 0xFB⟩]

/-- `applyFormat` (R192, R196): the request is resolved, and its procedure run. -/
def applyFormat {σ : Type} (p : Config.Params) (io : SyncPort σ) (q : FormatRequest) (w : σ) : Option (ClientResult × σ) :=
  runSteps io (q.resolve.steps p) w

/-- The orderings of R198. -/
inductive YuvOrder where
  | yuyv
  | yvyu
  | uyvy
  | vyuy
deriving DecidableEq, Repr

/-- The details of R199. -/
inductive RgbDetail where
  | rgb565
  | rgb555
  | plain
deriving DecidableEq, Repr

/-- The categories of R197, with their detail. -/
inductive Category where
  | yuv (o : YuvOrder)
  | rgb (d : RgbDetail)
  | rawBayer
  | processedRawBayer
deriving DecidableEq, Repr

/-- `FormatDescription` (R197 to R199). -/
structure FormatDescription where
  category : Category
  /-- `COM7[3]`: QVGA, else "VGA/other". -/
  qvga : Bool
  /-- `COM7[6]`. -/
  ccir656 : Bool
deriving DecidableEq, Repr

/-- The table of R198. Rows other than (0, 0) are the spec's derivation (U15). -/
def yuvOrder (tslb com13 : Byte) : YuvOrder :=
  match tslb.getLsbD 3, com13.getLsbD 0 with
  | false, false => .yuyv
  | false, true => .yvyu
  | true, false => .uyvy
  | true, true => .vyuy

/-- `secondary[5:4]` (R199). -/
def rgbDetail (sec : Byte) : RgbDetail :=
  match (sec.extractLsb' 4 2).toNat with
  | 1 => .rgb565
  | 3 => .rgb555
  | _ => .plain

/-- The category of the code `{COM7[2], COM7[0]}` (R197); the YUV row asks for the two ordering registers. -/
def categoryOf (com7 sec : Byte) (order : YuvOrder) : Category :=
  match com7.getLsbD 2, com7.getLsbD 0 with
  | false, false => .yuv order
  | true, false => .rgb (rgbDetail sec)
  | false, true => .rawBayer
  | true, true => .processedRawBayer

/-- The code is YUV's (R197, R198). -/
def isYuv (com7 : Byte) : Bool := !com7.getLsbD 2 && !com7.getLsbD 0

/-- The description of a set of register values (R197 to R199). -/
def describeValues (com7 sec : Byte) (order : YuvOrder) : FormatDescription :=
  ⟨categoryOf com7 sec order, com7.getLsbD 3, com7.getLsbD 6⟩

/-- What a description comes to: the description, or the register that could not be read (R200). -/
inductive Described where
  | format (d : FormatDescription)
  | fail (a : Byte)
deriving DecidableEq, Repr

/-- The reads of R198, for the YUV category only. -/
def describeOrder {σ : Type} (io : SyncPort σ) (com7 sec : Byte) (w : σ) : Option (Described × σ) :=
  match io.rd w Config.tslbAddr with
  | none => none
  | some (false, _, w1) => some (.fail Config.tslbAddr, w1)
  | some (true, tslb, w1) =>
    match io.rd w1 Config.com13Addr with
    | none => none
    | some (false, _, w2) => some (.fail Config.com13Addr, w2)
    | some (true, com13, w2) => some (.format (describeValues com7 sec (yuvOrder tslb com13)), w2)

/-- `describeCurrentFormat` (R197 to R200). It issues no WR. -/
def describeCurrentFormat {σ : Type} (io : SyncPort σ) (w : σ) : Option (Described × σ) :=
  match io.rd w Config.com7Addr with
  | none => none
  | some (false, _, w1) => some (.fail Config.com7Addr, w1)
  | some (true, com7, w1) =>
    match io.rd w1 Config.secondaryAddr with
    | none => none
    | some (false, _, w2) => some (.fail Config.secondaryAddr, w2)
    | some (true, sec, w2) =>
      if isYuv com7 then describeOrder io com7 sec w2
      else some (.format (describeValues com7 sec .yuyv), w2)

/-- Sensor presence as a client reads it (R201): `PRESENT` after `probe.sync`. -/
def sensorPresent (status : Word) : Bool := status.getLsbD 3

/-- `captureFrame(format, buffer, width, height)` (R202): `applyFormat`, and then, in the world it left and whatever it returned, one
blocking capture. The answer keeps the result `applyFormat` logs. -/
def captureFrame {σ : Type} (p : Config.Params) (io : BlockPort σ) (q : FormatRequest) (base : Word) (w h : Dim) (x : σ) :
    Option (ClientResult × σ) :=
  match applyFormat p io.toSyncPort q x with
  | none => none
  | some (logged, x1) => (io.capture x1 base w h).map fun x2 => (logged, x2)

/-! ## The machine as the world -/

/-- `rd.sync a` on the machine (R89), each call watched for `n` edges. -/
def machineRd (n : Nat) (s : State) (a : Byte) : Option (Bool × Byte × State) :=
  match runLines n (Pseudo.rdSync a).expand s with
  | some ([st, r], t) => some ((rdSyncResult st r).1, (rdSyncResult st r).2, t)
  | _ => none

/-- `wr.sync a, v` on the machine (R89). -/
def machineWr (n : Nat) (s : State) (a v : Byte) : Option (Bool × State) :=
  match runLines n (Pseudo.wrSync a v).expand s with
  | some ([st], t) => some (wrSyncResult st, t)
  | _ => none

/-- `capture base, w, h` and `wait.cap` on the machine (R89, R202). -/
def machineCapture (n : Nat) (s : State) (base : Word) (w h : Dim) : Option State :=
  (runLines n ((Pseudo.capture base w h).expand ++ Pseudo.waitCap.expand) s).map Prod.snd

/-- The machine answering a client: every call is the lines R89 expands it to, run on the machine. A call that takes more than `n`
edges is one that has not returned; `wait.cap` may never (R175). -/
def machinePort (n : Nat) : BlockPort State where
  rd := machineRd n
  wr := machineWr n
  capture := machineCapture n

/-! ## Fixtures as the world -/

/-- Fixture M as a port: every access is acknowledged, a register reads as it was last written. -/
def mockPort : SyncPort MockRegs where
  rd m a := some (true, m a, m)
  wr m a v := some (true, mockWrite m a v)

/-- Fixture M[VAL f]: a write of register `f` is not acknowledged and not taken. -/
def mockPortVal (f : Byte) : SyncPort MockRegs where
  rd m a := some (true, m a, m)
  wr m a v := if a = f then some (false, m) else some (true, mockWrite m a v)

end Sys2Proof.Machine
end

