-- ==== Sys2Proof/Machine/Outcomes.lean ====
section
/-! DEFINITION. The outcomes of spec/60_exceptions.md R220 over the whole machine: six that a status pattern shows, and HANG, which
only an execution shows (R223). No definition of the machine uses them. -/

namespace Sys2Proof.Machine

/-- HANG (R220, R223): "an execution in which the capture engine stays in one wait phase for every later sample", `BUSY` = 1 and
`PHASE` being that phase throughout. -/
def State.captureHangs (s : State) : Prop :=
  s.cap.busy = true ∧ ∀ n, ∃ t, Sys2Proof.core.run n s = .next t ∧ t.cap.phase = s.cap.phase

/-- The machine shows an outcome: in the status pattern of the block R220 names for it, or, for HANG, in its execution. -/
def State.shows (s : State) : OutcomeCode → Prop
  | .success => .success ∈ s.rbc.outcomes
  | .busFail => .busFail ∈ s.rbc.outcomes
  | .idMismatch => .idMismatch ∈ s.rbc.outcomes
  | .illegalCmd => .illegalCmd ∈ s.rbc.outcomes ∨ .illegalCmd ∈ s.cap.outcomes
  | .overrun => .overrun ∈ s.rbc.outcomes ∨ .overrun ∈ s.cap.outcomes
  | .capDone => .capDone ∈ s.cap.outcomes
  | .hang => s.captureHangs

end Sys2Proof.Machine
end

