-- ==== Sys2Proof/Safety.lean ====
section
/-! DEFINITION. What the claims are stated in: the machine's invariant, and the duties of a host. -/

namespace Sys2Proof.Machine

/-! ## The invariant -/

/-- The `OP` a script belongs to (R83, R132). -/
def Script.op : Script → BitVec 4
  | .rd _ => 0x1
  | .wr _ => 0x2
  | .idHigh _ => 0x3
  | .idLow _ => 0x3

/-- The position a command begins at (R138 to R140). -/
def Script.isFirst : Script → Bool
  | .rd .start => true
  | .wr .start => true
  | .idHigh .start => true
  | _ => false

/-- The engine in the middle of primitive `p` at position `pos`: the primitive is the script's, the counters are in range, and
the outputs are what the quarter-step drives (R36, R101, R104 to R109). That `rbc.bitc` is 0 in a condition is the model's choice
(assumption 10). -/
def Rbc.inPrim (tq1 : Nat) (r : Rbc) (pos : Script) (p : Prim) : Bool :=
  p == primAt r pos && decide (r.tick ≤ tq1) && decide (r.q ≤ p.lastQ) && (p.isByte || r.bitc == 0) &&
    (r.scl, r.sda) == driveOf p r.bitc r.q r.sh

/-- The register client's invariant (R24, R35, R36, R102): an idle engine has no script and no primitive (the model's choice after a
command, assumption 10) and has released the bus, and its flags agree; a running one has a script of its `OP`, no result yet, and drives what the script says. -/
def Rbc.good (tq1 : Nat) (r : Rbc) : Bool :=
  match r.phase with
  | .idle =>
    r.script.isNone && r.sym.isNone && r.scl && r.sda && (!r.ok || r.done) && (!r.illegal || (r.done && !r.ok))
  | .run =>
    !r.done && !r.ok && !r.illegal &&
      match r.script with
      | none => false
      | some pos =>
        pos.op == r.opS &&
          match r.sym with
          | none => pos.isFirst && r.scl && r.sda
          | some p => r.inPrim tq1 pos p

/-- The buffer of the accepted CAPTURE lies inside the frame-buffer space (R165, R177). -/
def Cap.bufferFits (c : Cap) : Bool :=
  decide (c.wS.toNat * c.hS.toNat = 0 ∨ c.baseS.toNat + c.wS.toNat * c.hS.toNat ≤ Config.fbBytes)

/-- Where `cap.row` and `cap.col` may stand in each phase (R37, R163, R172, R177). -/
def Cap.posGood (c : Cap) : Bool :=
  match c.phase with
  | .idle => c.row == c.hS && c.col == 0
  | .vsDrain => c.row == 0 && c.col == 0
  | .vsWaitHigh => c.row == 0 && c.col == 0
  | .vsWaitFall => c.row == 0 && c.col == 0
  | .rowWaitStart => decide (c.row.toNat < c.hS.toNat) && c.col == 0
  | .pixWaitHigh => decide (c.row.toNat < c.hS.toNat) && decide (c.col.toNat < c.wS.toNat)
  | .pixWaitLow => decide (c.row.toNat < c.hS.toNat) && decide (c.col.toNat < c.wS.toNat)
  | .rowWaitEnd => decide (c.row.toNat < c.hS.toNat) && c.col == c.wS

/-- The capture engine's invariant (R30, R35, R37, R177). -/
def Cap.good (c : Cap) : Bool := c.posGood && (!c.busy || (c.bufferFits && !c.done && !c.illegal))

/-- Every byte a capture wrote is in the frame-buffer space (R65). -/
def Memory.inSpace (m : Memory) : Bool := m.all fun c => decide (c.1 < Config.fbBytes)

/-! ## The progress of a capture -/

/-- The bytes the accepted CAPTURE has written so far (R173). -/
def Cap.written (c : Cap) : Nat :=
  match c.phase with
  | .idle => c.row.toNat * c.wS.toNat
  | .vsDrain => 0
  | .vsWaitHigh => 0
  | .vsWaitFall => 0
  | .rowWaitStart => c.row.toNat * c.wS.toNat
  | .pixWaitHigh => c.row.toNat * c.wS.toNat + c.col.toNat
  | .pixWaitLow => c.row.toNat * c.wS.toNat + c.col.toNat + 1
  | .rowWaitEnd => c.row.toNat * c.wS.toNat + c.wS.toNat

/-- What `memOld` is for (assumption 7): while a capture runs, it is the frame buffer as it was at the acceptance, that is, it agrees
with the frame buffer outside the bytes the capture has written so far. -/
def State.oldAgrees (s : State) : Prop :=
  s.cap.busy = true →
    ∀ a, a < s.cap.baseS.toNat ∨ s.cap.baseS.toNat + s.cap.written ≤ a → s.memOld.get a = s.mem.get a

/-- The invariant of the machine. -/
structure State.Inv (s : State) : Prop where
  rbc : s.rbc.good s.params.tqMinus1 = true
  cap : s.cap.good = true
  memWf : s.mem.wf = true
  memSpace : s.mem.inSpace = true
  oldWf : s.memOld.wf = true
  old : s.oldAgrees
  /-- A byte on the port is in the memory (R66). -/
  port : s.fb.we = true → s.mem.get s.fb.addr.toNat = some s.fb.data

/-! ## The waits of a capture -/

/-- The sample that lets the engine leave a phase (R163, R175). -/
def CapPhase.exits (p : CapPhase) (x : Sample) : Bool :=
  match p with
  | .idle => false
  | .vsDrain => !x.vs
  | .vsWaitHigh => x.vs
  | .vsWaitFall => !x.vs
  | .rowWaitStart => x.hr
  | .pixWaitHigh => x.pc
  | .pixWaitLow => !x.pc
  | .rowWaitEnd => !x.hr

/-! ## The host's duties -/

/-- The cycle holds no reset and no access the interface cannot express (R61). -/
def HostCycle.ordinary (c : HostCycle) : Bool := !c.rst && accessOk c.rbc && accessOk c.cap

/-- Every line to come is ordinary: the host may do anything but reset the blocks. -/
def State.hostOrdinary (s : State) : Bool := s.host.all fun l => l.now.ordinary

/-- A write of a command register. -/
def isCommand (a : Option HostAccess) : Bool :=
  match a with
  | some (.write off _) => off.toNat == 0
  | _ => false

end Sys2Proof.Machine
end

