-- ==== Sys2Proof/Certificates/Slice0/Obligations.lean ====
section
/-! DEFINITION. The statements for the provers. -/

open Sys2Proof Sys2Proof.Machine

/-! ## Encodings -/

/-- Words and bytes written out from the maps of R83, R84 and R90, and the illegal words of spec/95_test_vectors.md section 2. -/
def Obligations.WordsOfTheMapsDecode : Prop :=
  decodeRbc 0x00000000 = .instr .nop ∧ decodeRbc 0x00000001 = .instr .rd ∧ decodeRbc 0x00000002 = .instr .wr ∧
    decodeRbc 0x00000003 = .instr .probe ∧ decodeCap 0x00000000 = .instr .cnop ∧
    decodeCap 0x00000001 = .instr .capture ∧ decodeSla 0x42 = .instr .slaW ∧ decodeSla 0x43 = .instr .slaR ∧
    decodeRbc 0x00000004 = .illegal .unassignedOp ∧ decodeCap 0x00000002 = .illegal .unassignedOp ∧
    decodeRbc 0x80000001 = .illegal .reservedBits ∧ decodeCap 0x00000011 = .illegal .reservedBits ∧
    decodeSla 0x44 = .illegal .foreignAddress

/-- Decoding an encoded instruction gives it back, and the encoding is well formed (R83, R84, R90). -/
def Obligations.DecodeOfEncodeIsTheInstruction : Prop :=
  ∀ i : Instr, i.wf = true ∧ (encode i).wf = true ∧ (encode i).fmt = i.format ∧ decode (encode i) = .instr i

/-- "every bit is significant" (R96): bits in their place stand for an instruction only if they are its encoding, so no two
instructions share an encoding, and every other pattern of 32 bits is refused; and decoding refuses exactly the ill-formed
codes (R85, R94). -/
def Obligations.OnlyTheEncodingDecodesToAnInstruction : Prop :=
  (∀ (c : Code) (i : Instr), decode c = .instr i ↔ c = encode i) ∧
    ∀ c : Code, (∃ e, decode c = .illegal e) ↔ c.wf = false

/-! ## What a command write does at its edge -/

/-- R136: NOP, the word 0, changes nothing while idle, and only sets `OVR` while busy. -/
def Obligations.NopChangesNothing : Prop :=
  ∀ s : State, rbcCommand 0x00000000 s = exec .nop s ∧ (s.rbc.phase = .idle → exec .nop s = .next s) ∧
    (s.rbc.phase = .run → exec .nop s = .next { s with rbc := { s.rbc with ovr := true } })

/-- R166, its first point: CNOP changes nothing while idle. -/
def Obligations.CnopChangesNothingWhileIdle : Prop :=
  ∀ s : State, s.cap.phase = .idle → exec .cnop s = .next s ∧ capCommand 0x00000000 s = .next s

/-- R131, R132: an RD written while idle is accepted. -/
def Obligations.RdIsAcceptedWhileIdle : Prop :=
  ∀ s : State, s.rbc.phase = .idle →
    exec .rd s = .next { s with rbc := { s.rbc with
      opS := 0x1, addrS := s.rbc.addr, wdataS := s.rbc.wdata, phase := .run, done := false, ok := false,
      illegal := false, script := some (.rd .start), sym := none } }

/-- R131, R132: a WR written while idle is accepted. -/
def Obligations.WrIsAcceptedWhileIdle : Prop :=
  ∀ s : State, s.rbc.phase = .idle →
    exec .wr s = .next { s with rbc := { s.rbc with
      opS := 0x2, addrS := s.rbc.addr, wdataS := s.rbc.wdata, phase := .run, done := false, ok := false,
      illegal := false, script := some (.wr .start), sym := none } }

/-- R131, R132: a PROBE written while idle is accepted, and clears `PRESENT`. -/
def Obligations.ProbeIsAcceptedWhileIdle : Prop :=
  ∀ s : State, s.rbc.phase = .idle →
    exec .probe s = .next { s with rbc := { s.rbc with
      opS := 0x3, addrS := s.rbc.addr, wdataS := s.rbc.wdata, phase := .run, done := false, ok := false,
      illegal := false, present := false, script := some (.idHigh .start), sym := none } }

/-- R164 with R165: a CAPTURE written while idle, whose buffer is empty or ends at or below 2^32, is accepted. `memOld` is the
model's own record of the frame buffer at acceptance (assumption 7). -/
def Obligations.CaptureIsAcceptedWhileIdle : Prop :=
  ∀ s : State, s.cap.phase = .idle →
    (s.cap.width.toNat * s.cap.height.toNat = 0 ∨
      s.cap.base.toNat + s.cap.width.toNat * s.cap.height.toNat ≤ 2 ^ 32) →
    exec .capture s = .next { s with
      memOld := s.mem
      cap := { s.cap with
        baseS := s.cap.base, wS := s.cap.width, hS := s.cap.height, row := 0, col := 0, done := false,
        illegal := false, phase := .vsDrain } }

/-- R165: a word written to `CAP_CMD` while idle is refused when it is illegal, or is CAPTURE and the buffer would pass 2^32: it sets
`ILLEGAL` and `DONE` and starts nothing. A buffer that ends at 0xFFFFFFFF is legal, one row more is not. -/
def Obligations.RefusedCaptureCommandsAreFlagged : Prop :=
  (∀ (s : State) (v : Word), s.cap.phase = .idle →
      (⟨.ccmd, v⟩ : Code).wf = false ∨
        (decodeCap v = .instr .capture ∧ 0 < s.cap.width.toNat * s.cap.height.toNat ∧
          2 ^ 32 < s.cap.base.toNat + s.cap.width.toNat * s.cap.height.toNat) →
      capCommand v s = .next { s with cap := { s.cap with illegal := true, done := true } }) ∧
    (∀ s : State, s.cap.phase = .idle → s.cap.base = 0xFFFFFFFC → s.cap.width = 4 →
      (s.cap.height = 1 → ∃ t, capCommand 0x00000001 s = .next t ∧ t.cap.phase = .vsDrain) ∧
        (s.cap.height = 2 →
          capCommand 0x00000001 s = .next { s with cap := { s.cap with illegal := true, done := true } }))

/-- R133 and R166: any word written to a command register while its block is busy is ignored and sets `OVR`, whatever it decodes
to; so are the instructions themselves. -/
def Obligations.CommandWhileBusyOnlySetsOvr : Prop :=
  (∀ (s : State) (v : Word), s.rbc.phase = .run →
      rbcCommand v s = .next { s with rbc := { s.rbc with ovr := true } } ∧
        ∀ i ∈ [Instr.nop, .rd, .wr, .probe], exec i s = .next { s with rbc := { s.rbc with ovr := true } }) ∧
    ∀ (s : State) (v : Word), s.cap.phase ≠ .idle →
      capCommand v s = .next { s with cap := { s.cap with ovr := true } } ∧
        ∀ i ∈ [Instr.cnop, .capture], exec i s = .next { s with cap := { s.cap with ovr := true } }

/-- R134: an illegal word written to `RBC_CMD` while idle starts nothing and completes at once, with `ILLEGAL` and `DONE` set and `OK`
clear; 0x00000014 leaves `RBC_STATUS` = 0x00000012 where `OVR` and `PRESENT` were 0. -/
def Obligations.IllegalRegisterCommandIsFlagged : Prop :=
  (∀ (s : State) (v : Word), s.rbc.phase = .idle → (⟨.rcmd, v⟩ : Code).wf = false →
      rbcCommand v s = .next { s with rbc := { s.rbc with illegal := true, done := true, ok := false } }) ∧
    ∀ s : State, s.rbc.phase = .idle → s.rbc.ovr = false → s.rbc.present = false →
      ∃ t, rbcCommand 0x00000014 s = .next t ∧ t.rbc.status = 0x00000012

/-- R90 with R108: a running engine that sends an SLA byte loads the shift register with 0x42 (SLA+W) or 0x43 (SLA+R) and drives
the first quarter-step of its most significant bit, which is 0. -/
def Obligations.SlaBytesAreSent : Prop :=
  ∀ s : State, s.rbc.phase = .run →
    (exec .slaW s = .next { s with rbc := { s.rbc with
        sym := some (.writeByte 0x42), sh := 0x42, bitc := 0, q := 0, tick := 0, scl := false, sda := false } }) ∧
      exec .slaR s = .next { s with rbc := { s.rbc with
        sym := some (.writeByte 0x43), sh := 0x43, bitc := 0, q := 0, tick := 0, scl := false, sda := false } }

/-- R144: "the master emits no bus activity while IDLE": an SLA byte is not sent there (what `exec` does then is the model's
choice, assumption 8). -/
def Obligations.IdleMasterSendsNoSlaByte : Prop :=
  ∀ s : State, s.rbc.phase = .idle → exec .slaW s = .next s ∧ exec .slaR s = .next s

/-! ## Frames -/

/-- What the command words of the register client leave alone: the other block, the frame buffer and its port, the lines, the
operand and result registers and the bytes read; `PRESENT` but for PROBE; `OVR` is only ever set. -/
def Obligations.RegisterCommandFrame : Prop :=
  ∀ i ∈ [Instr.nop, .rd, .wr, .probe], ∀ s t : State, exec i s = .next t →
    t.cap = s.cap ∧ t.fb = s.fb ∧ (∀ a, t.mem.get a = s.mem.get a) ∧ t.memOld = s.memOld ∧ t.params = s.params ∧
      t.slave = s.slave ∧ t.video = s.video ∧ t.host = s.host ∧ t.trace = s.trace ∧ t.edge = s.edge ∧
      t.readRbc = s.readRbc ∧ t.readCap = s.readCap ∧ t.readFb = s.readFb ∧
      t.rbc.addr = s.rbc.addr ∧ t.rbc.wdata = s.rbc.wdata ∧ t.rbc.data0 = s.rbc.data0 ∧ t.rbc.data1 = s.rbc.data1 ∧
      t.rbc.d0 = s.rbc.d0 ∧ t.rbc.d1 = s.rbc.d1 ∧ t.rbc.ok1 = s.rbc.ok1 ∧ t.rbc.ok2 = s.rbc.ok2 ∧
      t.rbc.scl = s.rbc.scl ∧ t.rbc.sda = s.rbc.sda ∧ t.rbc.sh = s.rbc.sh ∧ t.rbc.smp = s.rbc.smp ∧
      t.rbc.bitc = s.rbc.bitc ∧ t.rbc.q = s.rbc.q ∧ t.rbc.tick = s.rbc.tick ∧
      (i ≠ .probe → t.rbc.present = s.rbc.present) ∧ (s.rbc.ovr = true → t.rbc.ovr = true) ∧
      (s.rbc.phase = .idle → t.rbc.ovr = s.rbc.ovr)

/-- What sending an SLA byte leaves alone: everything but the engine's primitive, its counters, the shift register and the two
outputs. -/
def Obligations.SlaByteFrame : Prop :=
  ∀ i ∈ [Instr.slaW, .slaR], ∀ s t : State, exec i s = .next t →
    t.cap = s.cap ∧ t.fb = s.fb ∧ (∀ a, t.mem.get a = s.mem.get a) ∧ t.memOld = s.memOld ∧ t.params = s.params ∧
      t.slave = s.slave ∧ t.video = s.video ∧ t.host = s.host ∧ t.trace = s.trace ∧ t.edge = s.edge ∧
      t.readRbc = s.readRbc ∧ t.readCap = s.readCap ∧ t.readFb = s.readFb ∧
      t.rbc = { s.rbc with
        sym := t.rbc.sym, bitc := t.rbc.bitc, q := t.rbc.q, tick := t.rbc.tick, sh := t.rbc.sh, scl := t.rbc.scl,
        sda := t.rbc.sda }

/-- What the command words of the capture engine leave alone: the other block, every byte of the frame buffer and its port, the
operand registers, the synchronisers. -/
def Obligations.CaptureCommandFrame : Prop :=
  ∀ i ∈ [Instr.cnop, .capture], ∀ s t : State, exec i s = .next t →
    t.rbc = s.rbc ∧ t.fb = s.fb ∧ (∀ a, t.mem.get a = s.mem.get a) ∧ t.params = s.params ∧
      t.slave = s.slave ∧ t.video = s.video ∧ t.host = s.host ∧ t.trace = s.trace ∧ t.edge = s.edge ∧
      t.readRbc = s.readRbc ∧ t.readCap = s.readCap ∧ t.readFb = s.readFb ∧
      t.cap.base = s.cap.base ∧ t.cap.width = s.cap.width ∧ t.cap.height = s.cap.height ∧
      t.cap.sync1 = s.cap.sync1 ∧ t.cap.sync2 = s.cap.sync2 ∧ (s.cap.ovr = true → t.cap.ovr = true) ∧
      (s.cap.phase = .idle → t.cap.ovr = s.cap.ovr) ∧
      (i = .cnop ∨ s.cap.phase ≠ .idle → t.cap = { s.cap with ovr := t.cap.ovr } ∧ t.memOld = s.memOld)

/-! ## The step -/

/-- A step whose host cycle writes a word to a command register runs the instruction the word decodes to, on the state with the
cycle taken from the host's lines, and then finishes the edge: the engines that were running, and the synchronisers. -/
def Obligations.StepRunsTheWrittenCommand : Prop :=
  (∀ (s : State) (v : Word) (i : Instr) (rest : List HostLine),
      s.host = .cycle { rbc := some (.write 0 v) } :: rest → decodeRbc v = .instr i →
      step s = andThen (exec i (openEdge s.now s)) (finishEdge s)) ∧
    ∀ (s : State) (v : Word) (i : Instr) (rest : List HostLine),
      s.host = .cycle { cap := some (.write 0 v) } :: rest → decodeCap v = .instr i →
      step s = andThen (exec i (openEdge s.now s)) (finishEdge s)

/-- An SLA byte is run as the instruction it decodes to. The second clause is what a run does (R137, R139): where a primitive ends and
the script goes on to an SLA position. The first is about a state no run reaches, an engine with no primitive begun at an SLA
position, which only the model's own placement of an SLA byte makes (`State.withFetchWord`, assumption 8, DESIGN CHOICE). -/
def Obligations.EngineRunsTheSlaByte : Prop :=
  (∀ (s : State) (pos : Script) (rw : Bool) (i : Instr), s.host = [] → s.rbc.phase = .run →
      s.rbc.script = some pos → s.rbc.sym = none → pos.sla = some rw → decodeSla (slaByte rw) = .instr i →
      step s = andThen (exec i (openEdge s.now s)) fun t => andThen (runCap s t) fun u => .next (closeEdge u)) ∧
    ∀ (s : State) (pos pos' : Script) (p : Prim) (rw : Bool) (i : Instr),
      pos.after s.params.probeAlwaysBoth (primResult p s.rbc) = some pos' → pos'.sla = some rw →
      decodeSla (slaByte rw) = .instr i →
      primEnd pos p s = exec i { s with
        trace := s.trace ++ [primSym p s.rbc]
        rbc := { (s.rbc.keepByte pos).keepResult pos with script := some pos' } }

/-- R61 has a model refuse an access the host interface cannot express; and an ordinary access is never refused. That the whole cycle
is refused, the other block's part of it included, and also when `rst` = 1, is the model's choice (assumption 13, DESIGN CHOICE). -/
def Obligations.StepRefusesExactlyTheBadOffsets : Prop :=
  ∀ (s : State) (r : Refusal), step s = .refused r ↔
    r = .hostOffset ∧ ¬ (accessOk s.now.rbc = true ∧ accessOk s.now.cap = true)

/-- R177 and the invariant: no step from a state of the invariant faults; in particular `fb_addr` never passes 2^32. -/
def Obligations.NoStepFaultsUnderTheInvariant : Prop :=
  ∀ s : State, s.Inv → ∀ f : Fault, step s ≠ .fault f

/-- R250 (X-1 of spec/95_test_vectors.md): an edge with `rst` = 1 gives every register and element of both blocks its reset value,
whatever the state, and ignores the host's writes; what captures have written stays (R252). The elements R41 calls UNSPECIFIED
are left free, and so is `smp` (assumption 4). That the bus trace stays, `t.trace = s.trace`, is the model's choice (assumption 12,
DESIGN CHOICE). -/
def Obligations.ResetEdgeResetsBothBlocks : Prop :=
  ∀ (s : State) (a b : Option HostAccess) (f : Option Word) (rest : List HostLine),
    s.host = .cycle { rst := true, rbc := a, cap := b, fb := f } :: rest → accessOk a = true → accessOk b = true →
    ∃ t, step s = .next t ∧
      t.rbc = { Rbc.reset with d0 := t.rbc.d0, d1 := t.rbc.d1, smp := t.rbc.smp } ∧
      t.cap = { Cap.reset with sync1 := t.cap.sync1, sync2 := t.cap.sync2 } ∧
      (∀ off, t.rbc.readReg off = 0 ∧ t.cap.readReg off = 0) ∧ t.rbc.scl = true ∧ t.rbc.sda = true ∧
      t.fb.we = false ∧ t.mem = s.mem ∧ t.trace = s.trace ∧ t.params = s.params ∧ t.host = rest ∧
      (∀ off, a = some (.read off) → t.readRbc = some 0) ∧ ∀ off, b = some (.read off) → t.readCap = some 0

/-- R41, R250: the machine right after reset: every register reads 0, both engines are IDLE, both lines are released, nothing is
written. (Zero for `d0`, `d1`, the synchronisers, `smp` and the port's address and data is the model's own, assumption 4, and not claimed.) -/
def Obligations.ResetStateIsAsSpecified : Prop :=
  (∀ off, State.reset.rbc.readReg off = 0 ∧ State.reset.cap.readReg off = 0) ∧
    State.reset.rbc.phase = .idle ∧ State.reset.cap.phase = .idle ∧ State.reset.rbc.scl = true ∧
    State.reset.rbc.sda = true ∧ State.reset.rbc.opS = 0 ∧ State.reset.rbc.addrS = 0 ∧ State.reset.rbc.wdataS = 0 ∧
    State.reset.rbc.script = none ∧ State.reset.rbc.sym = none ∧ State.reset.rbc.bitc = 0 ∧ State.reset.rbc.q = 0 ∧
    State.reset.rbc.tick = 0 ∧ State.reset.rbc.sh = 0 ∧ State.reset.rbc.ok1 = false ∧ State.reset.rbc.ok2 = false ∧
    State.reset.cap.baseS = 0 ∧ State.reset.cap.wS = 0 ∧ State.reset.cap.hS = 0 ∧ State.reset.fb.we = false ∧
    ∀ a, State.reset.mem.get a = none

/-- The invariant holds right after reset. -/
def Obligations.ResetStateMeetsTheInvariant : Prop := State.reset.Inv

/-- The invariant is kept by every step, from every state that meets it: the engine's script, counters and outputs agree, an idle
master has released the bus, the accepted buffer lies inside the frame-buffer space, row and column are in range, memory keeps
its canonical form. Three clauses are the model's choice, not the spec's: that `rbc.bitc` is 0 in Start, RepeatedStart and Stop, and
that an idle engine has no script and no primitive (both assumption 10, DESIGN CHOICE, unsafe in form); and what the model's own
record `memOld` agrees with while a capture runs (assumption 7, DESIGN CHOICE). -/
def Obligations.EveryStepKeepsTheInvariant : Prop :=
  ∀ s t : State, s.Inv → step s = .next t → t.Inv

/-! ## The host's window -/

/-- R25, R26, R31, R32, R33: an operand register reads back the field written, reserved bits 0; and a step whose cycle writes one leaves
the field in the next state, whether the block is idle or busy, while one no cycle writes stays as it is (R60, R62, R64). In an idle
block the write replaces that field and leaves every other element as it was (R62, "No other event writes a flag", R35), the
synchronisers stepping as at every edge (R161); so does a write of the status register with `OVR`, and a write of any other offset
but the command register's leaves all of it (R61). -/
def Obligations.OperandRegistersReadBackTheirField : Prop :=
  (∀ (s : State) (v : Word),
    (s.rbc.writeReg 0x08 v).readReg 0x08 = v &&& 0xFF ∧ (s.rbc.writeReg 0x0C v).readReg 0x0C = v &&& 0xFF ∧
      (s.cap.writeReg 0x08 v).readReg 0x08 = v ∧ (s.cap.writeReg 0x0C v).readReg 0x0C = v &&& 0xFFFF ∧
      (s.cap.writeReg 0x10 v).readReg 0x10 = v &&& 0xFFFF) ∧
    ∀ s : State, s.Inv → s.now.ordinary = true → ∃ t, step s = .next t ∧
      (∀ v, s.now.rbc = some (.write 0x08 v) → t.rbc.readReg 0x08 = v &&& 0xFF) ∧
      (∀ v, s.now.rbc = some (.write 0x0C v) → t.rbc.readReg 0x0C = v &&& 0xFF) ∧
      (∀ v, s.now.cap = some (.write 0x08 v) → t.cap.readReg 0x08 = v) ∧
      (∀ v, s.now.cap = some (.write 0x0C v) → t.cap.readReg 0x0C = v &&& 0xFFFF) ∧
      (∀ v, s.now.cap = some (.write 0x10 v) → t.cap.readReg 0x10 = v &&& 0xFFFF) ∧
      ((∀ v, s.now.rbc ≠ some (.write 0x08 v)) → t.rbc.addr = s.rbc.addr) ∧
      ((∀ v, s.now.rbc ≠ some (.write 0x0C v)) → t.rbc.wdata = s.rbc.wdata) ∧
      ((∀ v, s.now.cap ≠ some (.write 0x08 v)) → t.cap.base = s.cap.base) ∧
      ((∀ v, s.now.cap ≠ some (.write 0x0C v)) → t.cap.width = s.cap.width) ∧
      ((∀ v, s.now.cap ≠ some (.write 0x10 v)) → t.cap.height = s.cap.height) ∧
      (s.rbc.phase = .idle →
        (∀ v, s.now.rbc = some (.write 0x04 v) → t.rbc = { s.rbc with ovr := s.rbc.ovr && !v.getLsbD 5 }) ∧
        (∀ v, s.now.rbc = some (.write 0x08 v) → t.rbc = { s.rbc with addr := v.extractLsb' 0 8 }) ∧
        (∀ v, s.now.rbc = some (.write 0x0C v) → t.rbc = { s.rbc with wdata := v.extractLsb' 0 8 }) ∧
        ∀ off v, 0x10 ≤ off.toNat → s.now.rbc = some (.write off v) → t.rbc = s.rbc) ∧
      (s.cap.phase = .idle →
        let k : Cap := { s.cap with sync1 := videoLevel s, sync2 := s.cap.sync1 }
        (∀ v, s.now.cap = some (.write 0x04 v) → t.cap = { k with ovr := s.cap.ovr && !v.getLsbD 5 }) ∧
        (∀ v, s.now.cap = some (.write 0x08 v) → t.cap = { k with base := v }) ∧
        (∀ v, s.now.cap = some (.write 0x0C v) → t.cap = { k with width := v.extractLsb' 0 16 }) ∧
        (∀ v, s.now.cap = some (.write 0x10 v) → t.cap = { k with height := v.extractLsb' 0 16 }) ∧
        ∀ off v, 0x14 ≤ off.toNat → s.now.cap = some (.write off v) → t.cap = k)

/-- R61, R22, R27, R28, R34: command registers read 0; unmapped offsets read 0; and writes to unmapped offsets, to `RBC_RDATA` and to
`CAP_POS` are ignored. -/
def Obligations.UnmappedAndReadOnlyOffsetsIgnoreWrites : Prop :=
  (∀ (r : Rbc) (off v : Word), 0x10 ≤ off.toNat → r.writeReg off v = r) ∧
    (∀ (r : Rbc) (off : Word), 0x14 ≤ off.toNat → r.readReg off = 0) ∧
    (∀ (c : Cap) (off v : Word), 0x14 ≤ off.toNat → c.writeReg off v = c) ∧
    (∀ (c : Cap) (off : Word), 0x18 ≤ off.toNat → c.readReg off = 0) ∧
    (∀ r : Rbc, r.readReg 0 = 0) ∧ ∀ c : Cap, c.readReg 0 = 0

/-- R24, R30: where each flag stands in a status word, and that no other bit is ever 1; `PHASE` is the code R37 gives the phase. And what
each register of the two windows reads (R22, R25 to R28, R31 to R34). -/
def Obligations.StatusWordsHoldTheirFlags : Prop :=
  (∀ r : Rbc, r.status.getLsbD 0 = decide (r.phase = .run) ∧ r.status.getLsbD 1 = r.done ∧ r.status.getLsbD 2 = r.ok ∧
      r.status.getLsbD 3 = r.present ∧ r.status.getLsbD 4 = r.illegal ∧ r.status.getLsbD 5 = r.ovr ∧
      ∀ i, 6 ≤ i → r.status.getLsbD i = false) ∧
    (∀ c : Cap, c.status.getLsbD 0 = decide (c.phase ≠ .idle) ∧ c.status.getLsbD 1 = c.done ∧
      c.status.getLsbD 2 = false ∧ c.status.getLsbD 3 = false ∧ c.status.getLsbD 4 = c.illegal ∧
      c.status.getLsbD 5 = c.ovr ∧ c.status.getLsbD 6 = false ∧ c.status.getLsbD 7 = false ∧
      ∀ i, 11 ≤ i → c.status.getLsbD i = false) ∧
    (∀ c : Cap,
      (c.phase = .idle → c.status.extractLsb' 8 3 = 0) ∧ (c.phase = .vsDrain → c.status.extractLsb' 8 3 = 1) ∧
      (c.phase = .vsWaitHigh → c.status.extractLsb' 8 3 = 2) ∧ (c.phase = .vsWaitFall → c.status.extractLsb' 8 3 = 3) ∧
      (c.phase = .rowWaitStart → c.status.extractLsb' 8 3 = 4) ∧ (c.phase = .pixWaitHigh → c.status.extractLsb' 8 3 = 5) ∧
      (c.phase = .pixWaitLow → c.status.extractLsb' 8 3 = 6) ∧ (c.phase = .rowWaitEnd → c.status.extractLsb' 8 3 = 7)) ∧
    (∀ r : Rbc, r.readReg 0x04 = r.status ∧ r.readReg 0x08 = r.addr.setWidth 32 ∧ r.readReg 0x0C = r.wdata.setWidth 32 ∧
      (r.readReg 0x10).extractLsb' 0 8 = r.data0 ∧ (r.readReg 0x10).extractLsb' 8 8 = r.data1 ∧
      (r.readReg 0x10).extractLsb' 16 16 = 0) ∧
    ∀ c : Cap, c.readReg 0x04 = c.status ∧ c.readReg 0x08 = c.base ∧ c.readReg 0x0C = c.width.setWidth 32 ∧
      c.readReg 0x10 = c.height.setWidth 32 ∧ (c.readReg 0x14).extractLsb' 0 16 = c.col ∧
      (c.readReg 0x14).extractLsb' 16 16 = c.row

/-- R24, R30: a write of a status register clears `OVR` when bit 5 is 1 and changes nothing else. -/
def Obligations.StatusWriteClearsOvrOnly : Prop :=
  (∀ (r : Rbc) (v : Word), v.getLsbD 5 = true → r.writeReg 0x04 v = { r with ovr := false }) ∧
    (∀ (r : Rbc) (v : Word), v.getLsbD 5 = false → r.writeReg 0x04 v = r) ∧
    (∀ (c : Cap) (v : Word), v.getLsbD 5 = true → c.writeReg 0x04 v = { c with ovr := false }) ∧
    ∀ (c : Cap) (v : Word), v.getLsbD 5 = false → c.writeReg 0x04 v = c

/-- R62, R63: a host read has no side effect, and returns what the register held before the edge, even at an edge that completes a
command: the step differs from that of a cycle with no access in the returned values only. -/
def Obligations.HostReadsHaveNoSideEffect : Prop :=
  ∀ (s t : State) (offR offC : Word) (rest : List HostLine), offsetOk offR = true → offsetOk offC = true →
    step { s with host := .cycle {} :: rest } = .next t →
    step { s with host := .cycle { rbc := some (.read offR), cap := some (.read offC) } :: rest } =
      .next { t with readRbc := some (s.rbc.readReg offR), readCap := some (s.cap.readReg offC) }

/-- R35: `OVR` is set only by a command write while `BUSY` = 1, and stays set until a W1C write or reset. -/
def Obligations.OvrIsStickyAndSetByOverrunsOnly : Prop :=
  ∀ s t : State, s.Inv → s.now.rst = false → step s = .next t →
    (s.rbc.ovr = false → (t.rbc.ovr = true ↔ isCommand s.now.rbc = true ∧ s.rbc.phase = .run)) ∧
      (s.rbc.ovr = true →
        (t.rbc.ovr = false ↔ ∃ v, s.now.rbc = some (.write 0x04 v) ∧ v.getLsbD 5 = true)) ∧
      (s.cap.ovr = false → (t.cap.ovr = true ↔ isCommand s.now.cap = true ∧ s.cap.phase ≠ .idle)) ∧
      (s.cap.ovr = true →
        (t.cap.ovr = false ↔ ∃ v, s.now.cap = some (.write 0x04 v) ∧ v.getLsbD 5 = true))

/-- R64, R132: a running command works on its snapshot: two machines that differ in the operand registers and `OVR` only, whatever
their hosts write there, take the same step but for those. -/
def Obligations.RunningCommandIgnoresOperandWrites : Prop :=
  ∀ s1 s2 t1 t2 : State, s1.rbc.phase = .run → s1.params = s2.params → s1.slave = s2.slave → s1.edge = s2.edge →
    s1.trace = s2.trace → s1.now.rst = false → s2.now.rst = false →
    s2.rbc = { s1.rbc with addr := s2.rbc.addr, wdata := s2.rbc.wdata, ovr := s2.rbc.ovr } →
    step s1 = .next t1 → step s2 = .next t2 →
    t2.rbc = { t1.rbc with addr := t2.rbc.addr, wdata := t2.rbc.wdata, ovr := t2.rbc.ovr } ∧ t2.slave = t1.slave ∧
      t2.trace = t1.trace

/-- The same of a running capture (R64, R166): only the snapshot counts. -/
def Obligations.RunningCaptureIgnoresOperandWrites : Prop :=
  ∀ s1 s2 t1 t2 : State, s1.cap.phase ≠ .idle → s1.video = s2.video → s1.edge = s2.edge → s1.mem = s2.mem →
    s1.now.rst = false → s2.now.rst = false →
    s2.cap = { s1.cap with
      base := s2.cap.base, width := s2.cap.width, height := s2.cap.height, ovr := s2.cap.ovr } →
    step s1 = .next t1 → step s2 = .next t2 →
    t2.cap = { t1.cap with
      base := t2.cap.base, width := t2.cap.width, height := t2.cap.height, ovr := t2.cap.ovr } ∧ t2.mem = t1.mem

/-- R10: "The register-client engine and the capture engine share no state": what a step makes of one block does not depend on the
other. -/
def Obligations.TheBlocksDoNotInterfere : Prop :=
  (∀ s1 s2 t1 t2 : State, s1.params = s2.params → s1.rbc = s2.rbc → s1.slave = s2.slave → s1.edge = s2.edge →
      s1.trace = s2.trace → s1.now.rst = s2.now.rst → s1.now.rbc = s2.now.rbc →
      step s1 = .next t1 → step s2 = .next t2 →
      t1.rbc = t2.rbc ∧ t1.slave = t2.slave ∧ t1.trace = t2.trace ∧ t1.readRbc = t2.readRbc) ∧
    ∀ s1 s2 t1 t2 : State, s1.cap = s2.cap → s1.mem = s2.mem → s1.fb = s2.fb → s1.video = s2.video →
      s1.edge = s2.edge → s1.now.rst = s2.now.rst → s1.now.cap = s2.now.cap →
      step s1 = .next t1 → step s2 = .next t2 →
      t1.cap = t2.cap ∧ t1.mem = t2.mem ∧ t1.fb = t2.fb ∧ t1.readCap = t2.readCap

/-! ## The bus -/

/-- R104 to R109 (B1 to B10): the two outputs in every quarter-step of the conditions and of every bit cell of a byte. A byte written
goes out most significant bit first, cell `k` carrying bit `7 - k`, and the ACK cell is released; a byte read is released in all
nine cells, and is assembled most significant bit first. `cellSh` is the shift register from cell to cell. -/
def Obligations.PrimitivesDriveTheirWaveform : Prop :=
  (∀ (bitc : Fin 9) (sh : Byte),
      ([0, 1, 2] : List (Fin 4)).map (fun q => driveOf .start bitc q sh) = [(true, true), (true, false), (false, false)] ∧
      ([0, 1, 2, 3] : List (Fin 4)).map (fun q => driveOf .restart bitc q sh) =
        [(false, true), (true, true), (true, false), (false, false)] ∧
      ([0, 1, 2] : List (Fin 4)).map (fun q => driveOf .stop bitc q sh) = [(false, false), (true, false), (true, true)]) ∧
    (∀ (b : Byte) (smp : Nat → Bool) (k : Fin 9),
      ([0, 1, 2, 3] : List (Fin 4)).map (fun q => driveOf (.writeByte b) k q (cellSh (.writeByte b) smp b k)) =
        let v := if k = 8 then true else b.getLsbD (7 - k)
        [(false, v), (true, v), (true, v), (false, v)]) ∧
    (∀ (sh : Byte) (k : Fin 9),
      ([0, 1, 2, 3] : List (Fin 4)).map (fun q => driveOf .readByte k q sh) =
        [(false, true), (true, true), (true, true), (false, true)]) ∧
    ∀ (sh : Byte) (smp : Nat → Bool) (i : Nat), i < 8 →
      (cellSh .readByte smp sh 8).getLsbD (7 - i) = smp i ∧
        shiftCell .readByte 8 (cellSh .readByte smp sh 8) (smp 8) = cellSh .readByte smp sh 8

/-- R108, R109 with R101, R104 on the machine: from the first quarter-step of a byte, whatever the slave and the host do short of
reset, each of the 36 quarter-steps comes in its turn and is held for `I2C_TQ_CYCLES` edges; `SCL` is high in the middle two of a
cell, and `SDA` carries bit `7 - k` of a byte written in cell `k`, and is released in the ACK cell and in all cells of a read. -/
def Obligations.BytesAreDrivenBitByBit : Prop :=
  ∀ (s : State) (p : Prim), s.Inv → s.hostOrdinary = true → s.rbc.sym = some p → p.isByte = true →
    s.rbc.bitc = 0 → s.rbc.q = 0 → s.rbc.tick = 0 → (∀ b, p = .writeByte b → s.rbc.sh = b) →
    ∀ (k : Fin 9) (q : Fin 4) (j : Nat), j < s.params.tqCycles →
      ∃ t, Sys2Proof.core.run ((4 * k.val + q.val) * s.params.tqCycles + j) s = .next t ∧
        t.rbc.sym = some p ∧ t.rbc.bitc = k ∧ t.rbc.q = q ∧ t.rbc.tick = j ∧
        t.rbc.scl = (decide (q = 1) || decide (q = 2)) ∧
        t.rbc.sda = match p with
          | .writeByte b => if k = 8 then true else b.getLsbD (7 - k)
          | _ => true

/-- R101: a quarter-step just driven is held for `I2C_TQ_CYCLES` edges: nothing but the tick, and the registers the host may write,
moves before the last of them, whatever the host does short of reset. -/
def Obligations.QuarterStepIsHeldForItsCycles : Prop :=
  ∀ (s : State) (p : Prim), s.Inv → s.hostOrdinary = true → s.rbc.sym = some p → s.rbc.tick = 0 →
    ∀ k, k < s.params.tqCycles → ∃ t, Sys2Proof.core.run k s = .next t ∧
      t.rbc = { s.rbc with tick := k, addr := t.rbc.addr, wdata := t.rbc.wdata, ovr := t.rbc.ovr } ∧
      t.trace = s.trace ∧ t.slave = s.slave

/-- R113: "`SDA` changes while `SCL` is high only in the second quarter-step of `Start` (fall), the third of `RepeatedStart` (fall) and
the third of `Stop` (rise); everywhere else `SDA` changes only in the first quarter-step of a bit cell or condition, while `SCL`
is low". -/
def Obligations.SdaChangesOnlyWhereTheConditionsSay : Prop :=
  ∀ s t : State, s.Inv → s.now.rst = false → step s = .next t → s.rbc.sda ≠ t.rbc.sda →
    (t.rbc.sym = some .start ∧ t.rbc.q = 1 ∧ s.rbc.scl = true ∧ t.rbc.scl = true ∧ t.rbc.sda = false) ∨
      (t.rbc.sym = some .restart ∧ t.rbc.q = 2 ∧ s.rbc.scl = true ∧ t.rbc.scl = true ∧ t.rbc.sda = false) ∨
      (t.rbc.sym = some .stop ∧ t.rbc.q = 2 ∧ s.rbc.scl = true ∧ t.rbc.scl = true ∧ t.rbc.sda = true) ∨
      (t.rbc.q = 0 ∧ t.rbc.sym.isSome = true ∧ s.rbc.scl = false ∧ t.rbc.scl = false)

/-- R102, R144: an idle master holds both lines released and puts nothing on the bus; and a command that ends leaves both lines
released (R135). An idle register client that the cycle does not write keeps every element of its state ("No other event writes a
flag", R35; "an idle block holds its state", R234). -/
def Obligations.IdleMasterLeavesTheBusAlone : Prop :=
  ∀ s t : State, s.Inv → s.now.rst = false → step s = .next t →
    (s.rbc.phase = .idle → t.rbc.scl = true ∧ t.rbc.sda = true ∧ t.trace = s.trace ∧ t.slave = s.slave) ∧
      (t.rbc.phase = .idle → t.rbc.scl = true ∧ t.rbc.sda = true) ∧
      (s.rbc.phase = .idle → (∀ off v, s.now.rbc ≠ some (.write off v)) → t.rbc = s.rbc)

/-- R111: quarter-step by quarter-step, a primitive comes to what it is as one atomic step: its symbol joins the trace, `acked` or the
byte read is what the slave's draws say, and the script goes on accordingly. The host is silent meanwhile. That `rbc.bitc` is 0 also
where the next primitive is a RepeatedStart, a Stop or a Start is the model's choice (assumption 10, DESIGN CHOICE, unsafe in form):
R36 gives it a meaning within a byte only. -/
def Obligations.PrimitiveIsOneAtomicStep : Prop :=
  ∀ (s : State) (pos : Script) (p : Prim) (ds rest : List Bool), s.Inv → s.host = [] →
    s.rbc.script = some pos → s.rbc.sym = some p → s.rbc.bitc = 0 → s.rbc.q = 0 → s.rbc.tick = 0 →
    (∀ b, p = .writeByte b → s.rbc.sh = b) → s.slave = ds ++ rest → ds.length = p.draws →
    ∃ t, Sys2Proof.core.run (p.quarters * s.params.tqCycles) s = .next t ∧
      t.trace = s.trace ++ [primSym p (s.rbc.afterCells p ds)] ∧ t.slave = rest ∧
      match pos.after s.params.probeAlwaysBoth (primResult p (s.rbc.afterCells p ds)) with
      | some pos' =>
        t.rbc.phase = .run ∧ t.rbc.script = some pos' ∧ t.rbc.sym = some (primAt t.rbc pos') ∧ t.rbc.bitc = 0 ∧
          t.rbc.q = 0 ∧ t.rbc.tick = 0 ∧ (∀ b, primAt t.rbc pos' = .writeByte b → t.rbc.sh = b) ∧
          t.rbc.addrS = s.rbc.addrS ∧ t.rbc.wdataS = s.rbc.wdataS
      | none => t.rbc.phase = .idle ∧ t.rbc.done = true ∧ t.rbc.scl = true ∧ t.rbc.sda = true

/-- R138 with R137: an RD written to an idle register client runs to the result, the trace and the number of quarter-steps of
`RegRead`, on every answer of the slave. Quarter-steps: the accepting edge, the edge that begins the script (R270), then
`I2C_TQ_CYCLES` edges each. -/
def Obligations.RdReadsTheRegister : Prop :=
  ∀ s : State, s.Inv → s.rbc.phase = .idle → s.host = [.cycle { rbc := some (.write 0 0x00000001) }] →
    36 ≤ s.slave.length →
    ∃ t, Sys2Proof.core.run ((regRead s.rbc.addr s.slave).quarters * s.params.tqCycles + 2) s = .next t ∧
      t.rbc.phase = .idle ∧ t.rbc.done = true ∧ t.rbc.ok = (regRead s.rbc.addr s.slave).ok ∧
      t.rbc.illegal = false ∧ t.rbc.present = s.rbc.present ∧ t.rbc.ovr = s.rbc.ovr ∧
      (∀ v, (regRead s.rbc.addr s.slave).value = some v → t.rbc.data0 = v) ∧ t.rbc.data1 = s.rbc.data1 ∧
      t.trace = s.trace ++ (regRead s.rbc.addr s.slave).trace ∧ t.slave = (regRead s.rbc.addr s.slave).rest ∧
      t.rbc.scl = true ∧ t.rbc.sda = true

/-- R139: a WR written to an idle register client runs to its result, trace and number of quarter-steps on every answer of the slave,
and leaves `RBC_RDATA` and `PRESENT` alone. -/
def Obligations.WrWritesTheRegister : Prop :=
  ∀ s : State, s.Inv → s.rbc.phase = .idle → s.host = [.cycle { rbc := some (.write 0 0x00000002) }] →
    27 ≤ s.slave.length →
    ∃ t, Sys2Proof.core.run ((regWrite s.rbc.addr s.rbc.wdata s.slave).quarters * s.params.tqCycles + 2) s = .next t ∧
      t.rbc.phase = .idle ∧ t.rbc.done = true ∧ t.rbc.ok = (regWrite s.rbc.addr s.rbc.wdata s.slave).ok ∧
      t.rbc.illegal = false ∧ t.rbc.present = s.rbc.present ∧ t.rbc.ovr = s.rbc.ovr ∧
      t.rbc.data0 = s.rbc.data0 ∧ t.rbc.data1 = s.rbc.data1 ∧
      t.trace = s.trace ++ (regWrite s.rbc.addr s.rbc.wdata s.slave).trace ∧
      t.slave = (regWrite s.rbc.addr s.rbc.wdata s.slave).rest ∧ t.rbc.scl = true ∧ t.rbc.sda = true

/-- R140: a PROBE written to an idle register client runs its two reads (one, where the first fails and `PROBE_ALWAYS_BOTH` is false)
to their results, the verdict, the trace and the number of quarter-steps, on every answer of the slave. -/
def Obligations.ProbeIdentifiesTheSensor : Prop :=
  ∀ s : State, s.Inv → s.rbc.phase = .idle → s.host = [.cycle { rbc := some (.write 0 0x00000003) }] →
    72 ≤ s.slave.length →
    ∃ t, Sys2Proof.core.run
        ((probeRun s.params.probeAlwaysBoth s.slave).quarters * s.params.tqCycles + 2) s = .next t ∧
      t.rbc.phase = .idle ∧ t.rbc.done = true ∧ t.rbc.ok = (probeRun s.params.probeAlwaysBoth s.slave).ok ∧
      t.rbc.present = (probeRun s.params.probeAlwaysBoth s.slave).present ∧ t.rbc.illegal = false ∧
      t.rbc.ovr = s.rbc.ovr ∧
      (∀ v, (probeRun s.params.probeAlwaysBoth s.slave).pid = some v → t.rbc.data0 = v) ∧
      (∀ v, (probeRun s.params.probeAlwaysBoth s.slave).ver = some v → t.rbc.data1 = v) ∧
      t.trace = s.trace ++ (probeRun s.params.probeAlwaysBoth s.slave).trace ∧
      t.slave = (probeRun s.params.probeAlwaysBoth s.slave).rest ∧ t.rbc.scl = true ∧ t.rbc.sda = true

/-- R142: every accepted command completes within 154 (RD), 114 (WR) or 308 (PROBE) quarter-steps, and the edge that begins its
script, whatever the slave answers and whatever the host does short of reset. -/
def Obligations.EveryBusCommandCompletes : Prop :=
  ∀ s : State, s.Inv → s.hostOrdinary = true → s.rbc.phase = .run →
    ∃ n t, n ≤ (if s.rbc.opS = 0x1 then 154 else if s.rbc.opS = 0x2 then 114 else 308) * s.params.tqCycles + 1 ∧
      Sys2Proof.core.run n s = .next t ∧ t.rbc.phase = .idle ∧ t.rbc.done = true

/-- R27, R35, R140: `RBC_RDATA` changes only at the edge that completes an RD or a PROBE; `PRESENT` changes only at the edge that accepts
or completes a PROBE, and after one that completes it is 1 exactly when `OK` = 1 and the two bytes are 0x76 and 0x73. -/
def Obligations.ResultsAppearAtCompletionOnly : Prop :=
  ∀ s t : State, s.Inv → s.now.rst = false → step s = .next t →
    (t.rbc.rdata ≠ s.rbc.rdata →
        s.rbc.phase = .run ∧ t.rbc.phase = .idle ∧ t.rbc.done = true ∧ (s.rbc.opS = 0x1 ∨ s.rbc.opS = 0x3)) ∧
      (t.rbc.present ≠ s.rbc.present →
        (s.rbc.phase = .idle ∧ t.rbc.phase = .run ∧ t.rbc.opS = 0x3 ∧ t.rbc.present = false) ∨
          (s.rbc.phase = .run ∧ t.rbc.phase = .idle ∧ s.rbc.opS = 0x3)) ∧
      (s.rbc.phase = .run → t.rbc.phase = .idle → s.rbc.opS = 0x3 →
        (t.rbc.present = true ↔ t.rbc.ok = true ∧ t.rbc.rdata = 0x00007376))

/-- R220: the outcomes and their codes, read off the status patterns. OVERRUN stands beside the outcome of a command, as `OVR` alone
shows it; HANG is no status pattern (R223; see `CaptureWaitsWithoutTimeout`). -/
def Obligations.OutcomeFollowsTheStatusPattern : Prop :=
  ([OutcomeCode.success, .busFail, .idMismatch, .illegalCmd, .overrun, .capDone, .hang].map OutcomeCode.code =
      [0, 1, 2, 3, 4, 5, 6]) ∧
    (∀ r : Rbc, r.phase = .idle → r.done = true → (r.illegal = true → r.ok = false) →
      (.illegalCmd ∈ r.outcomes ↔ r.illegal = true) ∧
        (.busFail ∈ r.outcomes ↔ r.illegal = false ∧ r.ok = false) ∧
        (.idMismatch ∈ r.outcomes ↔ r.ok = true ∧ r.opS = 0x3 ∧ r.present = false) ∧
        (.success ∈ r.outcomes ↔ r.ok = true ∧ (r.opS = 0x3 → r.present = true))) ∧
    (∀ r : Rbc, (.overrun ∈ r.outcomes ↔ r.ovr = true) ∧ .capDone ∉ r.outcomes ∧ .hang ∉ r.outcomes ∧
      (r.phase = .run ∨ r.done = false → ∀ o ∈ r.outcomes, o = .overrun)) ∧
    ∀ c : Cap, (.overrun ∈ c.outcomes ↔ c.ovr = true) ∧
      (.illegalCmd ∈ c.outcomes ↔ c.phase = .idle ∧ c.done = true ∧ c.illegal = true) ∧
      (.capDone ∈ c.outcomes ↔ c.phase = .idle ∧ c.done = true ∧ c.illegal = false) ∧ .hang ∉ c.outcomes

/-! ## The capture -/

/-- R163, row by row: what one edge makes of a running capture, `x` being the sample in the second synchroniser stage. The
synchronisers step meanwhile (R161), and the host may write the operand registers and `OVR` at the same edge (R64, R166). The last
clause is the table's totality: of the eighteen conditions exactly one holds of every running capture. -/
def Obligations.CaptureFollowsItsTable : Prop :=
  ∀ s : State, s.Inv → s.now.ordinary = true → ∃ t, step s = .next t ∧
    let x := s.cap.sync2
    let k : Cap := { s.cap with
      sync1 := videoLevel s, sync2 := s.cap.sync1, base := t.cap.base, width := t.cap.width, height := t.cap.height,
      ovr := t.cap.ovr }
    (s.cap.phase = .vsDrain → x.vs = true → t.cap = k ∧ t.mem = s.mem) ∧
    (s.cap.phase = .vsDrain → x.vs = false → t.cap = { k with phase := .vsWaitHigh } ∧ t.mem = s.mem) ∧
    (s.cap.phase = .vsWaitHigh → x.vs = false → t.cap = k ∧ t.mem = s.mem) ∧
    (s.cap.phase = .vsWaitHigh → x.vs = true → t.cap = { k with phase := .vsWaitFall } ∧ t.mem = s.mem) ∧
    (s.cap.phase = .vsWaitFall → x.vs = true → t.cap = k ∧ t.mem = s.mem) ∧
    (s.cap.phase = .vsWaitFall → x.vs = false → s.cap.hS = 0 →
      t.cap = { k with phase := .idle, done := true } ∧ t.mem = s.mem) ∧
    (s.cap.phase = .vsWaitFall → x.vs = false → s.cap.hS ≠ 0 →
      t.cap = { k with phase := .rowWaitStart, row := 0 } ∧ t.mem = s.mem) ∧
    (s.cap.phase = .rowWaitStart → x.hr = false → t.cap = k ∧ t.mem = s.mem) ∧
    (s.cap.phase = .rowWaitStart → x.hr = true → s.cap.wS = 0 →
      t.cap = { k with phase := .rowWaitEnd } ∧ t.mem = s.mem) ∧
    (s.cap.phase = .rowWaitStart → x.hr = true → s.cap.wS ≠ 0 →
      t.cap = { k with phase := .pixWaitHigh, col := 0 } ∧ t.mem = s.mem) ∧
    (s.cap.phase = .pixWaitHigh → x.pc = false → t.cap = k ∧ t.mem = s.mem) ∧
    (s.cap.phase = .pixWaitHigh → x.pc = true → t.cap = { k with phase := .pixWaitLow } ∧
      t.mem = s.mem.set (s.cap.baseS.toNat + s.cap.row.toNat * s.cap.wS.toNat + s.cap.col.toNat) x.d) ∧
    (s.cap.phase = .pixWaitLow → x.pc = true → t.cap = k ∧ t.mem = s.mem) ∧
    (s.cap.phase = .pixWaitLow → x.pc = false → s.cap.col.toNat + 1 < s.cap.wS.toNat →
      t.cap = { k with phase := .pixWaitHigh, col := s.cap.col + 1 } ∧ t.mem = s.mem) ∧
    (s.cap.phase = .pixWaitLow → x.pc = false → s.cap.col.toNat + 1 = s.cap.wS.toNat →
      t.cap = { k with phase := .rowWaitEnd, col := s.cap.col + 1 } ∧ t.mem = s.mem) ∧
    (s.cap.phase = .rowWaitEnd → x.hr = true → t.cap = k ∧ t.mem = s.mem) ∧
    (s.cap.phase = .rowWaitEnd → x.hr = false → s.cap.row.toNat + 1 < s.cap.hS.toNat →
      t.cap = { k with phase := .rowWaitStart, row := s.cap.row + 1, col := 0 } ∧ t.mem = s.mem) ∧
    (s.cap.phase = .rowWaitEnd → x.hr = false → s.cap.row.toNat + 1 = s.cap.hS.toNat →
      t.cap = { k with phase := .idle, done := true, row := s.cap.row + 1, col := 0 } ∧ t.mem = s.mem) ∧
    (s.cap.phase ≠ .idle →
      [decide (s.cap.phase = .vsDrain ∧ x.vs = true), decide (s.cap.phase = .vsDrain ∧ x.vs = false),
        decide (s.cap.phase = .vsWaitHigh ∧ x.vs = false), decide (s.cap.phase = .vsWaitHigh ∧ x.vs = true),
        decide (s.cap.phase = .vsWaitFall ∧ x.vs = true),
        decide (s.cap.phase = .vsWaitFall ∧ x.vs = false ∧ s.cap.hS = 0),
        decide (s.cap.phase = .vsWaitFall ∧ x.vs = false ∧ s.cap.hS ≠ 0),
        decide (s.cap.phase = .rowWaitStart ∧ x.hr = false),
        decide (s.cap.phase = .rowWaitStart ∧ x.hr = true ∧ s.cap.wS = 0),
        decide (s.cap.phase = .rowWaitStart ∧ x.hr = true ∧ s.cap.wS ≠ 0),
        decide (s.cap.phase = .pixWaitHigh ∧ x.pc = false), decide (s.cap.phase = .pixWaitHigh ∧ x.pc = true),
        decide (s.cap.phase = .pixWaitLow ∧ x.pc = true),
        decide (s.cap.phase = .pixWaitLow ∧ x.pc = false ∧ s.cap.col.toNat + 1 < s.cap.wS.toNat),
        decide (s.cap.phase = .pixWaitLow ∧ x.pc = false ∧ s.cap.col.toNat + 1 = s.cap.wS.toNat),
        decide (s.cap.phase = .rowWaitEnd ∧ x.hr = true),
        decide (s.cap.phase = .rowWaitEnd ∧ x.hr = false ∧ s.cap.row.toNat + 1 < s.cap.hS.toNat),
        decide (s.cap.phase = .rowWaitEnd ∧ x.hr = false ∧ s.cap.row.toNat + 1 = s.cap.hS.toNat)].count true = 1)

/-- An idle capture engine that the cycle does not write keeps every element of its state but the synchronisers, which step at every
edge (R161), and stores nothing ("No other event writes a flag", R35; "an idle block holds its state", R234). -/
def Obligations.IdleCaptureEngineKeepsItsState : Prop :=
  ∀ s t : State, s.now.rst = false → s.cap.phase = .idle → (∀ off v, s.now.cap ≠ some (.write off v)) →
    step s = .next t →
    t.cap = { s.cap with sync1 := videoLevel s, sync2 := s.cap.sync1 } ∧ t.mem = s.mem ∧ t.memOld = s.memOld ∧
      t.fb.we = false

/-- R161: `CapSample()` at clock edge `k` returns the levels the inputs had at edge `k - 2`. -/
def Obligations.SamplesAreTwoEdgesOld : Prop :=
  ∀ s t u : State, s.now.rst = false → t.now.rst = false → step s = .next t → step t = .next u →
    u.cap.sync2 = videoLevel s

/-- R173, R66: at one edge at most one byte of the frame buffer changes: the next element of the accepted buffer, from the data lines
of the sample, shown on the port in the same cycle; nothing outside the buffer changes, and nothing at all while the engine does
not await a pixel or is idle. -/
def Obligations.OnlyTheNextPixelIsStored : Prop :=
  ∀ s t : State, s.Inv → step s = .next t →
    (t.fb.we = false → t.mem = s.mem) ∧
      (t.fb.we = true →
        s.cap.phase = .pixWaitHigh ∧ s.cap.sync2.pc = true ∧ t.fb.data = s.cap.sync2.d ∧
          t.fb.addr.toNat = s.cap.baseS.toNat + s.cap.row.toNat * s.cap.wS.toNat + s.cap.col.toNat ∧
          s.cap.baseS.toNat ≤ t.fb.addr.toNat ∧
          t.fb.addr.toNat < s.cap.baseS.toNat + s.cap.wS.toNat * s.cap.hS.toNat ∧
          t.mem.get t.fb.addr.toNat = some s.cap.sync2.d ∧
          ∀ a, a ≠ t.fb.addr.toNat → t.mem.get a = s.mem.get a)

/-- R173: the bytes of a capture are written in row-major order, one for each element: a running capture that has written `n` bytes
either writes nothing at an edge, or writes byte `n` of its buffer and has then written `n + 1`; it has written none when it is
accepted, and all `w*h` when it completes. -/
def Obligations.BytesAreWrittenInRowMajorOrder : Prop :=
  (∀ s t : State, s.Inv → s.now.rst = false → s.cap.phase ≠ .idle → step s = .next t →
      t.cap.baseS = s.cap.baseS ∧ t.cap.wS = s.cap.wS ∧ t.cap.hS = s.cap.hS ∧
        ((t.mem = s.mem ∧ t.cap.written = s.cap.written) ∨
          (t.mem = s.mem.set (s.cap.baseS.toNat + s.cap.written) s.cap.sync2.d ∧
            t.cap.written = s.cap.written + 1)) ∧
        t.cap.written ≤ s.cap.wS.toNat * s.cap.hS.toNat ∧
        (t.cap.phase = .idle → t.cap.written = s.cap.wS.toNat * s.cap.hS.toNat ∧ t.cap.done = true)) ∧
    ∀ s t : State, s.cap.phase = .idle → exec .capture s = .next t → t.cap.phase ≠ .idle → t.cap.written = 0

/-- R164, R172, R173: against a video source that gives a frame-sync pulse and then `h` rows of `w` pixel-clock pulses, each level held
for one sample, an accepted CAPTURE completes, having stored the rows' bytes in row-major order from its base and changed nothing
else, whatever the host does short of reset. `w` = 0 and `h` = 0 are included (R176). -/
def Obligations.CaptureStoresTheFrame : Prop :=
  ∀ (s : State) (rows : List (List Byte)) (rest : List Sample), s.Inv → s.hostOrdinary = true →
    s.cap.phase = .vsDrain → s.cap.hS.toNat = rows.length → (∀ r ∈ rows, r.length = s.cap.wS.toNat) →
    s.pendingSamples = frameWave rows ++ rest →
    ∃ t, Sys2Proof.core.run (frameWave rows).length s = .next t ∧
      t.cap.phase = .idle ∧ t.cap.done = true ∧ t.cap.row = s.cap.hS ∧ t.cap.col = 0 ∧
      (∀ k b, rows.flatten[k]? = some b → t.mem.get (s.cap.baseS.toNat + k) = some b) ∧
      ∀ a, a < s.cap.baseS.toNat ∨ s.cap.baseS.toNat + rows.flatten.length ≤ a → t.mem.get a = s.mem.get a

/-- R175, R223: a phase whose exit condition does not hold of the samples to come is not left, nothing is stored, and `BUSY` stays 1,
for as many edges as that lasts, whatever the host does short of reset; and a running capture HANGS (code 6 of R220) exactly when
the exit condition of its phase never holds of a sample it examines. -/
def Obligations.CaptureWaitsWithoutTimeout : Prop :=
  (∀ (s : State) (n : Nat), s.Inv → s.hostOrdinary = true → s.cap.phase ≠ .idle → n ≤ s.pendingSamples.length →
    (∀ x ∈ s.pendingSamples.take n, s.cap.phase.exits x = false) →
    ∃ t, Sys2Proof.core.run n s = .next t ∧ t.cap.phase = s.cap.phase ∧ t.mem = s.mem ∧ t.cap.row = s.cap.row ∧
      t.cap.col = s.cap.col) ∧
    ∀ s : State, s.Inv → s.hostOrdinary = true →
      (s.shows .hang ↔ s.cap.phase ≠ .idle ∧
        ∀ n t, Sys2Proof.core.run n s = .next t → s.cap.phase.exits t.cap.sync2 = false)

/-- R174: the lines the engine does not watch in a phase do not matter there. -/
def Obligations.UnwatchedLinesAreIgnored : Prop :=
  ∀ (s : State) (x y : Sample),
    ((s.cap.phase = .rowWaitStart ∨ s.cap.phase = .pixWaitHigh ∨ s.cap.phase = .pixWaitLow ∨
        s.cap.phase = .rowWaitEnd) → x = { y with vs := x.vs } → capOn x s = capOn y s) ∧
      ((s.cap.phase = .pixWaitHigh ∨ s.cap.phase = .pixWaitLow) → x = { y with hr := x.hr } →
        capOn x s = capOn y s) ∧
      ((s.cap.phase = .vsDrain ∨ s.cap.phase = .vsWaitHigh ∨ s.cap.phase = .vsWaitFall ∨
          s.cap.phase = .rowWaitStart ∨ s.cap.phase = .rowWaitEnd) → x = { y with pc := x.pc, d := x.d } →
        capOn x s = capOn y s)

/-- R72, R222: a host read of a frame-buffer byte returns the byte as it stands before the edge, unless the byte lies in the buffer of
a capture that is `BUSY`; then it returns the byte before or after the engine's write. The byte before it is taken from `memOld`,
the model's own record of the frame buffer at the acceptance (assumption 7, DESIGN CHOICE): every edge of a running capture keeps
it, and it differs from the frame buffer only in the bytes that capture has written so far. -/
def Obligations.FrameBufferReadsRaceOnlyWithTheirCapture : Prop :=
  (∀ (s t : State) (a : Word) (rest : List HostLine), s.host = .cycle { fb := some a } :: rest → step s = .next t →
    (t.readFb = some (s.mem.view a.toNat) ∨
        (t.readFb = some (s.memOld.view a.toNat) ∧ s.cap.phase ≠ .idle ∧ s.cap.baseS.toNat ≤ a.toNat ∧
          a.toNat < s.cap.baseS.toNat + s.cap.wS.toNat * s.cap.hS.toNat))) ∧
    ∀ s t : State, s.Inv → s.now.rst = false → s.cap.phase ≠ .idle → step s = .next t →
      t.memOld = s.memOld ∧
        ∀ a, a < s.cap.baseS.toNat ∨ s.cap.baseS.toNat + t.cap.written ≤ a → t.memOld.get a = t.mem.get a

/-! ## Host programs and client software -/

/-- R88, R89: the lines of each of the eleven pseudo-instructions, in their order, offsets and values written out; what the `.sync`
forms take from the words read; and that every line is an access the host interface can express, and resets nothing. -/
def Obligations.PseudoInstructionsExpandToOrdinaryLines : Prop :=
  (Pseudo.nopRbc.expand = [.cycle { rbc := some (.write 0x00 0x0) }]) ∧
    (∀ a : Byte, (Pseudo.rd a).expand =
      [.cycle { rbc := some (.write 0x08 (a.setWidth 32)) }, .cycle { rbc := some (.write 0x00 0x1) }]) ∧
    (∀ a v : Byte, (Pseudo.wr a v).expand =
      [.cycle { rbc := some (.write 0x08 (a.setWidth 32)) }, .cycle { rbc := some (.write 0x0C (v.setWidth 32)) },
        .cycle { rbc := some (.write 0x00 0x2) }]) ∧
    (Pseudo.probe.expand = [.cycle { rbc := some (.write 0x00 0x3) }]) ∧
    (Pseudo.waitRbc.expand = [.poll .rbc 0x04 0x00000001 0]) ∧
    (∀ a : Byte, (Pseudo.rdSync a).expand =
      [.cycle { rbc := some (.write 0x08 (a.setWidth 32)) }, .cycle { rbc := some (.write 0x00 0x1) },
        .poll .rbc 0x04 0x00000001 0, .cycle { rbc := some (.read 0x04) }, .cycle { rbc := some (.read 0x10) }]) ∧
    (∀ a v : Byte, (Pseudo.wrSync a v).expand =
      [.cycle { rbc := some (.write 0x08 (a.setWidth 32)) }, .cycle { rbc := some (.write 0x0C (v.setWidth 32)) },
        .cycle { rbc := some (.write 0x00 0x2) }, .poll .rbc 0x04 0x00000001 0, .cycle { rbc := some (.read 0x04) }]) ∧
    (Pseudo.probeSync.expand =
      [.cycle { rbc := some (.write 0x00 0x3) }, .poll .rbc 0x04 0x00000001 0, .cycle { rbc := some (.read 0x04) },
        .cycle { rbc := some (.read 0x10) }]) ∧
    (Pseudo.nopCap.expand = [.cycle { cap := some (.write 0x00 0x0) }]) ∧
    (∀ (base : Word) (w h : Dim), (Pseudo.capture base w h).expand =
      [.cycle { cap := some (.write 0x08 base) }, .cycle { cap := some (.write 0x0C (w.setWidth 32)) },
        .cycle { cap := some (.write 0x10 (h.setWidth 32)) }, .cycle { cap := some (.write 0x00 0x1) }]) ∧
    (Pseudo.waitCap.expand = [.poll .cap 0x04 0x00000001 0]) ∧
    (∀ s r : Word, rdSyncResult s r = (s.getLsbD 2, r.extractLsb' 0 8) ∧ wrSyncResult s = s.getLsbD 2 ∧
      probeSyncResult s r = (s.getLsbD 2, s.getLsbD 3, r.extractLsb' 0 8, r.extractLsb' 8 8)) ∧
    ∀ p : Pseudo, ∀ l ∈ p.expand, l.now.ordinary = true

/-- R88: a poll repeats its read until the field equals the value polled for. That it reads once in every cycle, and is left at the first
edge before which the field equals the value, is the model's choice (assumption 9, DESIGN CHOICE). -/
def Obligations.PollRepeatsUntilTheFieldIsEqual : Prop :=
  ∀ (s t : State) (b : Block) (off mask want : Word) (rest : List HostLine),
    s.host = .poll b off mask want :: rest → step s = .next t →
    (s.window b off &&& mask = want → t.host = rest) ∧ (s.window b off &&& mask ≠ want → t.host = s.host) ∧
      (b = .rbc → t.readRbc = some (s.rbc.readReg off)) ∧ (b = .cap → t.readCap = some (s.cap.readReg off))

/-- R193, R194, R195 with R197 to R199 (L1.6): against a register file, describing the format just applied gives that format, for all
register contents, both flags being those of the register as it was; and a request that names no format of the closed set is
YUV_Interleaved's, whatever answers it (R192). The two other codes of R197, and the details of R199, for all register contents. -/
def Obligations.DescribeGivesTheFormatApplied : Prop :=
  (∀ (p : Config.Params) (m : MockRegs),
    (∃ m', applyFormat p mockPort (.format .rawBayer) m = some (.done, m') ∧ describeCurrentFormat mockPort m' =
        some (.format ⟨.rawBayer, (m 0x12).getLsbD 3, (m 0x12).getLsbD 6⟩, m')) ∧
      (∃ m', applyFormat p mockPort (.format .rgb565) m = some (.done, m') ∧ describeCurrentFormat mockPort m' =
        some (.format ⟨.rgb .rgb565, (m 0x12).getLsbD 3, (m 0x12).getLsbD 6⟩, m')) ∧
      ∃ m', applyFormat p mockPort (.format .yuvInterleaved) m = some (.done, m') ∧ describeCurrentFormat mockPort m' =
        some (.format ⟨.yuv .yuyv, (m 0x12).getLsbD 3, (m 0x12).getLsbD 6⟩, m')) ∧
    (∀ (σ : Type) (p : Config.Params) (io : SyncPort σ) (w : σ),
      applyFormat p io .unrecognized w = applyFormat p io (.format .yuvInterleaved) w) ∧
    ∀ m : MockRegs,
      ((m 0x12).getLsbD 2 = true → (m 0x12).getLsbD 0 = true → describeCurrentFormat mockPort m =
        some (.format ⟨.processedRawBayer, (m 0x12).getLsbD 3, (m 0x12).getLsbD 6⟩, m)) ∧
      ((m 0x12).getLsbD 2 = true → (m 0x12).getLsbD 0 = false → describeCurrentFormat mockPort m =
        some (.format ⟨.rgb (if (m 0x40).extractLsb' 4 2 = 0b01 then .rgb565
          else if (m 0x40).extractLsb' 4 2 = 0b11 then .rgb555 else .plain),
          (m 0x12).getLsbD 3, (m 0x12).getLsbD 6⟩, m))

/-- R196 with R190: a format procedure that fails has run all steps before the one that failed, reports that step's register and leg,
and runs no step after it: the world is as the failing step left it. And `rmw` of any function `f` fails with READ exactly when its
read did, with WRITE exactly when its write of `f v` did. R200: describing the format fails exactly at the first of its reads that
fails, names that register, and leaves the world as that read left it, so that no later read is issued; and it issues no WR, for
whatever a write would do it answers the same. -/
def Obligations.FormatProcedureStopsAtTheFirstFailure : Prop :=
  (∀ (σ : Type) (io : SyncPort σ) (steps : List RmwStep) (w w' : σ) (a : Byte) (leg : Leg),
    runSteps io steps w = some (.fail a leg, w') →
    ∃ before r after w1, steps = before ++ r :: after ∧ runSteps io before w = some (.done, w1) ∧
      rmw io r.addr r.f w1 = some (.fail a leg, w') ∧ r.addr = a) ∧
    (∀ (σ : Type) (io : SyncPort σ) (a : Byte) (f : Byte → Byte) (w w' : σ),
      (rmw io a f w = some (.fail a .read, w') ↔ ∃ v, io.rd w a = some (false, v, w')) ∧
        (rmw io a f w = some (.fail a .write, w') ↔
          ∃ v w1, io.rd w a = some (true, v, w1) ∧ io.wr w1 a (f v) = some (false, w')) ∧
        (rmw io a f w = some (.done, w') ↔
          ∃ v w1, io.rd w a = some (true, v, w1) ∧ io.wr w1 a (f v) = some (true, w'))) ∧
    (∀ (σ : Type) (io : SyncPort σ) (w w' : σ) (a : Byte),
      describeCurrentFormat io w = some (.fail a, w') ↔
        (a = 0x12 ∧ ∃ v, io.rd w 0x12 = some (false, v, w')) ∨
          ∃ com7 w1, io.rd w 0x12 = some (true, com7, w1) ∧
            ((a = 0x40 ∧ ∃ v, io.rd w1 0x40 = some (false, v, w')) ∨
              ∃ sec w2, io.rd w1 0x40 = some (true, sec, w2) ∧ com7.getLsbD 2 = false ∧ com7.getLsbD 0 = false ∧
                ((a = 0x3A ∧ ∃ v, io.rd w2 0x3A = some (false, v, w')) ∨
                  ∃ tslb w3, io.rd w2 0x3A = some (true, tslb, w3) ∧ a = 0x3D ∧
                    ∃ v, io.rd w3 0x3D = some (false, v, w')))) ∧
    ∀ (σ : Type) (io : SyncPort σ) (wr : σ → Byte → Byte → Option (Bool × σ)) (w : σ),
      describeCurrentFormat { io with wr := wr } w = describeCurrentFormat io w

/-- R89, R190, R202 on the machine: `rd.sync` and `wr.sync` of an idle register client return what the bus read or write comes to on
every answer of the slave, within the edges their lines and the bounds of R142 take; `capture` and `wait.cap` of an idle engine
return against a source that sends a frame, the rows' bytes stored; and `captureFrame` captures in the world `applyFormat` left,
whatever that returned. Watching each call for `n` edges is the model's form of a call that blocks (assumption 16, DESIGN CHOICE). -/
def Obligations.ClientCallsRunOnTheMachine : Prop :=
  (∀ (s : State) (a : Byte) (n : Nat), s.Inv → s.rbc.phase = .idle → 36 ≤ s.slave.length →
      154 * s.params.tqCycles + 6 ≤ n →
      ∃ v t, (machinePort n).rd s a = some ((regRead a s.slave).ok, v, t) ∧
        (∀ b, (regRead a s.slave).value = some b → v = b) ∧ t.rbc.phase = .idle ∧ t.host = [] ∧
        t.trace = s.trace ++ (regRead a s.slave).trace ∧ t.slave = (regRead a s.slave).rest ∧ t.Inv) ∧
    (∀ (s : State) (a v : Byte) (n : Nat), s.Inv → s.rbc.phase = .idle → 27 ≤ s.slave.length →
      114 * s.params.tqCycles + 6 ≤ n →
      ∃ t, (machinePort n).wr s a v = some ((regWrite a v s.slave).ok, t) ∧ t.rbc.phase = .idle ∧ t.host = [] ∧
        t.trace = s.trace ++ (regWrite a v s.slave).trace ∧ t.slave = (regWrite a v s.slave).rest ∧ t.Inv) ∧
    (∀ (s : State) (base : Word) (w h : Dim) (rows : List (List Byte)) (x y : Sample) (rest : List Sample) (n : Nat),
      s.Inv → s.cap.phase = .idle → base.toNat + w.toNat * h.toNat ≤ 2 ^ 32 → h.toNat = rows.length →
      (∀ r ∈ rows, r.length = w.toNat) → s.video = x :: y :: (frameWave rows ++ rest) →
      (frameWave rows).length + 5 ≤ n →
      ∃ t, (machinePort n).capture s base w h = some t ∧ t.cap.phase = .idle ∧ t.cap.done = true ∧ t.host = [] ∧
        (∀ k b, rows.flatten[k]? = some b → t.mem.get (base.toNat + k) = some b) ∧
        (∀ a, a < base.toNat ∨ base.toNat + rows.flatten.length ≤ a → t.mem.get a = s.mem.get a) ∧ t.Inv) ∧
    ∀ (σ : Type) (p : Config.Params) (io : BlockPort σ) (q : FormatRequest) (base : Word) (w h : Dim) (x x1 : σ)
      (logged : ClientResult), applyFormat p io.toSyncPort q x = some (logged, x1) →
      captureFrame p io q base w h x = (io.capture x1 base w h).map fun x2 => (logged, x2)
end

