-- ==== Sys2Proof/Laws/State.lean ====
section
/-! SUPPORT. One lemma per field and update of the state. -/

namespace Sys2Proof.Machine

variable (s : State)

/-! ### setRbc -/

@[simp] theorem State.setRbc_params (r : Rbc) : (s.setRbc r).params = s.params := rfl
@[simp] theorem State.setRbc_rbc (r : Rbc) : (s.setRbc r).rbc = r := rfl
@[simp] theorem State.setRbc_cap (r : Rbc) : (s.setRbc r).cap = s.cap := rfl
@[simp] theorem State.setRbc_fb (r : Rbc) : (s.setRbc r).fb = s.fb := rfl
@[simp] theorem State.setRbc_mem (r : Rbc) : (s.setRbc r).mem = s.mem := rfl
@[simp] theorem State.setRbc_memOld (r : Rbc) : (s.setRbc r).memOld = s.memOld := rfl
@[simp] theorem State.setRbc_host (r : Rbc) : (s.setRbc r).host = s.host := rfl
@[simp] theorem State.setRbc_slave (r : Rbc) : (s.setRbc r).slave = s.slave := rfl
@[simp] theorem State.setRbc_video (r : Rbc) : (s.setRbc r).video = s.video := rfl
@[simp] theorem State.setRbc_edge (r : Rbc) : (s.setRbc r).edge = s.edge := rfl
@[simp] theorem State.setRbc_readRbc (r : Rbc) : (s.setRbc r).readRbc = s.readRbc := rfl
@[simp] theorem State.setRbc_readCap (r : Rbc) : (s.setRbc r).readCap = s.readCap := rfl
@[simp] theorem State.setRbc_readFb (r : Rbc) : (s.setRbc r).readFb = s.readFb := rfl
@[simp] theorem State.setRbc_trace (r : Rbc) : (s.setRbc r).trace = s.trace := rfl

/-! ### setCap -/

@[simp] theorem State.setCap_params (c : Cap) : (s.setCap c).params = s.params := rfl
@[simp] theorem State.setCap_rbc (c : Cap) : (s.setCap c).rbc = s.rbc := rfl
@[simp] theorem State.setCap_cap (c : Cap) : (s.setCap c).cap = c := rfl
@[simp] theorem State.setCap_fb (c : Cap) : (s.setCap c).fb = s.fb := rfl
@[simp] theorem State.setCap_mem (c : Cap) : (s.setCap c).mem = s.mem := rfl
@[simp] theorem State.setCap_memOld (c : Cap) : (s.setCap c).memOld = s.memOld := rfl
@[simp] theorem State.setCap_host (c : Cap) : (s.setCap c).host = s.host := rfl
@[simp] theorem State.setCap_slave (c : Cap) : (s.setCap c).slave = s.slave := rfl
@[simp] theorem State.setCap_video (c : Cap) : (s.setCap c).video = s.video := rfl
@[simp] theorem State.setCap_edge (c : Cap) : (s.setCap c).edge = s.edge := rfl
@[simp] theorem State.setCap_readRbc (c : Cap) : (s.setCap c).readRbc = s.readRbc := rfl
@[simp] theorem State.setCap_readCap (c : Cap) : (s.setCap c).readCap = s.readCap := rfl
@[simp] theorem State.setCap_readFb (c : Cap) : (s.setCap c).readFb = s.readFb := rfl
@[simp] theorem State.setCap_trace (c : Cap) : (s.setCap c).trace = s.trace := rfl

/-! ### setFb -/

@[simp] theorem State.setFb_params (p : FbPort) : (s.setFb p).params = s.params := rfl
@[simp] theorem State.setFb_rbc (p : FbPort) : (s.setFb p).rbc = s.rbc := rfl
@[simp] theorem State.setFb_cap (p : FbPort) : (s.setFb p).cap = s.cap := rfl
@[simp] theorem State.setFb_fb (p : FbPort) : (s.setFb p).fb = p := rfl
@[simp] theorem State.setFb_mem (p : FbPort) : (s.setFb p).mem = s.mem := rfl
@[simp] theorem State.setFb_memOld (p : FbPort) : (s.setFb p).memOld = s.memOld := rfl
@[simp] theorem State.setFb_host (p : FbPort) : (s.setFb p).host = s.host := rfl
@[simp] theorem State.setFb_slave (p : FbPort) : (s.setFb p).slave = s.slave := rfl
@[simp] theorem State.setFb_video (p : FbPort) : (s.setFb p).video = s.video := rfl
@[simp] theorem State.setFb_edge (p : FbPort) : (s.setFb p).edge = s.edge := rfl
@[simp] theorem State.setFb_readRbc (p : FbPort) : (s.setFb p).readRbc = s.readRbc := rfl
@[simp] theorem State.setFb_readCap (p : FbPort) : (s.setFb p).readCap = s.readCap := rfl
@[simp] theorem State.setFb_readFb (p : FbPort) : (s.setFb p).readFb = s.readFb := rfl
@[simp] theorem State.setFb_trace (p : FbPort) : (s.setFb p).trace = s.trace := rfl

/-! ### setMem -/

@[simp] theorem State.setMem_params (m : Memory) : (s.setMem m).params = s.params := rfl
@[simp] theorem State.setMem_rbc (m : Memory) : (s.setMem m).rbc = s.rbc := rfl
@[simp] theorem State.setMem_cap (m : Memory) : (s.setMem m).cap = s.cap := rfl
@[simp] theorem State.setMem_fb (m : Memory) : (s.setMem m).fb = s.fb := rfl
@[simp] theorem State.setMem_mem (m : Memory) : (s.setMem m).mem = m := rfl
@[simp] theorem State.setMem_memOld (m : Memory) : (s.setMem m).memOld = s.memOld := rfl
@[simp] theorem State.setMem_host (m : Memory) : (s.setMem m).host = s.host := rfl
@[simp] theorem State.setMem_slave (m : Memory) : (s.setMem m).slave = s.slave := rfl
@[simp] theorem State.setMem_video (m : Memory) : (s.setMem m).video = s.video := rfl
@[simp] theorem State.setMem_edge (m : Memory) : (s.setMem m).edge = s.edge := rfl
@[simp] theorem State.setMem_readRbc (m : Memory) : (s.setMem m).readRbc = s.readRbc := rfl
@[simp] theorem State.setMem_readCap (m : Memory) : (s.setMem m).readCap = s.readCap := rfl
@[simp] theorem State.setMem_readFb (m : Memory) : (s.setMem m).readFb = s.readFb := rfl
@[simp] theorem State.setMem_trace (m : Memory) : (s.setMem m).trace = s.trace := rfl

/-! ### setMemOld -/

@[simp] theorem State.setMemOld_params (m : Memory) : (s.setMemOld m).params = s.params := rfl
@[simp] theorem State.setMemOld_rbc (m : Memory) : (s.setMemOld m).rbc = s.rbc := rfl
@[simp] theorem State.setMemOld_cap (m : Memory) : (s.setMemOld m).cap = s.cap := rfl
@[simp] theorem State.setMemOld_fb (m : Memory) : (s.setMemOld m).fb = s.fb := rfl
@[simp] theorem State.setMemOld_mem (m : Memory) : (s.setMemOld m).mem = s.mem := rfl
@[simp] theorem State.setMemOld_memOld (m : Memory) : (s.setMemOld m).memOld = m := rfl
@[simp] theorem State.setMemOld_host (m : Memory) : (s.setMemOld m).host = s.host := rfl
@[simp] theorem State.setMemOld_slave (m : Memory) : (s.setMemOld m).slave = s.slave := rfl
@[simp] theorem State.setMemOld_video (m : Memory) : (s.setMemOld m).video = s.video := rfl
@[simp] theorem State.setMemOld_edge (m : Memory) : (s.setMemOld m).edge = s.edge := rfl
@[simp] theorem State.setMemOld_readRbc (m : Memory) : (s.setMemOld m).readRbc = s.readRbc := rfl
@[simp] theorem State.setMemOld_readCap (m : Memory) : (s.setMemOld m).readCap = s.readCap := rfl
@[simp] theorem State.setMemOld_readFb (m : Memory) : (s.setMemOld m).readFb = s.readFb := rfl
@[simp] theorem State.setMemOld_trace (m : Memory) : (s.setMemOld m).trace = s.trace := rfl

/-! ### setHost -/

@[simp] theorem State.setHost_params (h : List HostLine) : (s.setHost h).params = s.params := rfl
@[simp] theorem State.setHost_rbc (h : List HostLine) : (s.setHost h).rbc = s.rbc := rfl
@[simp] theorem State.setHost_cap (h : List HostLine) : (s.setHost h).cap = s.cap := rfl
@[simp] theorem State.setHost_fb (h : List HostLine) : (s.setHost h).fb = s.fb := rfl
@[simp] theorem State.setHost_mem (h : List HostLine) : (s.setHost h).mem = s.mem := rfl
@[simp] theorem State.setHost_memOld (h : List HostLine) : (s.setHost h).memOld = s.memOld := rfl
@[simp] theorem State.setHost_host (h : List HostLine) : (s.setHost h).host = h := rfl
@[simp] theorem State.setHost_slave (h : List HostLine) : (s.setHost h).slave = s.slave := rfl
@[simp] theorem State.setHost_video (h : List HostLine) : (s.setHost h).video = s.video := rfl
@[simp] theorem State.setHost_edge (h : List HostLine) : (s.setHost h).edge = s.edge := rfl
@[simp] theorem State.setHost_readRbc (h : List HostLine) : (s.setHost h).readRbc = s.readRbc := rfl
@[simp] theorem State.setHost_readCap (h : List HostLine) : (s.setHost h).readCap = s.readCap := rfl
@[simp] theorem State.setHost_readFb (h : List HostLine) : (s.setHost h).readFb = s.readFb := rfl
@[simp] theorem State.setHost_trace (h : List HostLine) : (s.setHost h).trace = s.trace := rfl

/-! ### setSlave -/

@[simp] theorem State.setSlave_params (l : List Bool) : (s.setSlave l).params = s.params := rfl
@[simp] theorem State.setSlave_rbc (l : List Bool) : (s.setSlave l).rbc = s.rbc := rfl
@[simp] theorem State.setSlave_cap (l : List Bool) : (s.setSlave l).cap = s.cap := rfl
@[simp] theorem State.setSlave_fb (l : List Bool) : (s.setSlave l).fb = s.fb := rfl
@[simp] theorem State.setSlave_mem (l : List Bool) : (s.setSlave l).mem = s.mem := rfl
@[simp] theorem State.setSlave_memOld (l : List Bool) : (s.setSlave l).memOld = s.memOld := rfl
@[simp] theorem State.setSlave_host (l : List Bool) : (s.setSlave l).host = s.host := rfl
@[simp] theorem State.setSlave_slave (l : List Bool) : (s.setSlave l).slave = l := rfl
@[simp] theorem State.setSlave_video (l : List Bool) : (s.setSlave l).video = s.video := rfl
@[simp] theorem State.setSlave_edge (l : List Bool) : (s.setSlave l).edge = s.edge := rfl
@[simp] theorem State.setSlave_readRbc (l : List Bool) : (s.setSlave l).readRbc = s.readRbc := rfl
@[simp] theorem State.setSlave_readCap (l : List Bool) : (s.setSlave l).readCap = s.readCap := rfl
@[simp] theorem State.setSlave_readFb (l : List Bool) : (s.setSlave l).readFb = s.readFb := rfl
@[simp] theorem State.setSlave_trace (l : List Bool) : (s.setSlave l).trace = s.trace := rfl

/-! ### setTrace -/

@[simp] theorem State.setTrace_params (t : List BusSym) : (s.setTrace t).params = s.params := rfl
@[simp] theorem State.setTrace_rbc (t : List BusSym) : (s.setTrace t).rbc = s.rbc := rfl
@[simp] theorem State.setTrace_cap (t : List BusSym) : (s.setTrace t).cap = s.cap := rfl
@[simp] theorem State.setTrace_fb (t : List BusSym) : (s.setTrace t).fb = s.fb := rfl
@[simp] theorem State.setTrace_mem (t : List BusSym) : (s.setTrace t).mem = s.mem := rfl
@[simp] theorem State.setTrace_memOld (t : List BusSym) : (s.setTrace t).memOld = s.memOld := rfl
@[simp] theorem State.setTrace_host (t : List BusSym) : (s.setTrace t).host = s.host := rfl
@[simp] theorem State.setTrace_slave (t : List BusSym) : (s.setTrace t).slave = s.slave := rfl
@[simp] theorem State.setTrace_video (t : List BusSym) : (s.setTrace t).video = s.video := rfl
@[simp] theorem State.setTrace_edge (t : List BusSym) : (s.setTrace t).edge = s.edge := rfl
@[simp] theorem State.setTrace_readRbc (t : List BusSym) : (s.setTrace t).readRbc = s.readRbc := rfl
@[simp] theorem State.setTrace_readCap (t : List BusSym) : (s.setTrace t).readCap = s.readCap := rfl
@[simp] theorem State.setTrace_readFb (t : List BusSym) : (s.setTrace t).readFb = s.readFb := rfl
@[simp] theorem State.setTrace_trace (t : List BusSym) : (s.setTrace t).trace = t := rfl

/-! ### setReads -/

@[simp] theorem State.setReads_params (a b : Option Word) (c : Option Byte) : (s.setReads a b c).params = s.params := rfl
@[simp] theorem State.setReads_rbc (a b : Option Word) (c : Option Byte) : (s.setReads a b c).rbc = s.rbc := rfl
@[simp] theorem State.setReads_cap (a b : Option Word) (c : Option Byte) : (s.setReads a b c).cap = s.cap := rfl
@[simp] theorem State.setReads_fb (a b : Option Word) (c : Option Byte) : (s.setReads a b c).fb = s.fb := rfl
@[simp] theorem State.setReads_mem (a b : Option Word) (c : Option Byte) : (s.setReads a b c).mem = s.mem := rfl
@[simp] theorem State.setReads_memOld (a b : Option Word) (c : Option Byte) : (s.setReads a b c).memOld = s.memOld := rfl
@[simp] theorem State.setReads_host (a b : Option Word) (c : Option Byte) : (s.setReads a b c).host = s.host := rfl
@[simp] theorem State.setReads_slave (a b : Option Word) (c : Option Byte) : (s.setReads a b c).slave = s.slave := rfl
@[simp] theorem State.setReads_video (a b : Option Word) (c : Option Byte) : (s.setReads a b c).video = s.video := rfl
@[simp] theorem State.setReads_edge (a b : Option Word) (c : Option Byte) : (s.setReads a b c).edge = s.edge := rfl
@[simp] theorem State.setReads_readRbc (a b : Option Word) (c : Option Byte) : (s.setReads a b c).readRbc = a := rfl
@[simp] theorem State.setReads_readCap (a b : Option Word) (c : Option Byte) : (s.setReads a b c).readCap = b := rfl
@[simp] theorem State.setReads_readFb (a b : Option Word) (c : Option Byte) : (s.setReads a b c).readFb = c := rfl
@[simp] theorem State.setReads_trace (a b : Option Word) (c : Option Byte) : (s.setReads a b c).trace = s.trace := rfl

/-! ### nextEdge -/

@[simp] theorem State.nextEdge_params (v : List Sample) : (s.nextEdge v).params = s.params := rfl
@[simp] theorem State.nextEdge_rbc (v : List Sample) : (s.nextEdge v).rbc = s.rbc := rfl
@[simp] theorem State.nextEdge_cap (v : List Sample) : (s.nextEdge v).cap = s.cap := rfl
@[simp] theorem State.nextEdge_fb (v : List Sample) : (s.nextEdge v).fb = s.fb := rfl
@[simp] theorem State.nextEdge_mem (v : List Sample) : (s.nextEdge v).mem = s.mem := rfl
@[simp] theorem State.nextEdge_memOld (v : List Sample) : (s.nextEdge v).memOld = s.memOld := rfl
@[simp] theorem State.nextEdge_host (v : List Sample) : (s.nextEdge v).host = s.host := rfl
@[simp] theorem State.nextEdge_slave (v : List Sample) : (s.nextEdge v).slave = s.slave := rfl
@[simp] theorem State.nextEdge_video (v : List Sample) : (s.nextEdge v).video = v := rfl
@[simp] theorem State.nextEdge_edge (v : List Sample) : (s.nextEdge v).edge = s.edge + 1 := rfl
@[simp] theorem State.nextEdge_readRbc (v : List Sample) : (s.nextEdge v).readRbc = s.readRbc := rfl
@[simp] theorem State.nextEdge_readCap (v : List Sample) : (s.nextEdge v).readCap = s.readCap := rfl
@[simp] theorem State.nextEdge_readFb (v : List Sample) : (s.nextEdge v).readFb = s.readFb := rfl
@[simp] theorem State.nextEdge_trace (v : List Sample) : (s.nextEdge v).trace = s.trace := rfl

end Sys2Proof.Machine
end

