-- ==== Sys2Proof/Laws/Rbc.lean ====
section
/-! SUPPORT. One lemma per field and update of the register client. -/

namespace Sys2Proof.Machine

variable (r : Rbc)

/-! ### overrun -/

@[simp] theorem Rbc.overrun_done : r.overrun.done = r.done := rfl
@[simp] theorem Rbc.overrun_ok : r.overrun.ok = r.ok := rfl
@[simp] theorem Rbc.overrun_present : r.overrun.present = r.present := rfl
@[simp] theorem Rbc.overrun_illegal : r.overrun.illegal = r.illegal := rfl
@[simp] theorem Rbc.overrun_ovr : r.overrun.ovr = true := rfl
@[simp] theorem Rbc.overrun_addr : r.overrun.addr = r.addr := rfl
@[simp] theorem Rbc.overrun_wdata : r.overrun.wdata = r.wdata := rfl
@[simp] theorem Rbc.overrun_data0 : r.overrun.data0 = r.data0 := rfl
@[simp] theorem Rbc.overrun_data1 : r.overrun.data1 = r.data1 := rfl
@[simp] theorem Rbc.overrun_phase : r.overrun.phase = r.phase := rfl
@[simp] theorem Rbc.overrun_opS : r.overrun.opS = r.opS := rfl
@[simp] theorem Rbc.overrun_addrS : r.overrun.addrS = r.addrS := rfl
@[simp] theorem Rbc.overrun_wdataS : r.overrun.wdataS = r.wdataS := rfl
@[simp] theorem Rbc.overrun_script : r.overrun.script = r.script := rfl
@[simp] theorem Rbc.overrun_sym : r.overrun.sym = r.sym := rfl
@[simp] theorem Rbc.overrun_bitc : r.overrun.bitc = r.bitc := rfl
@[simp] theorem Rbc.overrun_q : r.overrun.q = r.q := rfl
@[simp] theorem Rbc.overrun_tick : r.overrun.tick = r.tick := rfl
@[simp] theorem Rbc.overrun_sh : r.overrun.sh = r.sh := rfl
@[simp] theorem Rbc.overrun_smp : r.overrun.smp = r.smp := rfl
@[simp] theorem Rbc.overrun_ok1 : r.overrun.ok1 = r.ok1 := rfl
@[simp] theorem Rbc.overrun_ok2 : r.overrun.ok2 = r.ok2 := rfl
@[simp] theorem Rbc.overrun_d0 : r.overrun.d0 = r.d0 := rfl
@[simp] theorem Rbc.overrun_d1 : r.overrun.d1 = r.d1 := rfl
@[simp] theorem Rbc.overrun_scl : r.overrun.scl = r.scl := rfl
@[simp] theorem Rbc.overrun_sda : r.overrun.sda = r.sda := rfl

/-! ### flagIllegal -/

@[simp] theorem Rbc.flagIllegal_done : r.flagIllegal.done = true := rfl
@[simp] theorem Rbc.flagIllegal_ok : r.flagIllegal.ok = false := rfl
@[simp] theorem Rbc.flagIllegal_present : r.flagIllegal.present = r.present := rfl
@[simp] theorem Rbc.flagIllegal_illegal : r.flagIllegal.illegal = true := rfl
@[simp] theorem Rbc.flagIllegal_ovr : r.flagIllegal.ovr = r.ovr := rfl
@[simp] theorem Rbc.flagIllegal_addr : r.flagIllegal.addr = r.addr := rfl
@[simp] theorem Rbc.flagIllegal_wdata : r.flagIllegal.wdata = r.wdata := rfl
@[simp] theorem Rbc.flagIllegal_data0 : r.flagIllegal.data0 = r.data0 := rfl
@[simp] theorem Rbc.flagIllegal_data1 : r.flagIllegal.data1 = r.data1 := rfl
@[simp] theorem Rbc.flagIllegal_phase : r.flagIllegal.phase = r.phase := rfl
@[simp] theorem Rbc.flagIllegal_opS : r.flagIllegal.opS = r.opS := rfl
@[simp] theorem Rbc.flagIllegal_addrS : r.flagIllegal.addrS = r.addrS := rfl
@[simp] theorem Rbc.flagIllegal_wdataS : r.flagIllegal.wdataS = r.wdataS := rfl
@[simp] theorem Rbc.flagIllegal_script : r.flagIllegal.script = r.script := rfl
@[simp] theorem Rbc.flagIllegal_sym : r.flagIllegal.sym = r.sym := rfl
@[simp] theorem Rbc.flagIllegal_bitc : r.flagIllegal.bitc = r.bitc := rfl
@[simp] theorem Rbc.flagIllegal_q : r.flagIllegal.q = r.q := rfl
@[simp] theorem Rbc.flagIllegal_tick : r.flagIllegal.tick = r.tick := rfl
@[simp] theorem Rbc.flagIllegal_sh : r.flagIllegal.sh = r.sh := rfl
@[simp] theorem Rbc.flagIllegal_smp : r.flagIllegal.smp = r.smp := rfl
@[simp] theorem Rbc.flagIllegal_ok1 : r.flagIllegal.ok1 = r.ok1 := rfl
@[simp] theorem Rbc.flagIllegal_ok2 : r.flagIllegal.ok2 = r.ok2 := rfl
@[simp] theorem Rbc.flagIllegal_d0 : r.flagIllegal.d0 = r.d0 := rfl
@[simp] theorem Rbc.flagIllegal_d1 : r.flagIllegal.d1 = r.d1 := rfl
@[simp] theorem Rbc.flagIllegal_scl : r.flagIllegal.scl = r.scl := rfl
@[simp] theorem Rbc.flagIllegal_sda : r.flagIllegal.sda = r.sda := rfl

/-! ### flagAccept -/

@[simp] theorem Rbc.flagAccept_done : r.flagAccept.done = false := rfl
@[simp] theorem Rbc.flagAccept_ok : r.flagAccept.ok = false := rfl
@[simp] theorem Rbc.flagAccept_present : r.flagAccept.present = r.present := rfl
@[simp] theorem Rbc.flagAccept_illegal : r.flagAccept.illegal = false := rfl
@[simp] theorem Rbc.flagAccept_ovr : r.flagAccept.ovr = r.ovr := rfl
@[simp] theorem Rbc.flagAccept_addr : r.flagAccept.addr = r.addr := rfl
@[simp] theorem Rbc.flagAccept_wdata : r.flagAccept.wdata = r.wdata := rfl
@[simp] theorem Rbc.flagAccept_data0 : r.flagAccept.data0 = r.data0 := rfl
@[simp] theorem Rbc.flagAccept_data1 : r.flagAccept.data1 = r.data1 := rfl
@[simp] theorem Rbc.flagAccept_phase : r.flagAccept.phase = r.phase := rfl
@[simp] theorem Rbc.flagAccept_opS : r.flagAccept.opS = r.opS := rfl
@[simp] theorem Rbc.flagAccept_addrS : r.flagAccept.addrS = r.addrS := rfl
@[simp] theorem Rbc.flagAccept_wdataS : r.flagAccept.wdataS = r.wdataS := rfl
@[simp] theorem Rbc.flagAccept_script : r.flagAccept.script = r.script := rfl
@[simp] theorem Rbc.flagAccept_sym : r.flagAccept.sym = r.sym := rfl
@[simp] theorem Rbc.flagAccept_bitc : r.flagAccept.bitc = r.bitc := rfl
@[simp] theorem Rbc.flagAccept_q : r.flagAccept.q = r.q := rfl
@[simp] theorem Rbc.flagAccept_tick : r.flagAccept.tick = r.tick := rfl
@[simp] theorem Rbc.flagAccept_sh : r.flagAccept.sh = r.sh := rfl
@[simp] theorem Rbc.flagAccept_smp : r.flagAccept.smp = r.smp := rfl
@[simp] theorem Rbc.flagAccept_ok1 : r.flagAccept.ok1 = r.ok1 := rfl
@[simp] theorem Rbc.flagAccept_ok2 : r.flagAccept.ok2 = r.ok2 := rfl
@[simp] theorem Rbc.flagAccept_d0 : r.flagAccept.d0 = r.d0 := rfl
@[simp] theorem Rbc.flagAccept_d1 : r.flagAccept.d1 = r.d1 := rfl
@[simp] theorem Rbc.flagAccept_scl : r.flagAccept.scl = r.scl := rfl
@[simp] theorem Rbc.flagAccept_sda : r.flagAccept.sda = r.sda := rfl

/-! ### flagAcceptProbe -/

@[simp] theorem Rbc.flagAcceptProbe_done : r.flagAcceptProbe.done = false := rfl
@[simp] theorem Rbc.flagAcceptProbe_ok : r.flagAcceptProbe.ok = false := rfl
@[simp] theorem Rbc.flagAcceptProbe_present : r.flagAcceptProbe.present = false := rfl
@[simp] theorem Rbc.flagAcceptProbe_illegal : r.flagAcceptProbe.illegal = false := rfl
@[simp] theorem Rbc.flagAcceptProbe_ovr : r.flagAcceptProbe.ovr = r.ovr := rfl
@[simp] theorem Rbc.flagAcceptProbe_addr : r.flagAcceptProbe.addr = r.addr := rfl
@[simp] theorem Rbc.flagAcceptProbe_wdata : r.flagAcceptProbe.wdata = r.wdata := rfl
@[simp] theorem Rbc.flagAcceptProbe_data0 : r.flagAcceptProbe.data0 = r.data0 := rfl
@[simp] theorem Rbc.flagAcceptProbe_data1 : r.flagAcceptProbe.data1 = r.data1 := rfl
@[simp] theorem Rbc.flagAcceptProbe_phase : r.flagAcceptProbe.phase = r.phase := rfl
@[simp] theorem Rbc.flagAcceptProbe_opS : r.flagAcceptProbe.opS = r.opS := rfl
@[simp] theorem Rbc.flagAcceptProbe_addrS : r.flagAcceptProbe.addrS = r.addrS := rfl
@[simp] theorem Rbc.flagAcceptProbe_wdataS : r.flagAcceptProbe.wdataS = r.wdataS := rfl
@[simp] theorem Rbc.flagAcceptProbe_script : r.flagAcceptProbe.script = r.script := rfl
@[simp] theorem Rbc.flagAcceptProbe_sym : r.flagAcceptProbe.sym = r.sym := rfl
@[simp] theorem Rbc.flagAcceptProbe_bitc : r.flagAcceptProbe.bitc = r.bitc := rfl
@[simp] theorem Rbc.flagAcceptProbe_q : r.flagAcceptProbe.q = r.q := rfl
@[simp] theorem Rbc.flagAcceptProbe_tick : r.flagAcceptProbe.tick = r.tick := rfl
@[simp] theorem Rbc.flagAcceptProbe_sh : r.flagAcceptProbe.sh = r.sh := rfl
@[simp] theorem Rbc.flagAcceptProbe_smp : r.flagAcceptProbe.smp = r.smp := rfl
@[simp] theorem Rbc.flagAcceptProbe_ok1 : r.flagAcceptProbe.ok1 = r.ok1 := rfl
@[simp] theorem Rbc.flagAcceptProbe_ok2 : r.flagAcceptProbe.ok2 = r.ok2 := rfl
@[simp] theorem Rbc.flagAcceptProbe_d0 : r.flagAcceptProbe.d0 = r.d0 := rfl
@[simp] theorem Rbc.flagAcceptProbe_d1 : r.flagAcceptProbe.d1 = r.d1 := rfl
@[simp] theorem Rbc.flagAcceptProbe_scl : r.flagAcceptProbe.scl = r.scl := rfl
@[simp] theorem Rbc.flagAcceptProbe_sda : r.flagAcceptProbe.sda = r.sda := rfl

/-! ### start -/

@[simp] theorem Rbc.start_done (op : BitVec 4) (sc : Script) : (r.start op sc).done = r.done := rfl
@[simp] theorem Rbc.start_ok (op : BitVec 4) (sc : Script) : (r.start op sc).ok = r.ok := rfl
@[simp] theorem Rbc.start_present (op : BitVec 4) (sc : Script) : (r.start op sc).present = r.present := rfl
@[simp] theorem Rbc.start_illegal (op : BitVec 4) (sc : Script) : (r.start op sc).illegal = r.illegal := rfl
@[simp] theorem Rbc.start_ovr (op : BitVec 4) (sc : Script) : (r.start op sc).ovr = r.ovr := rfl
@[simp] theorem Rbc.start_addr (op : BitVec 4) (sc : Script) : (r.start op sc).addr = r.addr := rfl
@[simp] theorem Rbc.start_wdata (op : BitVec 4) (sc : Script) : (r.start op sc).wdata = r.wdata := rfl
@[simp] theorem Rbc.start_data0 (op : BitVec 4) (sc : Script) : (r.start op sc).data0 = r.data0 := rfl
@[simp] theorem Rbc.start_data1 (op : BitVec 4) (sc : Script) : (r.start op sc).data1 = r.data1 := rfl
@[simp] theorem Rbc.start_phase (op : BitVec 4) (sc : Script) : (r.start op sc).phase = .run := rfl
@[simp] theorem Rbc.start_opS (op : BitVec 4) (sc : Script) : (r.start op sc).opS = op := rfl
@[simp] theorem Rbc.start_addrS (op : BitVec 4) (sc : Script) : (r.start op sc).addrS = r.addr := rfl
@[simp] theorem Rbc.start_wdataS (op : BitVec 4) (sc : Script) : (r.start op sc).wdataS = r.wdata := rfl
@[simp] theorem Rbc.start_script (op : BitVec 4) (sc : Script) : (r.start op sc).script = some sc := rfl
@[simp] theorem Rbc.start_sym (op : BitVec 4) (sc : Script) : (r.start op sc).sym = none := rfl
@[simp] theorem Rbc.start_bitc (op : BitVec 4) (sc : Script) : (r.start op sc).bitc = r.bitc := rfl
@[simp] theorem Rbc.start_q (op : BitVec 4) (sc : Script) : (r.start op sc).q = r.q := rfl
@[simp] theorem Rbc.start_tick (op : BitVec 4) (sc : Script) : (r.start op sc).tick = r.tick := rfl
@[simp] theorem Rbc.start_sh (op : BitVec 4) (sc : Script) : (r.start op sc).sh = r.sh := rfl
@[simp] theorem Rbc.start_smp (op : BitVec 4) (sc : Script) : (r.start op sc).smp = r.smp := rfl
@[simp] theorem Rbc.start_ok1 (op : BitVec 4) (sc : Script) : (r.start op sc).ok1 = r.ok1 := rfl
@[simp] theorem Rbc.start_ok2 (op : BitVec 4) (sc : Script) : (r.start op sc).ok2 = r.ok2 := rfl
@[simp] theorem Rbc.start_d0 (op : BitVec 4) (sc : Script) : (r.start op sc).d0 = r.d0 := rfl
@[simp] theorem Rbc.start_d1 (op : BitVec 4) (sc : Script) : (r.start op sc).d1 = r.d1 := rfl
@[simp] theorem Rbc.start_scl (op : BitVec 4) (sc : Script) : (r.start op sc).scl = r.scl := rfl
@[simp] theorem Rbc.start_sda (op : BitVec 4) (sc : Script) : (r.start op sc).sda = r.sda := rfl

/-! ### drive -/

@[simp] theorem Rbc.drive_done (p : Prim) : (r.drive p).done = r.done := rfl
@[simp] theorem Rbc.drive_ok (p : Prim) : (r.drive p).ok = r.ok := rfl
@[simp] theorem Rbc.drive_present (p : Prim) : (r.drive p).present = r.present := rfl
@[simp] theorem Rbc.drive_illegal (p : Prim) : (r.drive p).illegal = r.illegal := rfl
@[simp] theorem Rbc.drive_ovr (p : Prim) : (r.drive p).ovr = r.ovr := rfl
@[simp] theorem Rbc.drive_addr (p : Prim) : (r.drive p).addr = r.addr := rfl
@[simp] theorem Rbc.drive_wdata (p : Prim) : (r.drive p).wdata = r.wdata := rfl
@[simp] theorem Rbc.drive_data0 (p : Prim) : (r.drive p).data0 = r.data0 := rfl
@[simp] theorem Rbc.drive_data1 (p : Prim) : (r.drive p).data1 = r.data1 := rfl
@[simp] theorem Rbc.drive_phase (p : Prim) : (r.drive p).phase = r.phase := rfl
@[simp] theorem Rbc.drive_opS (p : Prim) : (r.drive p).opS = r.opS := rfl
@[simp] theorem Rbc.drive_addrS (p : Prim) : (r.drive p).addrS = r.addrS := rfl
@[simp] theorem Rbc.drive_wdataS (p : Prim) : (r.drive p).wdataS = r.wdataS := rfl
@[simp] theorem Rbc.drive_script (p : Prim) : (r.drive p).script = r.script := rfl
@[simp] theorem Rbc.drive_sym (p : Prim) : (r.drive p).sym = r.sym := rfl
@[simp] theorem Rbc.drive_bitc (p : Prim) : (r.drive p).bitc = r.bitc := rfl
@[simp] theorem Rbc.drive_q (p : Prim) : (r.drive p).q = r.q := rfl
@[simp] theorem Rbc.drive_tick (p : Prim) : (r.drive p).tick = r.tick := rfl
@[simp] theorem Rbc.drive_sh (p : Prim) : (r.drive p).sh = r.sh := rfl
@[simp] theorem Rbc.drive_smp (p : Prim) : (r.drive p).smp = r.smp := rfl
@[simp] theorem Rbc.drive_ok1 (p : Prim) : (r.drive p).ok1 = r.ok1 := rfl
@[simp] theorem Rbc.drive_ok2 (p : Prim) : (r.drive p).ok2 = r.ok2 := rfl
@[simp] theorem Rbc.drive_d0 (p : Prim) : (r.drive p).d0 = r.d0 := rfl
@[simp] theorem Rbc.drive_d1 (p : Prim) : (r.drive p).d1 = r.d1 := rfl
@[simp] theorem Rbc.drive_scl (p : Prim) : (r.drive p).scl = (driveOf p r.bitc r.q r.sh).1 := rfl
@[simp] theorem Rbc.drive_sda (p : Prim) : (r.drive p).sda = (driveOf p r.bitc r.q r.sh).2 := rfl

/-! ### nextQuarter -/

@[simp] theorem Rbc.nextQuarter_done (p : Prim) : (r.nextQuarter p).done = r.done := rfl
@[simp] theorem Rbc.nextQuarter_ok (p : Prim) : (r.nextQuarter p).ok = r.ok := rfl
@[simp] theorem Rbc.nextQuarter_present (p : Prim) : (r.nextQuarter p).present = r.present := rfl
@[simp] theorem Rbc.nextQuarter_illegal (p : Prim) : (r.nextQuarter p).illegal = r.illegal := rfl
@[simp] theorem Rbc.nextQuarter_ovr (p : Prim) : (r.nextQuarter p).ovr = r.ovr := rfl
@[simp] theorem Rbc.nextQuarter_addr (p : Prim) : (r.nextQuarter p).addr = r.addr := rfl
@[simp] theorem Rbc.nextQuarter_wdata (p : Prim) : (r.nextQuarter p).wdata = r.wdata := rfl
@[simp] theorem Rbc.nextQuarter_data0 (p : Prim) : (r.nextQuarter p).data0 = r.data0 := rfl
@[simp] theorem Rbc.nextQuarter_data1 (p : Prim) : (r.nextQuarter p).data1 = r.data1 := rfl
@[simp] theorem Rbc.nextQuarter_phase (p : Prim) : (r.nextQuarter p).phase = r.phase := rfl
@[simp] theorem Rbc.nextQuarter_opS (p : Prim) : (r.nextQuarter p).opS = r.opS := rfl
@[simp] theorem Rbc.nextQuarter_addrS (p : Prim) : (r.nextQuarter p).addrS = r.addrS := rfl
@[simp] theorem Rbc.nextQuarter_wdataS (p : Prim) : (r.nextQuarter p).wdataS = r.wdataS := rfl
@[simp] theorem Rbc.nextQuarter_script (p : Prim) : (r.nextQuarter p).script = r.script := rfl
@[simp] theorem Rbc.nextQuarter_sym (p : Prim) : (r.nextQuarter p).sym = r.sym := rfl
@[simp] theorem Rbc.nextQuarter_bitc (p : Prim) : (r.nextQuarter p).bitc = r.bitc := rfl
@[simp] theorem Rbc.nextQuarter_q (p : Prim) : (r.nextQuarter p).q = r.q + 1 := rfl
@[simp] theorem Rbc.nextQuarter_tick (p : Prim) : (r.nextQuarter p).tick = 0 := rfl
@[simp] theorem Rbc.nextQuarter_sh (p : Prim) : (r.nextQuarter p).sh = r.sh := rfl
@[simp] theorem Rbc.nextQuarter_smp (p : Prim) : (r.nextQuarter p).smp = r.smp := rfl
@[simp] theorem Rbc.nextQuarter_ok1 (p : Prim) : (r.nextQuarter p).ok1 = r.ok1 := rfl
@[simp] theorem Rbc.nextQuarter_ok2 (p : Prim) : (r.nextQuarter p).ok2 = r.ok2 := rfl
@[simp] theorem Rbc.nextQuarter_d0 (p : Prim) : (r.nextQuarter p).d0 = r.d0 := rfl
@[simp] theorem Rbc.nextQuarter_d1 (p : Prim) : (r.nextQuarter p).d1 = r.d1 := rfl
@[simp] theorem Rbc.nextQuarter_scl (p : Prim) : (r.nextQuarter p).scl = (driveOf p r.bitc (r.q + 1) r.sh).1 := rfl
@[simp] theorem Rbc.nextQuarter_sda (p : Prim) : (r.nextQuarter p).sda = (driveOf p r.bitc (r.q + 1) r.sh).2 := rfl

/-! ### nextCell -/

@[simp] theorem Rbc.nextCell_done (p : Prim) : (r.nextCell p).done = r.done := rfl
@[simp] theorem Rbc.nextCell_ok (p : Prim) : (r.nextCell p).ok = r.ok := rfl
@[simp] theorem Rbc.nextCell_present (p : Prim) : (r.nextCell p).present = r.present := rfl
@[simp] theorem Rbc.nextCell_illegal (p : Prim) : (r.nextCell p).illegal = r.illegal := rfl
@[simp] theorem Rbc.nextCell_ovr (p : Prim) : (r.nextCell p).ovr = r.ovr := rfl
@[simp] theorem Rbc.nextCell_addr (p : Prim) : (r.nextCell p).addr = r.addr := rfl
@[simp] theorem Rbc.nextCell_wdata (p : Prim) : (r.nextCell p).wdata = r.wdata := rfl
@[simp] theorem Rbc.nextCell_data0 (p : Prim) : (r.nextCell p).data0 = r.data0 := rfl
@[simp] theorem Rbc.nextCell_data1 (p : Prim) : (r.nextCell p).data1 = r.data1 := rfl
@[simp] theorem Rbc.nextCell_phase (p : Prim) : (r.nextCell p).phase = r.phase := rfl
@[simp] theorem Rbc.nextCell_opS (p : Prim) : (r.nextCell p).opS = r.opS := rfl
@[simp] theorem Rbc.nextCell_addrS (p : Prim) : (r.nextCell p).addrS = r.addrS := rfl
@[simp] theorem Rbc.nextCell_wdataS (p : Prim) : (r.nextCell p).wdataS = r.wdataS := rfl
@[simp] theorem Rbc.nextCell_script (p : Prim) : (r.nextCell p).script = r.script := rfl
@[simp] theorem Rbc.nextCell_sym (p : Prim) : (r.nextCell p).sym = r.sym := rfl
@[simp] theorem Rbc.nextCell_bitc (p : Prim) : (r.nextCell p).bitc = r.bitc + 1 := rfl
@[simp] theorem Rbc.nextCell_q (p : Prim) : (r.nextCell p).q = 0 := rfl
@[simp] theorem Rbc.nextCell_tick (p : Prim) : (r.nextCell p).tick = 0 := rfl
@[simp] theorem Rbc.nextCell_sh (p : Prim) : (r.nextCell p).sh = shiftCell p r.bitc r.sh r.smp := rfl
@[simp] theorem Rbc.nextCell_smp (p : Prim) : (r.nextCell p).smp = r.smp := rfl
@[simp] theorem Rbc.nextCell_ok1 (p : Prim) : (r.nextCell p).ok1 = r.ok1 := rfl
@[simp] theorem Rbc.nextCell_ok2 (p : Prim) : (r.nextCell p).ok2 = r.ok2 := rfl
@[simp] theorem Rbc.nextCell_d0 (p : Prim) : (r.nextCell p).d0 = r.d0 := rfl
@[simp] theorem Rbc.nextCell_d1 (p : Prim) : (r.nextCell p).d1 = r.d1 := rfl
@[simp] theorem Rbc.nextCell_scl (p : Prim) : (r.nextCell p).scl = (driveOf p (r.bitc + 1) 0 (shiftCell p r.bitc r.sh r.smp)).1 := rfl
@[simp] theorem Rbc.nextCell_sda (p : Prim) : (r.nextCell p).sda = (driveOf p (r.bitc + 1) 0 (shiftCell p r.bitc r.sh r.smp)).2 := rfl

/-! ### sample -/

@[simp] theorem Rbc.sample_done (l : Bool) : (r.sample l).done = r.done := rfl
@[simp] theorem Rbc.sample_ok (l : Bool) : (r.sample l).ok = r.ok := rfl
@[simp] theorem Rbc.sample_present (l : Bool) : (r.sample l).present = r.present := rfl
@[simp] theorem Rbc.sample_illegal (l : Bool) : (r.sample l).illegal = r.illegal := rfl
@[simp] theorem Rbc.sample_ovr (l : Bool) : (r.sample l).ovr = r.ovr := rfl
@[simp] theorem Rbc.sample_addr (l : Bool) : (r.sample l).addr = r.addr := rfl
@[simp] theorem Rbc.sample_wdata (l : Bool) : (r.sample l).wdata = r.wdata := rfl
@[simp] theorem Rbc.sample_data0 (l : Bool) : (r.sample l).data0 = r.data0 := rfl
@[simp] theorem Rbc.sample_data1 (l : Bool) : (r.sample l).data1 = r.data1 := rfl
@[simp] theorem Rbc.sample_phase (l : Bool) : (r.sample l).phase = r.phase := rfl
@[simp] theorem Rbc.sample_opS (l : Bool) : (r.sample l).opS = r.opS := rfl
@[simp] theorem Rbc.sample_addrS (l : Bool) : (r.sample l).addrS = r.addrS := rfl
@[simp] theorem Rbc.sample_wdataS (l : Bool) : (r.sample l).wdataS = r.wdataS := rfl
@[simp] theorem Rbc.sample_script (l : Bool) : (r.sample l).script = r.script := rfl
@[simp] theorem Rbc.sample_sym (l : Bool) : (r.sample l).sym = r.sym := rfl
@[simp] theorem Rbc.sample_bitc (l : Bool) : (r.sample l).bitc = r.bitc := rfl
@[simp] theorem Rbc.sample_q (l : Bool) : (r.sample l).q = r.q := rfl
@[simp] theorem Rbc.sample_tick (l : Bool) : (r.sample l).tick = r.tick := rfl
@[simp] theorem Rbc.sample_sh (l : Bool) : (r.sample l).sh = r.sh := rfl
@[simp] theorem Rbc.sample_smp (l : Bool) : (r.sample l).smp = (r.sda && l) := rfl
@[simp] theorem Rbc.sample_ok1 (l : Bool) : (r.sample l).ok1 = r.ok1 := rfl
@[simp] theorem Rbc.sample_ok2 (l : Bool) : (r.sample l).ok2 = r.ok2 := rfl
@[simp] theorem Rbc.sample_d0 (l : Bool) : (r.sample l).d0 = r.d0 := rfl
@[simp] theorem Rbc.sample_d1 (l : Bool) : (r.sample l).d1 = r.d1 := rfl
@[simp] theorem Rbc.sample_scl (l : Bool) : (r.sample l).scl = r.scl := rfl
@[simp] theorem Rbc.sample_sda (l : Bool) : (r.sample l).sda = r.sda := rfl

/-! ### complete -/

@[simp] theorem Rbc.complete_done (b : Bool) : (r.complete b).done = true := rfl
@[simp] theorem Rbc.complete_ok (b : Bool) : (r.complete b).ok = b := rfl
@[simp] theorem Rbc.complete_present (b : Bool) : (r.complete b).present = r.present := rfl
@[simp] theorem Rbc.complete_illegal (b : Bool) : (r.complete b).illegal = r.illegal := rfl
@[simp] theorem Rbc.complete_ovr (b : Bool) : (r.complete b).ovr = r.ovr := rfl
@[simp] theorem Rbc.complete_addr (b : Bool) : (r.complete b).addr = r.addr := rfl
@[simp] theorem Rbc.complete_wdata (b : Bool) : (r.complete b).wdata = r.wdata := rfl
@[simp] theorem Rbc.complete_data0 (b : Bool) : (r.complete b).data0 = r.data0 := rfl
@[simp] theorem Rbc.complete_data1 (b : Bool) : (r.complete b).data1 = r.data1 := rfl
@[simp] theorem Rbc.complete_phase (b : Bool) : (r.complete b).phase = .idle := rfl
@[simp] theorem Rbc.complete_opS (b : Bool) : (r.complete b).opS = r.opS := rfl
@[simp] theorem Rbc.complete_addrS (b : Bool) : (r.complete b).addrS = r.addrS := rfl
@[simp] theorem Rbc.complete_wdataS (b : Bool) : (r.complete b).wdataS = r.wdataS := rfl
@[simp] theorem Rbc.complete_script (b : Bool) : (r.complete b).script = none := rfl
@[simp] theorem Rbc.complete_sym (b : Bool) : (r.complete b).sym = none := rfl
@[simp] theorem Rbc.complete_bitc (b : Bool) : (r.complete b).bitc = 0 := rfl
@[simp] theorem Rbc.complete_q (b : Bool) : (r.complete b).q = 0 := rfl
@[simp] theorem Rbc.complete_tick (b : Bool) : (r.complete b).tick = 0 := rfl
@[simp] theorem Rbc.complete_sh (b : Bool) : (r.complete b).sh = r.sh := rfl
@[simp] theorem Rbc.complete_smp (b : Bool) : (r.complete b).smp = r.smp := rfl
@[simp] theorem Rbc.complete_ok1 (b : Bool) : (r.complete b).ok1 = r.ok1 := rfl
@[simp] theorem Rbc.complete_ok2 (b : Bool) : (r.complete b).ok2 = r.ok2 := rfl
@[simp] theorem Rbc.complete_d0 (b : Bool) : (r.complete b).d0 = r.d0 := rfl
@[simp] theorem Rbc.complete_d1 (b : Bool) : (r.complete b).d1 = r.d1 := rfl
@[simp] theorem Rbc.complete_scl (b : Bool) : (r.complete b).scl = r.scl := rfl
@[simp] theorem Rbc.complete_sda (b : Bool) : (r.complete b).sda = r.sda := rfl

end Sys2Proof.Machine
end

