-- ==== Sys2Proof/Laws/Outcome.lean ====
section
/-! SUPPORT. Sequencing, and what each instruction answers: every meaning answers a next state, whatever the state. -/

namespace Sys2Proof.Machine

@[simp] theorem andThen_next (s : State) (f : State → Host.Outcome State Fault Refusal) : andThen (.next s) f = f s := rfl

@[simp] theorem andThen_fault (r : Fault) (f : State → Host.Outcome State Fault Refusal) :
    andThen (.fault r) f = .fault r := rfl

@[simp] theorem andThen_refused (r : Refusal) (f : State → Host.Outcome State Fault Refusal) :
    andThen (.refused r) f = .refused r := rfl

/-- A sequence answers a next state when both parts do. -/
theorem andThen_eq_next {o : Host.Outcome State Fault Refusal} {f : State → Host.Outcome State Fault Refusal} {t : State} :
    andThen o f = .next t ↔ ∃ s, o = .next s ∧ f s = .next t := by
  cases o <;> simp

/-- A sequence faults where a part does. -/
theorem andThen_eq_fault {o : Host.Outcome State Fault Refusal} {f : State → Host.Outcome State Fault Refusal} {r : Fault} :
    andThen o f = .fault r ↔ o = .fault r ∨ ∃ s, o = .next s ∧ f s = .fault r := by
  cases o <;> simp

/-- The two cases of every write of `RBC_CMD` (R131, R133). -/
theorem rbcUnlessBusy_eq (s : State) (f : Rbc → Rbc) :
    rbcUnlessBusy s f = .next (s.setRbc (if s.rbc.busy then s.rbc.overrun else f s.rbc)) := by
  unfold rbcUnlessBusy
  split <;> rfl

theorem rbcUnlessBusy_idle {s : State} (h : s.rbc.busy = false) (f : Rbc → Rbc) :
    rbcUnlessBusy s f = .next (s.setRbc (f s.rbc)) := by
  simp [rbcUnlessBusy, h]

theorem rbcUnlessBusy_busy {s : State} (h : s.rbc.busy = true) (f : Rbc → Rbc) :
    rbcUnlessBusy s f = .next (s.setRbc s.rbc.overrun) := by
  simp [rbcUnlessBusy, h]

theorem capUnlessBusy_idle {s : State} (h : s.cap.busy = false) (f : State → Host.Outcome State Fault Refusal) :
    capUnlessBusy s f = f s := by
  simp [capUnlessBusy, h]

theorem capUnlessBusy_busy {s : State} (h : s.cap.busy = true) (f : State → Host.Outcome State Fault Refusal) :
    capUnlessBusy s f = .next (s.setCap s.cap.overrun) := by
  simp [capUnlessBusy, h]

theorem beginSla_busy {s : State} (h : s.rbc.busy = true) (rw : Bool) :
    beginSla rw s = .next (s.setRbc (s.rbc.beginPrim (.writeByte (slaByte rw)))) := by
  simp [beginSla, h]

/-! ## The command registers -/

/-- `decode_rbc` has these outcomes and no other (R85). -/
theorem decodeRbc_cases (v : Word) :
    decodeRbc v = .instr .nop ∨ decodeRbc v = .instr .rd ∨ decodeRbc v = .instr .wr ∨ decodeRbc v = .instr .probe ∨
      ∃ e, decodeRbc v = .illegal e := by
  unfold decodeRbc
  split_ifs
  · simp
  · split <;> simp

/-- `decode_cap` has these outcomes and no other (R85). -/
theorem decodeCap_cases (v : Word) :
    decodeCap v = .instr .cnop ∨ decodeCap v = .instr .capture ∨ ∃ e, decodeCap v = .illegal e := by
  unfold decodeCap
  split_ifs
  · simp
  · split <;> simp

/-- The effect of a write of `RBC_CMD` on the register client (R131, R225): the checks in their order. -/
def Rbc.afterCommand (r : Rbc) (v : Word) : Rbc :=
  if r.busy then r.overrun
  else
    match decodeRbc v with
    | .instr .rd => r.flagAccept.start 0x1 (.rd .start)
    | .instr .wr => r.flagAccept.start 0x2 (.wr .start)
    | .instr .probe => r.flagAcceptProbe.start 0x3 (.idHigh .start)
    | .instr _ => r
    | .illegal _ => r.flagIllegal

/-- A write of `RBC_CMD` replaces the register client and nothing else. -/
theorem rbcCommand_next (v : Word) (s : State) : rbcCommand v s = .next (s.setRbc (s.rbc.afterCommand v)) := by
  rcases decodeRbc_cases v with h | h | h | h | ⟨e, h⟩ <;>
    simp [rbcCommand, Rbc.afterCommand, h, exec, execNop, execRd, execWr, execProbe, rbcIllegal, rbcUnlessBusy_eq]

/-- The effect of a write of `CAP_CMD` on the capture engine (R164 to R166, R225): the checks in their order. -/
def Cap.afterCommand (c : Cap) (v : Word) : Cap :=
  if c.busy then c.overrun
  else
    match decodeCap v with
    | .instr .capture => if c.rangeIllegal then c.flagIllegal else c.start
    | .instr _ => c
    | .illegal _ => c.flagIllegal

/-- `memOld` when the capture engine has become `c`: the frame buffer where that is the acceptance of a CAPTURE, else what it was. -/
def State.oldAfter (s : State) (c : Cap) : Memory := if !s.cap.busy && c.busy then s.mem else s.memOld

theorem State.oldAfter_busy {s : State} (h : s.cap.busy = true) (c : Cap) : s.oldAfter c = s.memOld := by simp [State.oldAfter, h]

theorem State.oldAfter_idle {s : State} {c : Cap} (h : c.busy = false) : s.oldAfter c = s.memOld := by simp [State.oldAfter, h]

/-- The frame buffer is remembered where an idle engine starts. -/
theorem State.oldAfter_starts {s : State} {c : Cap} (h : s.cap.busy = false) (hc : c.busy = true) : s.oldAfter c = s.mem := by
  simp [State.oldAfter, h, hc]

/-- A write of `CAP_CMD` replaces the capture engine, and remembers the frame buffer when a CAPTURE is accepted. -/
theorem capCommand_next (v : Word) (s : State) :
    capCommand v s = .next ((s.setCap (s.cap.afterCommand v)).setMemOld (s.oldAfter (s.cap.afterCommand v))) := by
  rcases hb : s.cap.busy with _ | _
  · rcases decodeCap_cases v with h | h | ⟨e, h⟩
    · have hc : s.cap.afterCommand v = s.cap := by simp [Cap.afterCommand, hb, h]
      rw [hc, State.oldAfter_idle hb]
      simp only [capCommand, h, exec, execCnop, capUnlessBusy_idle hb]
      rfl
    · rcases hr : s.cap.rangeIllegal with _ | _
      · have hc : s.cap.afterCommand v = s.cap.start := by simp [Cap.afterCommand, hb, h, hr]
        rw [hc, State.oldAfter_starts hb rfl]
        simp [capCommand, h, exec, execCapture, capUnlessBusy_idle hb, hr]
      · have hc : s.cap.afterCommand v = s.cap.flagIllegal := by simp [Cap.afterCommand, hb, h, hr]
        rw [hc, State.oldAfter_idle (show s.cap.flagIllegal.busy = false from hb)]
        simp only [capCommand, h, exec, execCapture, capUnlessBusy_idle hb, hr, if_true, capRefuse]
        rfl
    · have hc : s.cap.afterCommand v = s.cap.flagIllegal := by simp [Cap.afterCommand, hb, h]
      rw [hc, State.oldAfter_idle (show s.cap.flagIllegal.busy = false from hb)]
      simp only [capCommand, h, capIllegal, capUnlessBusy_idle hb, capRefuse]
      rfl
  · have hc : s.cap.afterCommand v = s.cap.overrun := by simp [Cap.afterCommand, hb]
    rw [hc, State.oldAfter_busy hb]
    rcases decodeCap_cases v with h | h | ⟨e, h⟩ <;>
      simp only [capCommand, h, exec, execCnop, execCapture, capIllegal, capUnlessBusy_busy hb] <;> rfl

/-- No instruction ends in a fault or a refusal, whatever the state. -/
theorem exec_next (i : Instr) (s : State) : ∃ t, exec i s = .next t := by
  cases i <;>
    simp only [exec, execNop, execRd, execWr, execProbe, execCnop, execCapture, execSlaW, execSlaR, rbcUnlessBusy,
      capUnlessBusy, capRefuse, beginSla] <;>
    repeat' split
  all_goals exact ⟨_, rfl⟩

end Sys2Proof.Machine
end

