-- ==== Sys2Proof/Laws/Engine.lean ====
section
/-! SUPPORT. The register-client engine: what each clock edge does, case by case, and the invariant it keeps. -/

namespace Sys2Proof.Machine

/-! ## SLA bytes -/

theorem slaByte_eq (rw : Bool) : slaByte rw = if rw then 0x43 else 0x42 := by cases rw <;> decide

theorem decodeSla_slaByte (rw : Bool) : decodeSla (slaByte rw) = .instr (if rw then .slaR else .slaW) := by
  cases rw <;> decide

theorem exec_sla (rw : Bool) (s : State) : exec (if rw then .slaR else .slaW) s = beginSla rw s := by cases rw <;> rfl

/-- Where a script sends an SLA byte, the primitive there is `WriteByte` of it. -/
theorem Script.primAt_sla {pos : Script} {rw : Bool} (h : pos.sla = some rw) (r : Rbc) :
    primAt r pos = .writeByte (slaByte rw) := by
  rcases pos with p | p | p | p <;> cases p <;> simp_all [Script.sla, primAt, ReadPos.prim, WritePos.prim]

/-- Running the decoded SLA byte begins the primitive of the script, so that a busy engine begins every position alike. -/
theorem beginAt_busy (pos : Script) {s : State} (h : s.rbc.busy = true) :
    beginAt pos s = .next (s.setRbc (Rbc.beginPrim { s.rbc with script := some pos } (primAt s.rbc pos))) := by
  unfold beginAt
  split
  · next rw hsla =>
    have hb : (s.setRbc { s.rbc with script := some pos }).rbc.busy = true := h
    rw [decodeSla_slaByte]
    simp only [exec_sla, beginSla_busy hb, Script.primAt_sla hsla]
    rfl
  · rfl

/-! ## The end of a primitive -/

@[simp] theorem Rbc.keepByte_phase (r : Rbc) (pos : Script) : (r.keepByte pos).phase = r.phase := by
  unfold Rbc.keepByte; split <;> rfl

@[simp] theorem Rbc.keepResult_phase (r : Rbc) (pos : Script) : (r.keepResult pos).phase = r.phase := by
  unfold Rbc.keepResult; split <;> rfl

/-- The register client after a primitive has ended: the next primitive begun, or the command complete. -/
def Rbc.afterPrim (always : Bool) (n : Nat) (pos : Script) (p : Prim) (r : Rbc) : Rbc :=
  match pos.after always (primResult p r) with
  | some pos' =>
    Rbc.beginPrim { (r.keepByte pos).keepResult pos with script := some pos' }
      (primAt ((r.keepByte pos).keepResult pos) pos')
  | none => completeAt n ((r.keepByte pos).keepResult pos) pos

theorem primEnd_busy (pos : Script) (p : Prim) {s : State} (h : s.rbc.busy = true) :
    primEnd pos p s =
      .next ((s.setTrace (s.trace ++ [primSym p s.rbc])).setRbc
        (s.rbc.afterPrim s.params.probeAlwaysBoth s.edge pos p)) := by
  cases hpos : pos.after s.params.probeAlwaysBoth (primResult p s.rbc) with
  | none => simp only [primEnd, Rbc.afterPrim, hpos]; rfl
  | some pos' =>
    have hb : ((s.setTrace (s.trace ++ [primSym p s.rbc])).setRbc
        ((s.rbc.keepByte pos).keepResult pos)).rbc.busy = true := by
      simpa [Rbc.busy] using h
    simp only [primEnd, Rbc.afterPrim, hpos, beginAt_busy pos' hb]
    rfl

/-! ## The shift register from cell to cell -/

/-- A byte written has been shifted left once for each data cell before (R108). -/
theorem cellSh_write (b b0 : Byte) (smp : Nat → Bool) {k : Nat} (h : k ≤ 8) : cellSh (.writeByte b) smp b0 k = b0 <<< k := by
  induction k with
  | zero => simp [cellSh]
  | succ k ih =>
    have hk : Fin.ofNat 9 k ≠ 8 := by
      intro he
      have := congrArg Fin.val he
      simp only [Fin.ofNat, Nat.mod_eq_of_lt (by omega : k < 9)] at this
      change k = 8 at this
      omega
    rw [cellSh, ih (by omega), shiftCell, if_neg hk, ← BitVec.shiftLeft_add]

/-! ## One clock edge, case by case -/

/-- The first edge after acceptance begins the script (R131). -/
theorem rbcEdge_begin {s : State} {pos : Script} (hb : s.rbc.busy = true) (hs : s.rbc.script = some pos)
    (hy : s.rbc.sym = none) :
    rbcEdge s = .next (s.setRbc (Rbc.beginPrim { s.rbc with script := some pos } (primAt s.rbc pos))) := by
  simp [rbcEdge, hs, hy, beginAt_busy pos hb]

/-- Within a quarter-step only the tick moves (R101). -/
theorem rbcEdge_tick {s : State} {pos : Script} {p : Prim} (hs : s.rbc.script = some pos) (hy : s.rbc.sym = some p)
    (ht : s.rbc.tick < s.params.tqMinus1) :
    rbcEdge s = .next (s.setRbc { s.rbc with tick := s.rbc.tick + 1 }) := by
  simp [rbcEdge, hs, hy, ht]

/-- The last edge of a quarter-step ends it (R101). -/
theorem rbcEdge_quarter {s : State} {pos : Script} {p : Prim} (hs : s.rbc.script = some pos) (hy : s.rbc.sym = some p)
    (ht : ¬ s.rbc.tick < s.params.tqMinus1) : rbcEdge s = quarterEnd pos p s := by
  simp [rbcEdge, hs, hy, ht]

/-- A condition that has quarter-steps left. -/
theorem quarterEnd_condition {pos : Script} {p : Prim} {s : State} (hp : p.isByte = false) (hq : s.rbc.q < p.lastQ) :
    quarterEnd pos p s = .next (s.setRbc (s.rbc.nextQuarter p)) := by
  simp [quarterEnd, hp, hq]

/-- A condition that has ended. -/
theorem quarterEnd_condition_end {pos : Script} {p : Prim} {s : State} (hp : p.isByte = false)
    (hq : ¬ s.rbc.q < p.lastQ) : quarterEnd pos p s = primEnd pos p s := by
  simp [quarterEnd, hp, hq]

/-- The sample of a bit cell (R104). -/
theorem quarterEnd_sample {pos : Script} {p : Prim} {s : State} (hp : p.isByte = true) (hq : s.rbc.q = 1) :
    quarterEnd pos p s =
      .next ((s.setRbc ((s.rbc.sample (slaveLevel s)).nextQuarter p)).setSlave s.slave.tail) := by
  simp [quarterEnd, hp, hq, sampleCell, State.setRbc, State.setSlave]

/-- The other quarter-steps of a bit cell, but the last. -/
theorem quarterEnd_cell {pos : Script} {p : Prim} {s : State} (hp : p.isByte = true) (h1 : s.rbc.q ≠ 1)
    (h3 : s.rbc.q ≠ 3) : quarterEnd pos p s = .next (s.setRbc (s.rbc.nextQuarter p)) := by
  simp [quarterEnd, hp, h1, h3]

/-- The end of a bit cell that is not the byte's last. -/
theorem quarterEnd_nextCell {pos : Script} {p : Prim} {s : State} (hp : p.isByte = true) (h3 : s.rbc.q = 3)
    (h8 : s.rbc.bitc ≠ 8) : quarterEnd pos p s = .next (s.setRbc (s.rbc.nextCell p)) := by
  simp [quarterEnd, hp, h3, h8]

/-- The end of a byte. -/
theorem quarterEnd_byte_end {pos : Script} {p : Prim} {s : State} (hp : p.isByte = true) (h3 : s.rbc.q = 3)
    (h8 : s.rbc.bitc = 8) :
    quarterEnd pos p s = primEnd pos p (s.setRbc { s.rbc with sh := shiftCell p 8 s.rbc.sh s.rbc.smp }) := by
  simp [quarterEnd, hp, h3, h8]

/-! ## The frame of the engine -/

/-- The engine changes the register client, the slave's levels to come and the trace, and nothing else. -/
def sameButBus (s t : State) : Prop := t = ((s.setRbc t.rbc).setSlave t.slave).setTrace t.trace

theorem quarterEnd_frame (pos : Script) (p : Prim) {s : State} (hb : s.rbc.busy = true) :
    ∃ t, quarterEnd pos p s = .next t ∧ sameButBus s t := by
  unfold quarterEnd
  split_ifs
  · exact ⟨_, rfl, rfl⟩
  · exact ⟨_, primEnd_busy pos p (by simpa [Rbc.busy] using hb), rfl⟩
  · exact ⟨_, rfl, rfl⟩
  · exact ⟨_, rfl, rfl⟩
  · exact ⟨_, rfl, rfl⟩
  · exact ⟨_, primEnd_busy pos p hb, rfl⟩

/-- A running engine with a script answers a next state, and changes only its own part. -/
theorem rbcEdge_frame {s : State} (hb : s.rbc.busy = true) {pos : Script} (hs : s.rbc.script = some pos) :
    ∃ t, rbcEdge s = .next t ∧ sameButBus s t := by
  rcases hy : s.rbc.sym with _ | p
  · exact ⟨_, rbcEdge_begin hb hs hy, rfl⟩
  · by_cases ht : s.rbc.tick < s.params.tqMinus1
    · exact ⟨_, rbcEdge_tick hs hy ht, rfl⟩
    · rw [rbcEdge_quarter hs hy ht]
      exact quarterEnd_frame pos p hb

/-! ## The engine keeps the register client's invariant -/

/-- What the invariant says of a running engine. -/
theorem Rbc.good_run {tq1 : Nat} {r : Rbc} (hb : r.busy = true) (h : r.good tq1 = true) :
    r.done = false ∧ r.ok = false ∧ r.illegal = false ∧
      ∃ pos, r.script = some pos ∧ pos.op = r.opS ∧
        ((r.sym = none ∧ pos.isFirst = true ∧ r.scl = true ∧ r.sda = true) ∨
          ∃ p, r.sym = some p ∧ r.inPrim tq1 pos p = true) := by
  have hp : r.phase = .run := by simpa [Rbc.busy] using hb
  unfold Rbc.good at h
  rw [hp] at h
  rcases hs : r.script with _ | pos
  · simp [hs] at h
  · rcases hy : r.sym with _ | p
    · simp_all
    · simp_all

theorem Rbc.inPrim_iff {tq1 : Nat} {r : Rbc} {pos : Script} {p : Prim} :
    r.inPrim tq1 pos p = true ↔
      p = primAt r pos ∧ r.tick ≤ tq1 ∧ r.q ≤ p.lastQ ∧ (p.isByte = false → r.bitc = 0) ∧
        (r.scl, r.sda) = driveOf p r.bitc r.q r.sh := by
  simp only [Rbc.inPrim, Bool.and_eq_true, beq_iff_eq, decide_eq_true_eq, Bool.or_eq_true, and_assoc]
  cases p.isByte <;> simp

/-- An engine in the middle of a primitive of its script meets the invariant. -/
theorem Rbc.good_of_inPrim {tq1 : Nat} {r : Rbc} {pos : Script} {p : Prim} (hp : r.phase = .run) (hd : r.done = false)
    (ho : r.ok = false) (hi : r.illegal = false) (hs : r.script = some pos) (hop : pos.op = r.opS)
    (hy : r.sym = some p) (h : r.inPrim tq1 pos p = true) : r.good tq1 = true := by
  unfold Rbc.good
  simp [hp, hd, ho, hi, hs, hop, hy, h]

theorem Rbc.beginPrim_inPrim (tq1 : Nat) (r : Rbc) (pos : Script) :
    (r.beginPrim (primAt r pos)).inPrim tq1 pos (primAt r pos) = true := by
  rw [Rbc.inPrim_iff]
  refine ⟨?_, Nat.zero_le _, Fin.zero_le _, fun _ => rfl, rfl⟩
  cases pos <;> rfl

theorem Rbc.nextQuarter_inPrim {tq1 : Nat} {r : Rbc} {pos : Script} {p : Prim} (h : r.inPrim tq1 pos p = true)
    (hq : r.q + 1 ≤ p.lastQ) : (r.nextQuarter p).inPrim tq1 pos p = true := by
  rw [Rbc.inPrim_iff] at h ⊢
  refine ⟨?_, Nat.zero_le _, hq, h.2.2.2.1, rfl⟩
  rw [h.1]; cases pos <;> rfl

theorem Rbc.nextCell_inPrim {tq1 : Nat} {r : Rbc} {pos : Script} {p : Prim} (h : r.inPrim tq1 pos p = true)
    (hp : p.isByte = true) : (r.nextCell p).inPrim tq1 pos p = true := by
  rw [Rbc.inPrim_iff] at h ⊢
  refine ⟨?_, Nat.zero_le _, Fin.zero_le _, by simp [hp], rfl⟩
  rw [h.1]; cases pos <;> rfl

/-- The script's next position belongs to the same command. -/
theorem Script.after_op {always acked : Bool} {pos pos' : Script} (h : pos.after always acked = some pos') :
    pos'.op = pos.op := by
  rcases pos with p | p | p | p
  · rcases p with _ | _ | _ | _ | _ | _ | ok <;> simp [Script.after, ReadPos.after] at h <;> subst h <;> rfl
  · rcases p with _ | _ | _ | _ | _ | _ | ok <;> simp [Script.after, ReadPos.after] at h
    case stop => obtain ⟨_, rfl⟩ := h; rfl
    all_goals subst h; rfl
  · rcases p with _ | _ | _ | _ | _ | _ | ok <;> simp [Script.after, ReadPos.after] at h <;> subst h <;> rfl
  · rcases p with _ | _ | _ | _ | ok <;> simp [Script.after, WritePos.after] at h <;> subst h <;> rfl

/-- A script ends at a stop condition only. -/
theorem Script.after_none {always acked : Bool} {pos : Script} (h : pos.after always acked = none) (r : Rbc) :
    primAt r pos = .stop := by
  rcases pos with p | p | p | p
  · rcases p with _ | _ | _ | _ | _ | _ | ok <;> simp [Script.after, ReadPos.after] at h
    rfl
  · rcases p with _ | _ | _ | _ | _ | _ | ok <;> simp [Script.after, ReadPos.after] at h
    rfl
  · rcases p with _ | _ | _ | _ | _ | _ | ok <;> simp [Script.after, ReadPos.after] at h
    rfl
  · rcases p with _ | _ | _ | _ | ok <;> simp [Script.after, WritePos.after] at h
    rfl

/-- What the end of a primitive keeps in the registers leaves the sequencer alone. -/
theorem Rbc.keep_fields (r : Rbc) (pos : Script) :
    ((r.keepByte pos).keepResult pos).done = r.done ∧ ((r.keepByte pos).keepResult pos).ok = r.ok ∧
      ((r.keepByte pos).keepResult pos).illegal = r.illegal ∧ ((r.keepByte pos).keepResult pos).opS = r.opS ∧
      ((r.keepByte pos).keepResult pos).scl = r.scl ∧ ((r.keepByte pos).keepResult pos).sda = r.sda := by
  unfold Rbc.keepResult Rbc.keepByte
  split <;> split <;> simp

/-- A completed command leaves the engine idle with the lines as they were, done, and not illegal. -/
theorem completeAt_fields (n : Nat) (r : Rbc) (pos : Script) :
    (completeAt n r pos).phase = .idle ∧ (completeAt n r pos).script = none ∧ (completeAt n r pos).sym = none ∧
      (completeAt n r pos).scl = r.scl ∧ (completeAt n r pos).sda = r.sda ∧ (completeAt n r pos).done = true ∧
      (completeAt n r pos).illegal = r.illegal := by
  unfold completeAt
  split <;> simp [completeRd, completeWr, completeProbe]

/-- The end of a primitive keeps the invariant; `scl`, `sda` are what its last quarter-step drove. -/
theorem Rbc.afterPrim_good {tq1 : Nat} {always : Bool} {n : Nat} {pos : Script} {p : Prim} {r : Rbc}
    (hph : r.phase = .run) (hd : r.done = false) (ho : r.ok = false) (hi : r.illegal = false) (hop : pos.op = r.opS)
    (hp : p = primAt r pos) (hstop : p = .stop → r.scl = true ∧ r.sda = true) :
    (r.afterPrim always n pos p).good tq1 = true := by
  obtain ⟨k1, k2, k3, k4, k5, k6⟩ := r.keep_fields pos
  unfold Rbc.afterPrim
  split
  · next pos' h =>
    refine Rbc.good_of_inPrim (pos := pos') (p := primAt ((r.keepByte pos).keepResult pos) pos') ?_ ?_ ?_ ?_ rfl ?_ rfl ?_
    · show ((r.keepByte pos).keepResult pos).phase = .run
      simpa using hph
    · exact k1.trans hd
    · exact k2.trans ho
    · exact k3.trans hi
    · exact (Script.after_op h).trans (hop.trans k4.symm)
    · have := Rbc.beginPrim_inPrim tq1 { (r.keepByte pos).keepResult pos with script := some pos' } pos'
      have hsame : primAt { (r.keepByte pos).keepResult pos with script := some pos' } pos' =
          primAt ((r.keepByte pos).keepResult pos) pos' := by cases pos' <;> rfl
      rwa [hsame] at this
  · next h =>
    obtain ⟨c1, c2, c3, c4, c5, c6, c7⟩ := completeAt_fields n ((r.keepByte pos).keepResult pos) pos
    obtain ⟨l1, l2⟩ := hstop (hp.trans (Script.after_none h r))
    unfold Rbc.good
    simp [c1, c2, c3, c4, c5, c6, c7, k5, k6, k3, hi, l1, l2]

theorem Prim.byte_of_not (p : Prim) (h : p.isByte = true) : p.lastQ = 3 ∧ p ≠ .stop := by
  cases p <;> simp_all [Prim.isByte, Prim.lastQ]

/-- ONE EDGE OF THE ENGINE KEEPS THE REGISTER CLIENT'S INVARIANT. -/
theorem rbcEdge_good {s t : State} (hb : s.rbc.busy = true) (h : s.rbc.good s.params.tqMinus1 = true)
    (hst : rbcEdge s = .next t) : t.rbc.good s.params.tqMinus1 = true := by
  have hrun : s.rbc.phase = .run := by simpa [Rbc.busy] using hb
  obtain ⟨hd, ho, hi, pos, hs, hop, ⟨hy, hfirst, hc, ha⟩ | ⟨p, hy, hin⟩⟩ := Rbc.good_run hb h
  · rw [rbcEdge_begin hb hs hy] at hst
    injection hst with hst
    subst hst
    refine Rbc.good_of_inPrim (pos := pos) (p := primAt s.rbc pos) hrun hd ho hi rfl hop rfl ?_
    have := Rbc.beginPrim_inPrim s.params.tqMinus1 { s.rbc with script := some pos } pos
    have hsame : primAt { s.rbc with script := some pos } pos = primAt s.rbc pos := by cases pos <;> rfl
    rwa [hsame] at this
  · have hin' := Rbc.inPrim_iff.1 hin
    by_cases ht : s.rbc.tick < s.params.tqMinus1
    · rw [rbcEdge_tick hs hy ht] at hst
      injection hst with hst
      subst hst
      refine Rbc.good_of_inPrim (pos := pos) (p := p) hrun hd ho hi hs hop hy ?_
      rw [Rbc.inPrim_iff]
      refine ⟨?_, ht, hin'.2.2.1, hin'.2.2.2.1, hin'.2.2.2.2⟩
      exact hin'.1.trans (by cases pos <;> rfl)
    · rw [rbcEdge_quarter hs hy ht] at hst
      rcases hbyte : p.isByte with _ | _
      · by_cases hq : s.rbc.q < p.lastQ
        · rw [quarterEnd_condition hbyte hq] at hst
          injection hst with hst
          subst hst
          refine Rbc.good_of_inPrim (pos := pos) (p := p) hrun hd ho hi hs hop hy (Rbc.nextQuarter_inPrim hin ?_)
          revert hq; cases p <;> simp [Prim.lastQ] <;> generalize s.rbc.q = q <;> revert q <;> decide
        · rw [quarterEnd_condition_end hbyte hq, primEnd_busy pos p hb] at hst
          injection hst with hst
          subst hst
          refine Rbc.afterPrim_good hrun hd ho hi hop hin'.1 ?_
          intro hp
          subst hp
          have hq2 : s.rbc.q = 2 := le_antisymm hin'.2.2.1 (not_lt.1 hq)
          have := hin'.2.2.2.2
          rw [hq2] at this
          simpa [driveOf] using this
      · obtain ⟨hl, hns⟩ := Prim.byte_of_not p hbyte
        by_cases h1 : s.rbc.q = 1
        · rw [quarterEnd_sample hbyte h1] at hst
          injection hst with hst
          subst hst
          refine Rbc.good_of_inPrim (pos := pos) (p := p) hrun hd ho hi hs hop hy ?_
          refine Rbc.nextQuarter_inPrim (r := s.rbc.sample (slaveLevel s)) ?_ (by simp [h1, hl])
          rw [Rbc.inPrim_iff]
          exact ⟨hin'.1.trans (by cases pos <;> rfl), hin'.2⟩
        · by_cases h3 : s.rbc.q = 3
          · by_cases h8 : s.rbc.bitc = 8
            · rw [quarterEnd_byte_end hbyte h3 h8, primEnd_busy pos p (by simpa [Rbc.busy] using hb)] at hst
              injection hst with hst
              subst hst
              refine Rbc.afterPrim_good (r := { s.rbc with sh := shiftCell p 8 s.rbc.sh s.rbc.smp }) hrun hd ho hi hop
                (hin'.1.trans (by cases pos <;> rfl)) (fun h => absurd h hns)
            · rw [quarterEnd_nextCell hbyte h3 h8] at hst
              injection hst with hst
              subst hst
              exact Rbc.good_of_inPrim (pos := pos) (p := p) hrun hd ho hi hs hop hy (Rbc.nextCell_inPrim hin hbyte)
          · rw [quarterEnd_cell hbyte h1 h3] at hst
            injection hst with hst
            subst hst
            refine Rbc.good_of_inPrim (pos := pos) (p := p) hrun hd ho hi hs hop hy (Rbc.nextQuarter_inPrim hin ?_)
            rw [hl]
            revert h1 h3; generalize s.rbc.q = q; revert q; decide

end Sys2Proof.Machine
end

