-- ==== Sys2Proof/Laws/Memory.lean ====
section
/-! SUPPORT. The frame buffer: read after write, and the canonical form. -/

namespace Sys2Proof.Machine

@[simp] theorem Memory.get_nil (a : Nat) : Memory.get [] a = none := rfl

theorem Memory.get_set_same (m : Memory) (a : Nat) (v : Byte) : (m.set a v).get a = some v := by
  induction m with
  | nil => simp [Memory.set, Memory.get]
  | cons c rest ih =>
    obtain ⟨k, b⟩ := c
    simp only [Memory.set]
    split
    · simp [Memory.get]
    · split
      · simp [Memory.get]
      · next h1 h2 => simp [Memory.get, Ne.symm h2, ih]

theorem Memory.get_set_other (m : Memory) {a x : Nat} (v : Byte) (h : x ≠ a) : (m.set a v).get x = m.get x := by
  induction m with
  | nil => simp [Memory.set, Memory.get, Ne.symm h]
  | cons c rest ih =>
    obtain ⟨k, b⟩ := c
    simp only [Memory.set]
    split
    · simp [Memory.get, Ne.symm h]
    · split
      · next h2 => subst h2; simp [Memory.get, Ne.symm h]
      · simp [Memory.get, ih]

theorem Memory.get_set (m : Memory) (a x : Nat) (v : Byte) :
    (m.set a v).get x = if x = a then some v else m.get x := by
  split
  · next h => subst h; exact m.get_set_same x v
  · next h => exact m.get_set_other v h

theorem Memory.view_set (m : Memory) (a x : Nat) (v : Byte) :
    (m.set a v).view x = if x = a then v else m.view x := by
  simp only [Memory.view, Memory.get_set]
  split <;> rfl

theorem Memory.risingFrom_set {lo : Option Nat} {m : Memory} {a : Nat} (v : Byte)
    (hm : Memory.risingFrom lo m = true) (ha : ∀ l, lo = some l → l < a) :
    Memory.risingFrom lo (m.set a v) = true := by
  induction m generalizing lo with
  | nil => cases lo <;> simp_all [Memory.set, Memory.risingFrom]
  | cons c rest ih =>
    obtain ⟨k, b⟩ := c
    simp only [Memory.risingFrom, Bool.and_eq_true] at hm
    simp only [Memory.set]
    split
    · next h => cases lo <;> simp_all [Memory.risingFrom]
    · split
      · next h => subst h; simp_all [Memory.risingFrom]
      · next h1 h2 =>
        simp only [Memory.risingFrom, Bool.and_eq_true]
        exact ⟨hm.1, ih hm.2 (by intro l hl; simp only [Option.some.injEq] at hl; omega)⟩

/-- Every memory operation keeps the canonical form: `Memory.set` is the only one. -/
theorem Memory.wf_set {m : Memory} (hm : m.wf = true) (a : Nat) (v : Byte) : (m.set a v).wf = true :=
  Memory.risingFrom_set v hm (by simp)

theorem Memory.inSpace_set {m : Memory} (hm : m.inSpace = true) {a : Nat} (ha : a < Config.fbBytes) (v : Byte) :
    (m.set a v).inSpace = true := by
  induction m with
  | nil => simp [Memory.set, Memory.inSpace, ha]
  | cons c rest ih =>
    obtain ⟨k, b⟩ := c
    simp only [Memory.inSpace, List.all_cons, Bool.and_eq_true, decide_eq_true_eq] at hm ih ⊢
    simp only [Memory.set]
    split
    · simpa [ha] using hm
    · split
      · simpa [ha] using hm.2
      · simpa [hm.1] using ih hm.2

/-- `State.reset`'s memory is in canonical form. -/
theorem State.reset_mem_wf : State.reset.mem.wf = true := by decide

/-- Canonical memories with the same bytes are the same data. -/
theorem Memory.get_none_of_le {lo : Nat} {m : Memory} (hm : Memory.risingFrom (some lo) m = true) {a : Nat} (ha : a ≤ lo) :
    m.get a = none := by
  induction m generalizing lo with
  | nil => rfl
  | cons c rest ih =>
    obtain ⟨k, b⟩ := c
    simp only [Memory.risingFrom, Bool.and_eq_true, decide_eq_true_eq] at hm
    have hk : k ≠ a := by omega
    simp only [Memory.get, hk, if_false]
    exact ih hm.2 (by omega)

/-- Everything `memWrite` can do. -/
theorem memWrite_eq_next {a : Nat} {v : Byte} {s t : State} :
    memWrite a v s = .next t ↔
      a < Config.fbBytes ∧ t = (s.setFb ⟨true, BitVec.ofNat 32 a, v⟩).setMem (s.mem.set a v) := by
  unfold memWrite
  split <;> simp_all [eq_comm]

end Sys2Proof.Machine
end

