-- ==== Sys2Proof/Laws/CapEngine.lean ====
section
/-! SUPPORT. The capture engine: its frame, and the invariant it keeps. -/

namespace Sys2Proof.Machine

/-- Everything the engine can do at an edge: replace its own state, or also store one byte, inside the space and at the address
of the pixel it is at (R163, R169). -/
theorem capOn_cases {x : Sample} {s t : State} (h : capOn x s = .next t) :
    t = s.setCap t.cap ∨
      (s.cap.phase = .pixWaitHigh ∧ x.pc = true ∧ s.cap.pixelAddr < Config.fbBytes ∧
        t = ((s.setCap (s.cap.goto .pixWaitLow)).setFb ⟨true, BitVec.ofNat 32 s.cap.pixelAddr, x.d⟩).setMem
          (s.mem.set s.cap.pixelAddr x.d)) := by
  unfold capOn at h
  split at h
  case h_6 hp =>
    unfold capPixWaitHigh at h
    split at h
    · next hx =>
      rw [memWrite_eq_next] at h
      exact .inr ⟨hp, hx, h.1, h.2⟩
    · injection h with h; subst h; exact .inl rfl
  all_goals
    try simp only [capVsDrain, capVsWaitHigh, capVsWaitFall, capRowWaitStart, capPixWaitLow, capRowWaitEnd] at h
    first
      | (injection h with h; subst h; exact .inl rfl)
      | (split_ifs at h <;> injection h with h <;> subst h <;> exact .inl rfl)

/-- The engine stops only where its store would pass the top of the space. -/
theorem capOn_fault {x : Sample} {s : State} {r : Fault} (h : capOn x s = .fault r) :
    s.cap.phase = .pixWaitHigh ∧ Config.fbBytes ≤ s.cap.pixelAddr := by
  unfold capOn at h
  split at h
  case h_6 hp =>
    unfold capPixWaitHigh at h
    split at h
    · unfold memWrite at h
      split at h
      · simp at h
      · next hx => exact ⟨hp, by simpa [Cap.pixelAddr, Cap.goto] using hx⟩
    · simp at h
  all_goals
    try simp only [capVsDrain, capVsWaitHigh, capVsWaitFall, capRowWaitStart, capPixWaitLow, capRowWaitEnd] at h
    first
      | (split_ifs at h)
      | (simp at h)

/-- The engine refuses nothing. -/
theorem capOn_not_refused (x : Sample) (s : State) (r : Refusal) : capOn x s ≠ .refused r := by
  intro h
  unfold capOn at h
  split at h
  all_goals
    try simp only [capVsDrain, capVsWaitHigh, capVsWaitFall, capRowWaitStart, capPixWaitHigh, capPixWaitLow, capRowWaitEnd,
      memWrite] at h
    first
      | (split_ifs at h)
      | (simp at h)

/-! ## The invariant -/

theorem Cap.bufferFits_iff {c : Cap} :
    c.bufferFits = true ↔ c.wS.toNat * c.hS.toNat = 0 ∨ c.baseS.toNat + c.wS.toNat * c.hS.toNat ≤ Config.fbBytes := by
  simp [Cap.bufferFits]

/-- `row * w + col` lies below `w * h` where the row and the column do (R177). -/
theorem pixel_lt {row col w h : Nat} (hr : row < h) (hc : col < w) : row * w + col < w * h := by
  calc row * w + col < row * w + w := by omega
    _ = w * (row + 1) := by rw [Nat.mul_add, Nat.mul_comm w row, Nat.mul_one]
    _ ≤ w * h := Nat.mul_le_mul_left w hr

/-- A pixel's address is inside the buffer, and so below 2^32 (R173, R177). -/
theorem Cap.pixelAddr_lt {c : Cap} (hf : c.bufferFits = true) (hr : c.row.toNat < c.hS.toNat)
    (hc : c.col.toNat < c.wS.toNat) :
    c.pixelAddr < c.baseS.toNat + c.wS.toNat * c.hS.toNat ∧ c.pixelAddr < Config.fbBytes := by
  have h1 := pixel_lt hr hc
  rw [Cap.bufferFits_iff] at hf
  unfold Cap.pixelAddr
  constructor <;> omega

theorem Cap.good_iff {c : Cap} :
    c.good = true ↔
      c.posGood = true ∧ (c.phase ≠ .idle → c.bufferFits = true ∧ c.done = false ∧ c.illegal = false) := by
  cases h : c.phase <;> simp [Cap.good, Cap.busy, h, and_assoc]

theorem dim_succ {a b : Dim} (h : a.toNat < b.toNat) : (a + 1).toNat = a.toNat + 1 := by
  have := b.isLt
  rw [BitVec.toNat_add]
  simp
  omega

theorem dim_eq_of_toNat {a b : Dim} (h : a.toNat = b.toNat) : a = b := BitVec.eq_of_toNat_eq h

/-- ONE SAMPLE KEEPS THE CAPTURE ENGINE'S INVARIANT. -/
theorem capOn_good {x : Sample} {s t : State} (hg : s.cap.good = true) (h : capOn x s = .next t) : t.cap.good = true := by
  rw [Cap.good_iff] at hg ⊢
  obtain ⟨hpos, hrun⟩ := hg
  unfold capOn at h
  unfold Cap.posGood at hpos
  split at h
  · injection h with h; subst h; exact ⟨by unfold Cap.posGood; exact hpos, hrun⟩
  · next hp =>
    simp only [hp] at hpos
    simp only [hp, ne_eq, reduceCtorEq, not_false_eq_true, forall_const] at hrun
    unfold capVsDrain at h
    split_ifs at h <;> injection h with h <;> subst h
    · exact ⟨by simpa [Cap.posGood, hp] using hpos, fun _ => hrun⟩
    · exact ⟨by simpa [Cap.posGood, Cap.goto] using hpos, fun _ => hrun⟩
  · next hp =>
    simp only [hp] at hpos
    simp only [hp, ne_eq, reduceCtorEq, not_false_eq_true, forall_const] at hrun
    unfold capVsWaitHigh at h
    split_ifs at h <;> injection h with h <;> subst h
    · exact ⟨by simpa [Cap.posGood, Cap.goto] using hpos, fun _ => hrun⟩
    · exact ⟨by simpa [Cap.posGood, hp] using hpos, fun _ => hrun⟩
  · next hp =>
    simp only [hp] at hpos
    simp only [hp, ne_eq, reduceCtorEq, not_false_eq_true, forall_const] at hrun
    unfold capVsWaitFall at h
    split_ifs at h with h1 h2 <;> injection h with h <;> subst h
    · exact ⟨by simpa [Cap.posGood, hp] using hpos, fun _ => hrun⟩
    · refine ⟨?_, by simp [Cap.complete]⟩
      simp only [Bool.and_eq_true, beq_iff_eq] at hpos
      simp [Cap.posGood, Cap.complete, hpos, h2]
    · refine ⟨?_, fun _ => hrun⟩
      simp only [Bool.and_eq_true, beq_iff_eq] at hpos
      have : s.cap.hS.toNat ≠ 0 := fun h0 => h2 (BitVec.eq_of_toNat_eq (by simpa using h0))
      simp [Cap.posGood, Cap.goto, hpos]
      omega
  · next hp =>
    simp only [hp] at hpos
    simp only [hp, ne_eq, reduceCtorEq, not_false_eq_true, forall_const] at hrun
    simp only [Bool.and_eq_true, decide_eq_true_eq, beq_iff_eq] at hpos
    unfold capRowWaitStart at h
    split_ifs at h with h1 h2 <;> injection h with h <;> subst h
    · exact ⟨by simp [Cap.posGood, Cap.goto, hpos, h2], fun _ => hrun⟩
    · have : s.cap.wS.toNat ≠ 0 := fun h0 => h2 (BitVec.eq_of_toNat_eq (by simpa using h0))
      exact ⟨by simp [Cap.posGood, Cap.goto, hpos]; omega, fun _ => hrun⟩
    · exact ⟨by simp [Cap.posGood, hp, hpos], fun _ => hrun⟩
  · next hp =>
    simp only [hp] at hpos
    simp only [hp, ne_eq, reduceCtorEq, not_false_eq_true, forall_const] at hrun
    simp only [Bool.and_eq_true, decide_eq_true_eq] at hpos
    unfold capPixWaitHigh at h
    split_ifs at h with h1
    · rw [memWrite_eq_next] at h
      obtain ⟨_, rfl⟩ := h
      exact ⟨by simp [Cap.posGood, Cap.goto, hpos], fun _ => hrun⟩
    · injection h with h
      subst h
      exact ⟨by simp [Cap.posGood, hp, hpos], fun _ => hrun⟩
  · next hp =>
    simp only [hp] at hpos
    simp only [hp, ne_eq, reduceCtorEq, not_false_eq_true, forall_const] at hrun
    simp only [Bool.and_eq_true, decide_eq_true_eq] at hpos
    unfold capPixWaitLow at h
    split_ifs at h with h1 h2 <;> injection h with h <;> subst h
    · exact ⟨by simp [Cap.posGood, hp, hpos], fun _ => hrun⟩
    · have := dim_succ hpos.2
      refine ⟨?_, fun _ => hrun⟩
      exact Bool.and_eq_true_iff.2 ⟨decide_eq_true hpos.1, decide_eq_true (this ▸ h2)⟩
    · have hcol : s.cap.col + 1 = s.cap.wS := dim_eq_of_toNat (by have := dim_succ hpos.2; omega)
      refine ⟨?_, fun _ => hrun⟩
      exact Bool.and_eq_true_iff.2 ⟨decide_eq_true hpos.1, beq_iff_eq.2 hcol⟩
  · next hp =>
    simp only [hp] at hpos
    simp only [hp, ne_eq, reduceCtorEq, not_false_eq_true, forall_const] at hrun
    simp only [Bool.and_eq_true, decide_eq_true_eq, beq_iff_eq] at hpos
    unfold capRowWaitEnd at h
    split_ifs at h with h1 h2 <;> injection h with h <;> subst h
    · exact ⟨by simp [Cap.posGood, hp, hpos], fun _ => hrun⟩
    · have := dim_succ hpos.1
      refine ⟨?_, fun _ => hrun⟩
      exact Bool.and_eq_true_iff.2 ⟨decide_eq_true (this ▸ h2), rfl⟩
    · have := dim_succ hpos.1
      refine ⟨?_, by simp [Cap.complete]⟩
      simp only [Cap.posGood, Cap.complete, State.setCap_cap, Bool.and_eq_true, beq_iff_eq]
      exact ⟨dim_eq_of_toNat (by omega), trivial⟩

end Sys2Proof.Machine
end

