-- ==== Sys2Proof/Laws/Edge.lean ====
section
/-! SUPPORT. One clock edge: what the host's accesses leave, and the one inversion lemma of `step`. -/

namespace Sys2Proof.Machine

/-! ## Host accesses -/

/-- What a cycle's host access leaves of the register client (R62, R131). -/
def Rbc.afterAccess (r : Rbc) (a : Option HostAccess) : Rbc :=
  match a with
  | some (.write off v) => if off.toNat = 0 then r.afterCommand v else r.writeReg off v
  | _ => r

/-- What a cycle's host access leaves of the capture engine (R62, R164 to R166). -/
def Cap.afterAccess (c : Cap) (a : Option HostAccess) : Cap :=
  match a with
  | some (.write off v) => if off.toNat = 0 then c.afterCommand v else c.writeReg off v
  | _ => c

theorem rbcAccess_next (a : Option HostAccess) (s : State) :
    rbcAccess a s = .next (s.setRbc (s.rbc.afterAccess a)) := by
  unfold rbcAccess Rbc.afterAccess
  split
  · rfl
  · rfl
  · simp only
    split
    · exact rbcCommand_next _ _
    · rfl

theorem capAccess_next (a : Option HostAccess) (s : State) :
    capAccess a s = .next ((s.setCap (s.cap.afterAccess a)).setMemOld (s.oldAfter (s.cap.afterAccess a))) := by
  have hsame : ∀ c : Cap, c.busy = s.cap.busy → s.oldAfter c = s.memOld := by
    intro c h
    rcases hb : s.cap.busy with _ | _
    · exact State.oldAfter_idle (by rw [h, hb])
    · exact State.oldAfter_busy hb c
  unfold capAccess Cap.afterAccess
  split
  · rw [hsame _ rfl]; rfl
  · rw [hsame _ rfl]; rfl
  · next off v =>
    simp only
    split
    · exact capCommand_next _ _
    · rw [hsame _ (by unfold Cap.writeReg; split <;> rfl)]; rfl

/-- Both host accesses of a cycle: each block's own window, and the frame buffer remembered at the acceptance of a CAPTURE. -/
theorem hostEdge_next (c : HostCycle) (s : State) :
    hostEdge c s =
      .next (((s.setRbc (s.rbc.afterAccess c.rbc)).setCap (s.cap.afterAccess c.cap)).setMemOld
        (s.oldAfter (s.cap.afterAccess c.cap))) := by
  unfold hostEdge
  rw [rbcAccess_next, andThen_next]
  exact capAccess_next c.cap (s.setRbc (s.rbc.afterAccess c.rbc))

/-- A host access does not disturb a running command: it can only set flags and operand registers (R64, R133). -/
theorem Rbc.afterAccess_busy {r : Rbc} (h : r.busy = true) (a : Option HostAccess) :
    ∃ ov ad wd, r.afterAccess a = { r with ovr := ov, addr := ad, wdata := wd } := by
  unfold Rbc.afterAccess
  split
  · split
    · exact ⟨true, r.addr, r.wdata, by simp [Rbc.afterCommand, h, Rbc.overrun]⟩
    · unfold Rbc.writeReg
      split
      · exact ⟨_, r.addr, r.wdata, rfl⟩
      · exact ⟨r.ovr, _, r.wdata, rfl⟩
      · exact ⟨r.ovr, r.addr, _, rfl⟩
      · exact ⟨r.ovr, r.addr, r.wdata, rfl⟩
  · exact ⟨r.ovr, r.addr, r.wdata, rfl⟩

/-- The same of a running capture (R64, R166). -/
theorem Cap.afterAccess_busy {c : Cap} (h : c.busy = true) (a : Option HostAccess) :
    ∃ ov b w ht, c.afterAccess a = { c with ovr := ov, base := b, width := w, height := ht } := by
  unfold Cap.afterAccess
  split
  · split
    · exact ⟨true, c.base, c.width, c.height, by simp [Cap.afterCommand, h, Cap.overrun]⟩
    · unfold Cap.writeReg
      split
      · exact ⟨_, c.base, c.width, c.height, rfl⟩
      · exact ⟨c.ovr, _, c.width, c.height, rfl⟩
      · exact ⟨c.ovr, c.base, _, c.height, rfl⟩
      · exact ⟨c.ovr, c.base, c.width, _, rfl⟩
      · exact ⟨c.ovr, c.base, c.width, c.height, rfl⟩
  · exact ⟨c.ovr, c.base, c.width, c.height, rfl⟩

/-! ## The step -/

/-- The state after the host accesses of an ordinary cycle, before the engines. -/
def hostDone (s : State) : State :=
  (((openEdge s.now s).setRbc (s.rbc.afterAccess s.now.rbc)).setCap (s.cap.afterAccess s.now.cap)).setMemOld
    (s.oldAfter (s.cap.afterAccess s.now.cap))

/-- THE INVERSION OF `step`: a next state comes of a reset edge, or of the host accesses followed by the engines that were
running and the synchronisers. -/
theorem step_cases {s t : State} (h : step s = .next t) :
    accessOk s.now.rbc = true ∧ accessOk s.now.cap = true ∧
      ((s.now.rst = true ∧ t = resetEdge s.now s) ∨
        (s.now.rst = false ∧
          ∃ s1, runRbc s (hostDone s) = .next s1 ∧ ∃ s2, runCap s s1 = .next s2 ∧ t = closeEdge s2)) := by
  unfold step clockEdge at h
  split at h
  · next hok =>
    simp only [Bool.and_eq_true] at hok
    refine ⟨hok.1, hok.2, ?_⟩
    split at h
    · next hr => injection h with h; exact .inl ⟨hr, h.symm⟩
    · next hr =>
      refine .inr ⟨by simpa using hr, ?_⟩
      rw [hostEdge_next, andThen_next] at h
      unfold finishEdge at h
      obtain ⟨s1, h1, h⟩ := andThen_eq_next.1 h
      obtain ⟨s2, h2, h⟩ := andThen_eq_next.1 h
      injection h with h
      exact ⟨s1, h1, s2, h2, h.symm⟩
  · simp at h

/-- An ordinary cycle runs the host accesses, then the engines. -/
theorem step_ordinary {s : State} (h : s.now.ordinary = true) :
    step s = finishEdge s (hostDone s) := by
  simp only [HostCycle.ordinary, Bool.and_eq_true, Bool.not_eq_true'] at h
  unfold step clockEdge
  rw [h.1.2, h.2, h.1.1]
  simp only [Bool.and_self, if_true, Bool.false_eq_true, if_false]
  rw [hostEdge_next, andThen_next]
  rfl

/-- The engine after the host accesses of the same edge: nothing, if it was idle before the edge. -/
theorem runRbc_idle {s : State} (h : s.rbc.busy = false) (x : State) : runRbc s x = .next x := by simp [runRbc, h]

theorem runRbc_busy {s : State} (h : s.rbc.busy = true) (x : State) : runRbc s x = rbcEdge x := by simp [runRbc, h]

theorem runCap_idle {s : State} (h : s.cap.busy = false) (x : State) : runCap s x = .next x := by simp [runCap, h]

theorem runCap_busy {s : State} (h : s.cap.busy = true) (x : State) : runCap s x = capOn x.cap.sync2 x := by
  simp [runCap, h, capEdge]

/-! ## Fields through an edge -/

@[simp] theorem openEdge_rbc (c : HostCycle) (s : State) : (openEdge c s).rbc = s.rbc := rfl
@[simp] theorem openEdge_cap (c : HostCycle) (s : State) : (openEdge c s).cap = s.cap := rfl
@[simp] theorem openEdge_mem (c : HostCycle) (s : State) : (openEdge c s).mem = s.mem := rfl
@[simp] theorem openEdge_memOld (c : HostCycle) (s : State) : (openEdge c s).memOld = s.memOld := rfl
@[simp] theorem openEdge_params (c : HostCycle) (s : State) : (openEdge c s).params = s.params := rfl
@[simp] theorem openEdge_slave (c : HostCycle) (s : State) : (openEdge c s).slave = s.slave := rfl
@[simp] theorem openEdge_video (c : HostCycle) (s : State) : (openEdge c s).video = s.video := rfl
@[simp] theorem openEdge_edge (c : HostCycle) (s : State) : (openEdge c s).edge = s.edge := rfl
@[simp] theorem openEdge_trace (c : HostCycle) (s : State) : (openEdge c s).trace = s.trace := rfl
@[simp] theorem openEdge_host (c : HostCycle) (s : State) : (openEdge c s).host = s.hostAfter := rfl
@[simp] theorem openEdge_fb_we (c : HostCycle) (s : State) : (openEdge c s).fb.we = false := rfl

@[simp] theorem closeEdge_rbc (s : State) : (closeEdge s).rbc = s.rbc := rfl
@[simp] theorem closeEdge_cap (s : State) : (closeEdge s).cap = s.cap.shiftSync (videoLevel s) := rfl
@[simp] theorem closeEdge_mem (s : State) : (closeEdge s).mem = s.mem := rfl
@[simp] theorem closeEdge_memOld (s : State) : (closeEdge s).memOld = s.memOld := rfl
@[simp] theorem closeEdge_params (s : State) : (closeEdge s).params = s.params := rfl
@[simp] theorem closeEdge_slave (s : State) : (closeEdge s).slave = s.slave := rfl
@[simp] theorem closeEdge_video (s : State) : (closeEdge s).video = s.video.tail := rfl
@[simp] theorem closeEdge_edge (s : State) : (closeEdge s).edge = s.edge + 1 := rfl
@[simp] theorem closeEdge_trace (s : State) : (closeEdge s).trace = s.trace := rfl
@[simp] theorem closeEdge_host (s : State) : (closeEdge s).host = s.host := rfl
@[simp] theorem closeEdge_fb (s : State) : (closeEdge s).fb = s.fb := rfl
@[simp] theorem closeEdge_readRbc (s : State) : (closeEdge s).readRbc = s.readRbc := rfl
@[simp] theorem closeEdge_readCap (s : State) : (closeEdge s).readCap = s.readCap := rfl
@[simp] theorem closeEdge_readFb (s : State) : (closeEdge s).readFb = s.readFb := rfl

/-! ## The invariant through the host's accesses -/

theorem Rbc.afterCommand_good {tq1 : Nat} {r : Rbc} (h : r.good tq1 = true) (v : Word) :
    (r.afterCommand v).good tq1 = true := by
  unfold Rbc.afterCommand
  rcases hb : r.phase with _ | _
  · have hbusy : r.busy = false := by simp [Rbc.busy, hb]
    simp only [hbusy, Bool.false_eq_true, if_false]
    unfold Rbc.good at h
    simp only [hb, Bool.and_eq_true] at h
    split <;> simp_all [Rbc.good, Rbc.start, Rbc.flagAccept, Rbc.flagAcceptProbe, Rbc.flagIllegal, Rbc.snapshot, Script.op,
      Script.isFirst]
  · have hbusy : r.busy = true := by simp [Rbc.busy, hb]
    simp only [hbusy, if_true]
    unfold Rbc.good at h ⊢
    simp only [Rbc.overrun, hb] at h ⊢
    exact h

theorem Rbc.writeReg_good {tq1 : Nat} {r : Rbc} (h : r.good tq1 = true) (off v : Word) :
    (r.writeReg off v).good tq1 = true := by
  unfold Rbc.writeReg
  split <;> exact h

theorem Rbc.afterAccess_good {tq1 : Nat} {r : Rbc} (h : r.good tq1 = true) (a : Option HostAccess) :
    (r.afterAccess a).good tq1 = true := by
  unfold Rbc.afterAccess
  split
  · split
    · exact Rbc.afterCommand_good h _
    · exact Rbc.writeReg_good h _ _
  · exact h

theorem Cap.start_good {c : Cap} (h : c.rangeIllegal = false) : c.start.good = true := by
  rw [Cap.good_iff]
  refine ⟨rfl, fun _ => ⟨?_, rfl, rfl⟩⟩
  rw [Cap.bufferFits_iff]
  simp only [Cap.rangeIllegal, Bool.and_eq_false_iff, decide_eq_false_iff_not, not_lt] at h
  simp only [Cap.start, Cap.snapshot, Cap.flagAccept]
  omega

theorem Cap.good_of_same {c d : Cap} (h : c.good = true) (h1 : d.phase = c.phase) (h2 : d.row = c.row)
    (h3 : d.col = c.col) (h4 : d.baseS = c.baseS) (h5 : d.wS = c.wS) (h6 : d.hS = c.hS)
    (h7 : c.phase ≠ .idle → d.done = c.done ∧ d.illegal = c.illegal) : d.good = true := by
  rw [Cap.good_iff] at h ⊢
  refine ⟨by simpa [Cap.posGood, h1, h2, h3, h5, h6] using h.1, fun hp => ?_⟩
  rw [h1] at hp
  obtain ⟨hf, hd, hi⟩ := h.2 hp
  refine ⟨by simpa [Cap.bufferFits, h4, h5, h6] using hf, ?_⟩
  rw [(h7 hp).1, (h7 hp).2]
  exact ⟨hd, hi⟩

theorem Cap.afterAccess_good {c : Cap} (h : c.good = true) (a : Option HostAccess) : (c.afterAccess a).good = true := by
  unfold Cap.afterAccess
  split
  · split
    · unfold Cap.afterCommand
      split
      · exact Cap.good_of_same h rfl rfl rfl rfl rfl rfl (fun _ => ⟨rfl, rfl⟩)
      · next hb =>
        have hidle : c.phase = .idle := by simpa [Cap.busy] using hb
        split
        · split
          · exact Cap.good_of_same h rfl rfl rfl rfl rfl rfl (fun hp => absurd hidle hp)
          · next hr => exact Cap.start_good (by simpa using hr)
        · exact h
        · exact Cap.good_of_same h rfl rfl rfl rfl rfl rfl (fun hp => absurd hidle hp)
    · unfold Cap.writeReg
      split <;> exact Cap.good_of_same h rfl rfl rfl rfl rfl rfl (fun _ => ⟨rfl, rfl⟩)
  · exact h

theorem rbcAfterReset_good (tq1 n : Nat) : (rbcAfterReset n).good tq1 = true := rfl

theorem capAfterReset_good (n : Nat) : (capAfterReset n).good = true := rfl

/-! ## Parts of the state through one edge -/

/-- What the register client is after an ordinary edge: its host access, then its engine if it was running. -/
theorem runRbc_frame {s : State} (hg : s.rbc.good s.params.tqMinus1 = true) :
    ∃ s1, runRbc s (hostDone s) = .next s1 ∧ sameButBus (hostDone s) s1 := by
  rcases hb : s.rbc.busy with _ | _
  · exact ⟨_, runRbc_idle hb _, rfl⟩
  · obtain ⟨_, _, _, pos, hs, _⟩ := Rbc.good_run hb hg
    obtain ⟨ov, ad, wd, ha⟩ := Rbc.afterAccess_busy hb s.now.rbc
    have hx : (hostDone s).rbc = { s.rbc with ovr := ov, addr := ad, wdata := wd } := ha
    obtain ⟨t, ht, hf⟩ := rbcEdge_frame (s := hostDone s) (pos := pos) (by rw [hx]; exact hb) (by rw [hx]; exact hs)
    exact ⟨t, by rw [runRbc_busy hb]; exact ht, hf⟩

/-- The register client's invariant through an ordinary edge. -/
theorem runRbc_good {s : State} (hg : s.rbc.good s.params.tqMinus1 = true) {s1 : State}
    (h : runRbc s (hostDone s) = .next s1) : s1.rbc.good s.params.tqMinus1 = true := by
  have hd : (hostDone s).rbc.good s.params.tqMinus1 = true := Rbc.afterAccess_good hg _
  rcases hb : s.rbc.busy with _ | _
  · rw [runRbc_idle hb] at h
    injection h with h
    subst h
    exact hd
  · rw [runRbc_busy hb] at h
    obtain ⟨ov, ad, wd, ha⟩ := Rbc.afterAccess_busy hb s.now.rbc
    have hx : (hostDone s).rbc = { s.rbc with ovr := ov, addr := ad, wdata := wd } := ha
    exact rbcEdge_good (s := hostDone s) (by rw [hx]; exact hb) hd h

end Sys2Proof.Machine
end

