-- ==== Sys2Proof/Laws/Parts.lean ====
section
/-! SUPPORT. One edge, part by part: what a step makes of each block as a function of that block and its own inputs. -/

namespace Sys2Proof.Machine

/-! ## The register client's part -/

/-- The register client at the end of the ACK cell of a byte (R108, R109). -/
def Rbc.lastCell (r : Rbc) (p : Prim) : Rbc := { r with sh := shiftCell p 8 r.sh r.smp }

/-- What the engine of a running register client makes of one edge: the block, the symbols that join the trace, and whether a level
of the slave is used up. -/
def Rbc.edge (par : Config.Params) (n : Nat) (level : Bool) (r : Rbc) : Rbc × List BusSym × Bool :=
  match r.script with
  | none => (r, [], false)
  | some pos =>
    match r.sym with
    | none => (Rbc.beginPrim { r with script := some pos } (primAt r pos), [], false)
    | some p =>
      if r.tick < par.tqMinus1 then ({ r with tick := r.tick + 1 }, [], false)
      else if p.isByte then
        if r.q = 1 then ((r.sample level).nextQuarter p, [], true)
        else if r.q = 3 then
          if r.bitc = 8 then
            ((r.lastCell p).afterPrim par.probeAlwaysBoth n pos p, [primSym p (r.lastCell p)], false)
          else (r.nextCell p, [], false)
        else (r.nextQuarter p, [], false)
      else if r.q < p.lastQ then (r.nextQuarter p, [], false)
      else (r.afterPrim par.probeAlwaysBoth n pos p, [primSym p r], false)

/-- `rbcEdge` is that function put back into the state. -/
theorem rbcEdge_eq {s : State} (hb : s.rbc.busy = true) {pos : Script} (hs : s.rbc.script = some pos) :
    rbcEdge s = .next (((s.setRbc (s.rbc.edge s.params s.edge (slaveLevel s)).1).setTrace
      (s.trace ++ (s.rbc.edge s.params s.edge (slaveLevel s)).2.1)).setSlave
        (if (s.rbc.edge s.params s.edge (slaveLevel s)).2.2 then s.slave.tail else s.slave)) := by
  have same (r : Rbc) : s.setRbc r = ((s.setRbc r).setTrace (s.trace ++ [])).setSlave s.slave := by
    simp [State.setRbc, State.setTrace, State.setSlave]
  rcases hy : s.rbc.sym with _ | p
  · rw [rbcEdge_begin hb hs hy]
    simp only [Rbc.edge, hs, hy]
    exact congrArg _ (same _)
  · by_cases ht : s.rbc.tick < s.params.tqMinus1
    · rw [rbcEdge_tick hs hy ht]
      simp only [Rbc.edge, hs, hy, ht, if_true]
      exact congrArg _ (same _)
    · rw [rbcEdge_quarter hs hy ht]
      rcases hbyte : p.isByte with _ | _
      · by_cases hq : s.rbc.q < p.lastQ
        · rw [quarterEnd_condition hbyte hq]
          simp only [Rbc.edge, hs, hy, ht, hbyte, hq, if_true, if_false, Bool.false_eq_true]
          exact congrArg _ (same _)
        · rw [quarterEnd_condition_end hbyte hq, primEnd_busy pos p hb]
          simp only [Rbc.edge, hs, hy, ht, hbyte, hq, if_false, Bool.false_eq_true]
          rfl
      · by_cases h1 : s.rbc.q = 1
        · rw [quarterEnd_sample hbyte h1]
          simp only [Rbc.edge, hs, hy, ht, hbyte, h1, if_true, if_false]
          simp [State.setRbc, State.setTrace, State.setSlave]
        · by_cases h3 : s.rbc.q = 3
          · by_cases h8 : s.rbc.bitc = 8
            · have h31 : (3 : Fin 4) ≠ 1 := by decide
              have he : s.rbc.edge s.params s.edge (slaveLevel s) =
                  ((s.rbc.lastCell p).afterPrim s.params.probeAlwaysBoth s.edge pos p, [primSym p (s.rbc.lastCell p)], false) := by
                simp only [Rbc.edge, hs, hy, ht, hbyte, h3, h31, h8, if_true, if_false]
              rw [he, quarterEnd_byte_end hbyte h3 h8, primEnd_busy pos p (by simpa [Rbc.busy] using hb)]
              rfl
            · rw [quarterEnd_nextCell hbyte h3 h8]
              have h31 : (3 : Fin 4) ≠ 1 := by decide
              simp only [Rbc.edge, hs, hy, ht, hbyte, h3, h31, h8, if_true, if_false]
              exact congrArg _ (same _)
          · rw [quarterEnd_cell hbyte h1 h3]
            simp only [Rbc.edge, hs, hy, ht, hbyte, h1, h3, if_true, if_false]
            exact congrArg _ (same _)

/-- The register client with other values of what the host may write at any time (R64, R133). -/
def Rbc.withHost (r : Rbc) (ov : Bool) (ad wd : Byte) : Rbc := { r with ovr := ov, addr := ad, wdata := wd }

theorem Rbc.afterPrim_withHost (always : Bool) (n : Nat) (pos : Script) (p : Prim) (r : Rbc) (ov : Bool) (ad wd : Byte) :
    (r.withHost ov ad wd).afterPrim always n pos p = (r.afterPrim always n pos p).withHost ov ad wd := by
  have hr : primResult p (r.withHost ov ad wd) = primResult p r := by cases p <;> rfl
  unfold Rbc.afterPrim
  rw [hr]
  rcases h : pos.after always (primResult p r) with _ | pos'
  · rcases pos with q | q | q | q <;> cases q <;> rfl
  · rcases pos with q | q | q | q <;> cases q <;> rcases pos' with q' | q' | q' | q' <;> rfl

/-- The host's flags and operand registers ride along: the engine neither reads nor writes them. -/
theorem Rbc.edge_withHost (par : Config.Params) (n : Nat) (level : Bool) (r : Rbc) (ov : Bool) (ad wd : Byte) :
    (r.withHost ov ad wd).edge par n level =
      ((r.edge par n level).1.withHost ov ad wd, (r.edge par n level).2) := by
  unfold Rbc.edge
  rw [show (r.withHost ov ad wd).script = r.script from rfl, show (r.withHost ov ad wd).sym = r.sym from rfl,
    show (r.withHost ov ad wd).tick = r.tick from rfl, show (r.withHost ov ad wd).q = r.q from rfl,
    show (r.withHost ov ad wd).bitc = r.bitc from rfl, show (r.withHost ov ad wd).sh = r.sh from rfl]
  rcases r.script with _ | pos
  · rfl
  · rcases r.sym with _ | p
    · rcases pos with q | q | q | q <;> rfl
    · simp only
      split_ifs
      · rfl
      · rfl
      · have h1 : (r.withHost ov ad wd).lastCell p = (r.lastCell p).withHost ov ad wd := rfl
        have h2 : primSym p ((r.lastCell p).withHost ov ad wd) = primSym p (r.lastCell p) := by cases p <;> rfl
        rw [h1, Rbc.afterPrim_withHost, h2]
      · rfl
      · rfl
      · rfl
      · have h2 : primSym p (r.withHost ov ad wd) = primSym p r := by cases p <;> rfl
        rw [Rbc.afterPrim_withHost, h2]

/-! ## The capture engine's part -/

/-- What the engine of a capture makes of one sample: the block, and whether the sample's byte is stored. -/
def Cap.edge (x : Sample) (c : Cap) : Cap × Bool :=
  match c.phase with
  | .idle => (c, false)
  | .vsDrain => (if x.vs then c else c.goto .vsWaitHigh, false)
  | .vsWaitHigh => (if x.vs then c.goto .vsWaitFall else c, false)
  | .vsWaitFall =>
    (if x.vs then c else if c.hS = 0 then c.complete else Cap.goto { c with row := 0 } .rowWaitStart, false)
  | .rowWaitStart =>
    (if x.hr then if c.wS = 0 then c.goto .rowWaitEnd else Cap.goto { c with col := 0 } .pixWaitHigh else c, false)
  | .pixWaitHigh => if x.pc then (c.goto .pixWaitLow, true) else (c, false)
  | .pixWaitLow =>
    (if x.pc then c
      else Cap.goto { c with col := c.col + 1 } (if c.col.toNat + 1 < c.wS.toNat then .pixWaitHigh else .rowWaitEnd), false)
  | .rowWaitEnd =>
    (if x.hr then c
      else if c.row.toNat + 1 < c.hS.toNat then Cap.goto { c with row := c.row + 1, col := 0 } .rowWaitStart
      else Cap.complete { c with row := c.row + 1, col := 0 }, false)

/-- `capOn` is that function put back into the state, with the byte stored. -/
theorem capOn_eq (x : Sample) (s : State) :
    capOn x s = if (s.cap.edge x).2 then memWrite s.cap.pixelAddr x.d (s.setCap (s.cap.edge x).1)
      else .next (s.setCap (s.cap.edge x).1) := by
  unfold capOn Cap.edge capVsDrain capVsWaitHigh capVsWaitFall capRowWaitStart capPixWaitHigh capPixWaitLow capRowWaitEnd
  rcases hp : s.cap.phase <;> simp only [Bool.false_eq_true, if_false]
  · rfl
  all_goals split_ifs <;> first | rfl | simp_all

/-- The engine stores a byte while it awaits a pixel, and then only. -/
theorem Cap.edge_stores {x : Sample} {c : Cap} : (c.edge x).2 = true ↔ c.phase = .pixWaitHigh ∧ x.pc = true := by
  unfold Cap.edge
  split <;> simp_all
  split <;> simp_all

/-- The store of a good state is inside the space. -/
theorem Cap.edge_addr {x : Sample} {c : Cap} (hg : c.good = true) (h : (c.edge x).2 = true) :
    c.pixelAddr < c.baseS.toNat + c.wS.toNat * c.hS.toNat ∧ c.pixelAddr < Config.fbBytes := by
  obtain ⟨hp, _⟩ := Cap.edge_stores.1 h
  obtain ⟨hpos, hrun⟩ := Cap.good_iff.1 hg
  simp only [Cap.posGood, hp, Bool.and_eq_true, decide_eq_true_eq] at hpos
  exact Cap.pixelAddr_lt (hrun (by simp [hp])).1 hpos.1 hpos.2

/-- What an edge of a running capture leaves of its snapshot and of the bytes written: one more exactly where it stores, at the
address of the next one; never more than the buffer holds, and all of them when it completes (R173). -/
theorem Cap.edge_written (x : Sample) {c : Cap} (hg : c.good = true) (hb : c.busy = true) :
    (c.edge x).1.baseS = c.baseS ∧ (c.edge x).1.wS = c.wS ∧ (c.edge x).1.hS = c.hS ∧
      ((c.edge x).2 = false → (c.edge x).1.written = c.written) ∧
      ((c.edge x).2 = true → (c.edge x).1.written = c.written + 1 ∧ c.pixelAddr = c.baseS.toNat + c.written) ∧
      (c.edge x).1.written ≤ c.wS.toNat * c.hS.toNat ∧
      ((c.edge x).1.phase = .idle → (c.edge x).1.written = c.wS.toNat * c.hS.toNat ∧ (c.edge x).1.done = true) := by
  obtain ⟨hpos, -⟩ := Cap.good_iff.1 hg
  unfold Cap.posGood at hpos
  have mulc := Nat.mul_comm c.hS.toNat c.wS.toNat
  unfold Cap.edge
  rcases hph : c.phase <;> rw [hph] at hpos <;> simp only [Bool.and_eq_true, decide_eq_true_eq, beq_iff_eq] at hpos
  · simp [Cap.busy, hph] at hb
  · simp only [Cap.goto]
    split_ifs <;> simp [Cap.written, hph]
  · simp only [Cap.goto]
    split_ifs <;> simp [Cap.written, hph]
  · simp only [Cap.goto, Cap.complete]
    split_ifs with h1 h2
    · simp [Cap.written, hph]
    · simp [Cap.written, hph, hpos, h2]
    · simp [Cap.written, hph]
  · have m1 : c.row.toNat * c.wS.toNat ≤ c.wS.toNat * c.hS.toNat := by
      rw [← mulc]; exact Nat.mul_le_mul_right _ (by omega)
    simp only [Cap.goto]
    split_ifs with h1 h2
    · simp [Cap.written, hph, h2]
    · simpa [Cap.written, hph] using m1
    · simpa [Cap.written, hph] using m1
  · have m1 := pixel_lt hpos.1 hpos.2
    split_ifs with h1 <;> simp [Cap.written, hph, Cap.goto, Cap.pixelAddr] <;> omega
  · have m1 := pixel_lt hpos.1 hpos.2
    have d := dim_succ hpos.2
    have m2 : (c.row.toNat + 1) * c.wS.toNat ≤ c.wS.toNat * c.hS.toNat := by
      rw [← mulc]; exact Nat.mul_le_mul_right _ (by omega)
    rw [Nat.add_mul, Nat.one_mul] at m2
    simp only [Cap.goto]
    split_ifs with h1 h2 <;> simp only [Cap.written, hph, d] <;> simp <;> omega
  · have d := dim_succ hpos.1
    have m1 : (c.row.toNat + 1) * c.wS.toNat ≤ c.wS.toNat * c.hS.toNat := by
      rw [← mulc]; exact Nat.mul_le_mul_right _ (by omega)
    have m2 : (c.row.toNat + 1) * c.wS.toNat = c.row.toNat * c.wS.toNat + c.wS.toNat := by rw [Nat.add_mul, Nat.one_mul]
    simp only [Cap.goto, Cap.complete]
    split_ifs with h1 h2
    · simp [Cap.written, hph]; omega
    · simp only [Cap.written, hph, d, m2]; simp; omega
    · have he : c.row.toNat + 1 = c.hS.toNat := by omega
      have m3 : c.row.toNat * c.wS.toNat + c.wS.toNat = c.wS.toNat * c.hS.toNat := by rw [← mulc, ← he, m2]
      simp only [Cap.written, hph, d, m2]; simp [m3]

/-- The capture engine with other values of what the host may write at any time (R64, R166). -/
def Cap.withHost (c : Cap) (ov : Bool) (b : Word) (w h : Dim) : Cap := { c with ovr := ov, base := b, width := w, height := h }

/-- The host's flags and operand registers ride along. -/
theorem Cap.edge_withHost (x : Sample) (c : Cap) (ov : Bool) (b : Word) (w h : Dim) :
    (c.withHost ov b w h).edge x = ((c.edge x).1.withHost ov b w h, (c.edge x).2) := by
  unfold Cap.edge
  rw [show (c.withHost ov b w h).phase = c.phase from rfl, show (c.withHost ov b w h).hS = c.hS from rfl,
    show (c.withHost ov b w h).wS = c.wS from rfl, show (c.withHost ov b w h).row = c.row from rfl,
    show (c.withHost ov b w h).col = c.col from rfl]
  rcases c.phase <;> simp only <;> split_ifs <;> rfl

/-- The synchronisers ride along. -/
theorem Cap.edge_sync (x y : Sample) (c : Cap) : (c.shiftSync y).edge x = ((c.edge x).1.shiftSync y, (c.edge x).2) := by
  unfold Cap.edge
  rw [show (c.shiftSync y).phase = c.phase from rfl, show (c.shiftSync y).hS = c.hS from rfl,
    show (c.shiftSync y).wS = c.wS from rfl, show (c.shiftSync y).row = c.row from rfl,
    show (c.shiftSync y).col = c.col from rfl]
  rcases c.phase <;> simp only <;> split_ifs <;> rfl

/-! ## A whole step -/

/-- The register client after the engine's part of an edge, `r` being the block after the host's access. -/
def State.rbcStep (s : State) : Rbc × List BusSym × Bool :=
  if s.rbc.busy then (s.rbc.afterAccess s.now.rbc).edge s.params s.edge (slaveLevel s)
  else (s.rbc.afterAccess s.now.rbc, [], false)

/-- The capture engine after the engine's part of an edge. -/
def State.capStep (s : State) : Cap × Bool :=
  if s.cap.busy then (s.cap.afterAccess s.now.cap).edge s.cap.sync2 else (s.cap.afterAccess s.now.cap, false)

/-- What an ordinary step makes of each part of the state. -/
structure StepParts (s t : State) : Prop where
  rbc : t.rbc = s.rbcStep.1
  trace : t.trace = s.trace ++ s.rbcStep.2.1
  slave : t.slave = if s.rbcStep.2.2 then s.slave.tail else s.slave
  cap : t.cap = s.capStep.1.shiftSync (videoLevel s)
  mem : t.mem = if s.capStep.2 then s.mem.set s.cap.pixelAddr s.cap.sync2.d else s.mem
  addrLt : s.capStep.2 = true → s.cap.pixelAddr < Config.fbBytes
  fbWe : t.fb.we = s.capStep.2
  fbAddr : s.capStep.2 = true → t.fb.addr = BitVec.ofNat 32 s.cap.pixelAddr
  fbData : s.capStep.2 = true → t.fb.data = s.cap.sync2.d
  fbHeld : s.capStep.2 = false → t.fb.addr = s.fb.addr ∧ t.fb.data = s.fb.data
  memOld : t.memOld = s.oldAfter (s.cap.afterAccess s.now.cap)
  host : t.host = s.hostAfter
  video : t.video = s.video.tail
  edge : t.edge = s.edge + 1
  params : t.params = s.params
  readRbc : t.readRbc = readBack s.rbc.readReg s.now.rbc
  readCap : t.readCap = readBack s.cap.readReg s.now.cap
  readFb : t.readFb = s.now.fb.map (fbByte s)

/-- THE INVERSION OF `step`, part by part. -/
theorem step_parts {s t : State} (h : step s = .next t) (hr : s.now.rst = false) : StepParts s t := by
  obtain ⟨-, -, ⟨hr', -⟩ | ⟨-, s1, h1, s2, h2, rfl⟩⟩ := step_cases h
  · simp [hr] at hr'
  -- the register client
  have hrb : sameButBus (hostDone s) s1 ∧ s1.rbc = s.rbcStep.1 ∧ s1.trace = s.trace ++ s.rbcStep.2.1 ∧
      s1.slave = if s.rbcStep.2.2 then s.slave.tail else s.slave := by
    unfold State.rbcStep
    rcases hb : s.rbc.busy with _ | _
    · rw [runRbc_idle hb] at h1
      injection h1 with h1
      subst h1
      exact ⟨rfl, rfl, (List.append_nil _).symm, rfl⟩
    · rw [runRbc_busy hb] at h1
      obtain ⟨ov, ad, wd, ha⟩ := Rbc.afterAccess_busy hb s.now.rbc
      have hx : (hostDone s).rbc = s.rbc.afterAccess s.now.rbc := rfl
      rcases hs : s.rbc.script with _ | pos
      · have : (hostDone s).rbc.script = none := by rw [hx, ha]; exact hs
        simp [rbcEdge, this] at h1
      · have he := rbcEdge_eq (s := hostDone s) (pos := pos) (by rw [hx, ha]; exact hb) (by rw [hx, ha]; exact hs)
        rw [he] at h1
        injection h1 with h1
        subst h1
        exact ⟨rfl, rfl, rfl, rfl⟩
  obtain ⟨hf, hrbc, htr, hsl⟩ := hrb
  -- the capture engine
  unfold sameButBus at hf
  have hcap : s1.cap = s.cap.afterAccess s.now.cap := by rw [hf]; rfl
  have hmem : s1.mem = s.mem := by rw [hf]; rfl
  have hold : s1.memOld = s.oldAfter (s.cap.afterAccess s.now.cap) := by rw [hf]; rfl
  have hvl : videoLevel s1 = videoLevel s := by rw [hf]; rfl
  have hwe : s1.fb = { s.fb with we := false } := by rw [hf]; rfl
  have hhost : s1.host = s.hostAfter := by rw [hf]; rfl
  have hvid : s1.video = s.video := by rw [hf]; rfl
  have hed : s1.edge = s.edge := by rw [hf]; rfl
  have hpar : s1.params = s.params := by rw [hf]; rfl
  have hr1 : s1.readRbc = readBack s.rbc.readReg s.now.rbc := by rw [hf]; rfl
  have hr2 : s1.readCap = readBack s.cap.readReg s.now.cap := by rw [hf]; rfl
  have hr3 : s1.readFb = s.now.fb.map (fbByte s) := by rw [hf]; rfl
  have hcp : (s.capStep.2 = false ∧ s2 = s1.setCap s.capStep.1) ∨
      (s.capStep.2 = true ∧ s.cap.pixelAddr < Config.fbBytes ∧
        s2 = ((s1.setCap s.capStep.1).setFb ⟨true, BitVec.ofNat 32 s.cap.pixelAddr, s.cap.sync2.d⟩).setMem
          (s.mem.set s.cap.pixelAddr s.cap.sync2.d)) := by
    unfold State.capStep
    rcases hb : s.cap.busy with _ | _
    · rw [runCap_idle hb] at h2
      injection h2 with h2
      subst h2
      left
      simp only [Bool.false_eq_true, if_false, true_and]
      rw [← hcap]
      rfl
    · obtain ⟨ov, b, w, h, ha⟩ := Cap.afterAccess_busy hb s.now.cap
      have hsync : s1.cap.sync2 = s.cap.sync2 := by rw [hcap, ha]
      have hpix : (s.cap.afterAccess s.now.cap).pixelAddr = s.cap.pixelAddr := by rw [ha]; rfl
      rw [runCap_busy hb, hsync, capOn_eq, hcap, hpix] at h2
      simp only [if_true]
      rcases hst : ((s.cap.afterAccess s.now.cap).edge s.cap.sync2).2 with _ | _
      · rw [hst] at h2
        injection h2 with h2
        exact .inl ⟨rfl, h2.symm⟩
      · rw [hst, if_pos rfl, memWrite_eq_next] at h2
        refine .inr ⟨rfl, h2.1, ?_⟩
        rw [h2.2, ← hmem]
        rfl
  rcases hcp with ⟨h0, rfl⟩ | ⟨h0, hlt, rfl⟩
  · exact {
      rbc := hrbc, trace := htr, slave := hsl
      cap := congrArg (Cap.shiftSync s.capStep.1) hvl
      mem := by rw [h0]; exact hmem
      addrLt := by simp [h0]
      fbWe := by rw [h0]; exact congrArg FbPort.we hwe
      fbAddr := by simp [h0]
      fbData := by simp [h0]
      fbHeld := fun _ => by constructor <;> simp [hwe]
      memOld := hold, host := hhost
      video := congrArg List.tail hvid
      edge := congrArg (· + 1) hed
      params := hpar, readRbc := hr1, readCap := hr2, readFb := hr3 }
  · exact {
      rbc := hrbc, trace := htr, slave := hsl
      cap := congrArg (Cap.shiftSync s.capStep.1) hvl
      mem := by rw [h0]; rfl
      addrLt := fun _ => hlt
      fbWe := h0.symm
      fbAddr := fun _ => rfl
      fbData := fun _ => rfl
      fbHeld := by simp [h0]
      memOld := hold, host := hhost
      video := congrArg List.tail hvid
      edge := congrArg (· + 1) hed
      params := hpar, readRbc := hr1, readCap := hr2, readFb := hr3 }

/-- An ordinary cycle of a state of the invariant takes a step. -/
theorem step_next {s : State} (hi : s.Inv) (ho : s.now.ordinary = true) : ∃ t, step s = .next t := by
  obtain ⟨s1, h1, hf⟩ := runRbc_frame hi.rbc
  unfold sameButBus at hf
  have hcap : s1.cap = s.cap.afterAccess s.now.cap := by rw [hf]; rfl
  rw [step_ordinary ho, finishEdge, h1, andThen_next]
  rcases hb : s.cap.busy with _ | _
  · exact ⟨_, by rw [runCap_idle hb, andThen_next]⟩
  · have hg : s1.cap.good = true := by rw [hcap]; exact Cap.afterAccess_good hi.cap _
    rw [runCap_busy hb, capOn_eq]
    split
    · next h => exact ⟨_, by rw [memWrite, if_pos (Cap.edge_addr hg h).2, andThen_next]⟩
    · exact ⟨_, rfl⟩

/-- An ordinary cycle of a state of the invariant takes a step, and each part of the next state is a function of its own part and
inputs. -/
theorem step_next_parts {s : State} (hi : s.Inv) (ho : s.now.ordinary = true) :
    ∃ t, step s = .next t ∧ StepParts s t := by
  obtain ⟨t, ht⟩ := step_next hi ho
  refine ⟨t, ht, step_parts ht ?_⟩
  simp only [HostCycle.ordinary, Bool.and_eq_true, Bool.not_eq_true'] at ho
  exact ho.1.1

end Sys2Proof.Machine
end

