-- ==== Sys2Proof/Laws/Run.lean ====
section
/-! SUPPORT. Runs of several edges, what an edge leaves of the host's lines and of the samples to come, and the one induction over
edges. -/

namespace Sys2Proof.Machine

theorem run_zero (s : State) : Sys2Proof.core.run 0 s = .next s := rfl

theorem run_succ {s t : State} (h : step s = .next t) (n : Nat) :
    Sys2Proof.core.run (n + 1) s = Sys2Proof.core.run n t := by
  simp only [Host.Core.run]
  rw [show Sys2Proof.core.step s = .next t from h]

/-- Runs compose. -/
theorem run_add {s t : State} {m : Nat} (h : Sys2Proof.core.run m s = .next t) (n : Nat) :
    Sys2Proof.core.run (m + n) s = Sys2Proof.core.run n t := by
  induction m generalizing s with
  | zero =>
    injection h with h
    subst h
    rw [Nat.zero_add]
  | succ m ih =>
    rcases hs : step s with u | f | r
    · rw [run_succ hs] at h
      rw [Nat.add_right_comm, run_succ hs]
      exact ih h
    · have : Sys2Proof.core.run (m + 1) s = .fault f := by
        simp only [Host.Core.run]
        rw [show Sys2Proof.core.step s = .fault f from hs]
      rw [this] at h
      cases h
    · have : Sys2Proof.core.run (m + 1) s = .refused r := by
        simp only [Host.Core.run]
        rw [show Sys2Proof.core.step s = .refused r from hs]
      rw [this] at h
      cases h

/-- The induction over edges: what every edge keeps, a run of any length keeps. -/
theorem run_keeps {P : Nat → State → Prop} (hstep : ∀ k s, P k s → ∃ t, step s = .next t ∧ P (k + 1) t) (n : Nat) :
    ∀ k s, P k s → ∃ t, Sys2Proof.core.run n s = .next t ∧ P (k + n) t := by
  induction n with
  | zero => exact fun k s h => ⟨s, rfl, h⟩
  | succ n ih =>
    intro k s h
    obtain ⟨t, ht, hp⟩ := hstep k s h
    obtain ⟨u, hu, hq⟩ := ih (k + 1) t hp
    exact ⟨u, by rw [run_succ ht]; exact hu, by rw [Nat.add_comm n 1, ← Nat.add_assoc]; exact hq⟩

/-- A host that does nothing leaves an ordinary cycle. -/
theorem now_of_host_nil {s : State} (h : s.host = []) : s.now = {} := by simp [State.now, h]

theorem hostAfter_nil {s : State} (h : s.host = []) : s.hostAfter = [] := by simp [State.hostAfter, h]

/-- The next cycle of an ordinary host is ordinary. -/
theorem ordinary_of_hostOrdinary {s : State} (h : s.hostOrdinary = true) : s.now.ordinary = true := by
  unfold State.hostOrdinary at h
  unfold State.now
  split
  · rfl
  · next l _ hl => rw [hl, List.all_cons, Bool.and_eq_true] at h; exact h.1

/-- What an edge leaves of the lines of an ordinary host is ordinary. -/
theorem hostAfter_ordinary {s : State} (h : s.hostOrdinary = true) :
    (s.hostAfter.all fun l => l.now.ordinary) = true := by
  unfold State.hostOrdinary at h
  unfold State.hostAfter
  split
  · rfl
  · next hl => rw [hl, List.all_cons, Bool.and_eq_true] at h; exact h.2
  · next hl =>
    split
    · rw [hl, List.all_cons, Bool.and_eq_true] at h; exact h.2
    · exact h

/-- While samples are listed, an edge takes the first of the samples to come (R161). -/
theorem StepParts.pendingSamples {s t : State} (p : StepParts s t) (h : s.video ≠ []) :
    t.pendingSamples = s.pendingSamples.tail := by
  obtain ⟨x, v, hv⟩ := List.exists_cons_of_ne_nil h
  have hacc : ∀ (c : Cap) (a : Option HostAccess), (c.afterAccess a).sync1 = c.sync1 := by
    intro c a
    unfold Cap.afterAccess Cap.afterCommand Cap.writeReg
    split
    · split
      · split
        · rfl
        · split <;> first | rfl | (split <;> rfl)
      · split <;> rfl
    · rfl
  have hedge : ∀ (c : Cap) (y : Sample), (c.edge y).1.sync1 = c.sync1 := by
    intro c y
    unfold Cap.edge
    split <;> first | rfl | (simp only; split_ifs <;> rfl) | (split_ifs <;> rfl)
  have hsync : s.capStep.1.sync1 = s.cap.sync1 := by
    unfold State.capStep
    split_ifs
    · rw [hedge, hacc]
    · exact hacc _ _
  have hl : videoLevel s = x := by simp [videoLevel, hv]
  simp only [State.pendingSamples, p.cap, p.video, Cap.shiftSync, hsync, hl, hv, List.tail_cons]

end Sys2Proof.Machine
end

