-- ==== Sys2Proof/Laws/Client.lean ====
section
/-! SUPPORT. Running a client's lines on the machine, and the calls of a client over any world. -/

namespace Sys2Proof.Machine

variable {n : Nat} {s t : State}

theorem runHost_done (n : Nat) (h : s.host = []) : runHost n s = some ([], s) := by
  cases n <;> simp [runHost, h]

/-- One edge of a client's lines. -/
theorem runHost_step {l : HostLine} {rest : List HostLine} (h : s.host = l :: rest) (hs : step s = .next t) (n : Nat) :
    runHost (n + 1) s = (runHost n t).map fun r => (l.returned t ++ r.1, r.2) := by
  simp only [runHost, h, hs]

/-- A run that returns has done every line, and is a run of at most `n` edges. -/
theorem runHost_returns {ws : List Word} (h : runHost n s = some (ws, t)) :
    t.host = [] ∧ ∃ k, k ≤ n ∧ Sys2Proof.core.run k s = .next t := by
  induction n generalizing s ws with
  | zero =>
    simp only [runHost] at h
    split at h
    · next he =>
      injection h with h
      injection h with _ h
      exact ⟨by rw [← h]; exact List.isEmpty_iff.1 he, 0, le_rfl, by rw [← h]; rfl⟩
    · cases h
  | succ n ih =>
    rcases hh : s.host with _ | ⟨l, rest⟩
    · rw [runHost_done _ hh] at h
      injection h with h
      injection h with _ h
      exact ⟨by rw [← h]; exact hh, 0, by omega, by rw [← h]; rfl⟩
    · rcases hs : step s with u | f | r
      · rw [runHost_step hh hs, Option.map_eq_some_iff] at h
        obtain ⟨⟨ws', u'⟩, hu, he⟩ := h
        injection he with _ he
        subst he
        obtain ⟨h1, k, hk, h2⟩ := ih hu
        exact ⟨h1, k + 1, by omega, by rw [run_succ hs]; exact h2⟩
      · simp [runHost, hh, hs] at h
      · simp [runHost, hh, hs] at h

/-- A longer watch returns the same. -/
theorem runHost_mono {m : Nat} {r : List Word × State} (h : runHost n s = some r) (hm : n ≤ m) : runHost m s = some r := by
  induction n generalizing s r m with
  | zero =>
    simp only [runHost] at h
    split at h
    · next he => rw [runHost_done _ (List.isEmpty_iff.1 he)]; exact h
    · cases h
  | succ n ih =>
    obtain ⟨m, rfl⟩ : ∃ k, m = k + 1 := ⟨m - 1, by omega⟩
    rcases hh : s.host with _ | ⟨l, rest⟩
    · rw [runHost_done _ hh] at h ⊢; exact h
    · rcases hs : step s with u | f | x
      · rw [runHost_step hh hs, Option.map_eq_some_iff] at h
        obtain ⟨r', hr, he⟩ := h
        rw [runHost_step hh hs, ih hr (by omega)]
        exact congrArg some he
      · simp [runHost, hh, hs] at h
      · simp [runHost, hh, hs] at h

/-- Everything a read-modify-write can come to (R190). -/
theorem rmw_cases {σ : Type} {io : SyncPort σ} {a : Byte} {f : Byte → Byte} {w w' : σ} {r : ClientResult}
    (h : rmw io a f w = some (r, w')) :
    (r = .fail a .read ∧ ∃ v, io.rd w a = some (false, v, w')) ∨
      ∃ v w1, io.rd w a = some (true, v, w1) ∧
        ((r = .fail a .write ∧ io.wr w1 a (f v) = some (false, w')) ∨ (r = .done ∧ io.wr w1 a (f v) = some (true, w'))) := by
  unfold rmw at h
  split at h
  · cases h
  · next v w1 hr => injection h with h; injection h with h1 h2; subst h2; exact .inl ⟨h1.symm, v, hr⟩
  · next v w1 hr =>
    refine .inr ⟨v, w1, hr, ?_⟩
    split at h
    · cases h
    · next w2 hw => injection h with h; injection h with h1 h2; subst h2; exact .inl ⟨h1.symm, hw⟩
    · next w2 hw => injection h with h; injection h with h1 h2; subst h2; exact .inr ⟨h1.symm, hw⟩

end Sys2Proof.Machine
end

