-- ==== Sys2Proof/Laws/PerInstr.lean ====
section
/-! SUPPORT. Statements made once per instruction. -/

namespace Sys2Proof.Laws

/-- The encoding of an instruction is in its own format, well formed, and no wider than the format's bits (R80, R81, R90, R96). -/
def EncodedForm.Statement (i : Instr) : Prop :=
  (encode i).fmt = i.format ∧ (encode i).wf = true ∧ (encode i).bits.toNat < 2 ^ i.format.nbits

theorem EncodedForm.nop : EncodedForm.Statement .nop := by unfold EncodedForm.Statement; decide
theorem EncodedForm.rd : EncodedForm.Statement .rd := by unfold EncodedForm.Statement; decide
theorem EncodedForm.wr : EncodedForm.Statement .wr := by unfold EncodedForm.Statement; decide
theorem EncodedForm.probe : EncodedForm.Statement .probe := by unfold EncodedForm.Statement; decide
theorem EncodedForm.cnop : EncodedForm.Statement .cnop := by unfold EncodedForm.Statement; decide
theorem EncodedForm.capture : EncodedForm.Statement .capture := by unfold EncodedForm.Statement; decide
theorem EncodedForm.slaW : EncodedForm.Statement .slaW := by unfold EncodedForm.Statement; decide
theorem EncodedForm.slaR : EncodedForm.Statement .slaR := by unfold EncodedForm.Statement; decide

end Sys2Proof.Laws
end

