-- ==== Sys2Proof/Tests/Slice0.lean ====
section
/-! SUPPORT. Tests on fixed values, their expected results taken from spec/30_encoding.md, the examples of spec/41_register_commands.md
and spec/42_capture.md, and spec/95_test_vectors.md; and for every obligation with hypotheses a witness that meets them. -/

namespace Sys2Proof.Tests

open Sys2Proof Sys2Proof.Machine

/-! ## Small states -/

/-- One clock cycle for a quarter-step, and the second read of PROBE only after a first that succeeds. -/
def par : Config.Params := ⟨0, false, 0, 1, ⟨0, by decide⟩⟩

/-- The machine after reset, with those parameters. -/
def tiny : State := { State.reset with params := par }

/-- A host that does one cycle's accesses. -/
def hostDoes (c : HostCycle) (s : State) : State := { s with host := [.cycle c] }

/-- A running register client that has accepted a command and begun nothing. -/
def accepted (op : BitVec 4) (sc : Script) : State := tiny.setRbc { Rbc.reset with phase := .run, opS := op, script := some sc }

/-- A running register client in the middle of its script, at the first quarter-step of a primitive. -/
def inPrim (op : BitVec 4) (sc : Script) : State :=
  tiny.setRbc (Rbc.beginPrim { Rbc.reset with phase := .run, opS := op, script := some sc } (primAt Rbc.reset sc))

/-- A running capture of two rows of two bytes in a phase, with the sample it is about to examine. -/
def capAt (p : CapPhase) (row col w h : Dim) (x : Sample) : State :=
  tiny.setCap { Cap.reset with phase := p, row := row, col := col, baseS := 0x100, wS := w, hS := h, sync2 := x }

def vsHigh : Sample := ⟨true, false, false, 0⟩
def hrHigh : Sample := ⟨false, true, false, 0⟩
def pcHigh : Sample := ⟨false, true, true, 0xA5⟩

/-- The next state of an outcome. -/
def nextOf (o : Host.Outcome State Fault Refusal) : Option State :=
  match o with
  | .next s => some s
  | .fault _ => none
  | .refused _ => none

/-- The invariant as a test, for states whose frame buffer is as it was at the acceptance. -/
def invOk (s : State) : Bool :=
  s.rbc.good s.params.tqMinus1 && s.cap.good && s.mem.wf && s.mem.inSpace && s.memOld.wf &&
    (!s.fb.we || s.mem.get s.fb.addr.toNat == some s.fb.data) && s.memOld == s.mem

theorem inv_of {s : State} (h : invOk s = true) : s.Inv := by
  simp only [invOk, Bool.and_eq_true, Bool.or_eq_true, Bool.not_eq_true', beq_iff_eq] at h
  obtain ⟨⟨⟨⟨⟨⟨h1, h2⟩, h3⟩, h4⟩, h5⟩, h6⟩, h7⟩ := h
  exact ⟨h1, h2, h3, h4, h5, fun _ _ _ => by rw [h7], fun hw => h6.resolve_left (by simp [hw])⟩

/-! ## Well-formedness: an ill-formed term for each check -/

theorem test_reserved_bits_are_refused :
    (⟨.rcmd, 0x80000001⟩ : Code).reservedZero = false ∧ (⟨.rcmd, 0x80000001⟩ : Code).wf = false ∧
      (⟨.ccmd, 0x00000010⟩ : Code).wf = false ∧ (⟨.sla, 0x00000142⟩ : Code).wf = false := by decide

theorem test_unassigned_op_is_refused :
    (⟨.rcmd, 0x00000004⟩ : Code).opAssigned = false ∧ (⟨.rcmd, 0x00000004⟩ : Code).wf = false ∧
      (⟨.ccmd, 0x00000002⟩ : Code).wf = false ∧ (⟨.rcmd, 0x0000000F⟩ : Code).wf = false := by decide

theorem test_foreign_address_is_refused :
    (⟨.sla, 0x44⟩ : Code).addressOurs = false ∧ (⟨.sla, 0x44⟩ : Code).wf = false ∧ (⟨.sla, 0x00⟩ : Code).wf = false := by
  decide

theorem test_bad_offsets_are_refused :
    offsetOk 0x02 = false ∧ offsetOk 0x40 = false ∧ offsetOk 0xFFFFFFFC = false ∧ offsetOk 0x3C = true ∧ offsetOk 0 = true := by
  decide

/-! ## Decoding: every constructor's word, bit by bit (R81, R83, R84: `RSV` [31:4], `OP` [3:0]; R90: `ADDR7` [7:1], `RW` [0]) -/

theorem test_nop_word : decodeRbc 0b0000000000000000000000000000_0000 = .instr .nop := by decide
theorem test_rd_word : decodeRbc 0b0000000000000000000000000000_0001 = .instr .rd := by decide
theorem test_wr_word : decodeRbc 0b0000000000000000000000000000_0010 = .instr .wr := by decide
theorem test_probe_word : decodeRbc 0b0000000000000000000000000000_0011 = .instr .probe := by decide
theorem test_cnop_word : decodeCap 0b0000000000000000000000000000_0000 = .instr .cnop := by decide
theorem test_capture_word : decodeCap 0b0000000000000000000000000000_0001 = .instr .capture := by decide
theorem test_sla_w_byte : decodeSla 0b0100001_0 = .instr .slaW := by decide
theorem test_sla_r_byte : decodeSla 0b0100001_1 = .instr .slaR := by decide

/-- The illegal words of spec/95_test_vectors.md. -/
theorem test_illegal_words :
    decodeRbc 0b0000000000000000000000000000_0100 = .illegal .unassignedOp ∧
      decodeRbc 0b0000000000000000000000000001_0001 = .illegal .reservedBits ∧
      decodeCap 0b0000000000000000000000000000_0010 = .illegal .unassignedOp := by decide

theorem test_table_words :
    decodeTableWord 32 0 = some .nop ∧ decodeTableWord 32 1 = some .rd ∧ decodeTableWord 32 2 = some .wr ∧
      decodeTableWord 32 3 = some .probe ∧ decodeTableWord 32 4 = none ∧ decodeTableWord 8 0x42 = some .slaW ∧
      decodeTableWord 8 0x43 = some .slaR ∧ decodeTableWord 8 0x44 = none := by decide

/-! ## The first step after reset runs the word placed for it -/

theorem test_fetch_nop :
    (nextOf (step (State.reset.withFetchWord 32 0))).map (fun t => (t.rbc, t.host)) = some (Rbc.reset, []) := by decide

theorem test_fetch_rd :
    (nextOf (step (State.reset.withFetchWord 32 1))).map (fun t => (t.rbc.phase, t.rbc.script)) =
      some (.run, some (.rd .start)) := by decide

theorem test_fetch_wr :
    (nextOf (step (State.reset.withFetchWord 32 2))).map (fun t => (t.rbc.phase, t.rbc.script)) =
      some (.run, some (.wr .start)) := by decide

theorem test_fetch_probe :
    (nextOf (step (State.reset.withFetchWord 32 3))).map (fun t => (t.rbc.phase, t.rbc.script)) =
      some (.run, some (.idHigh .start)) := by decide

theorem test_fetch_sla_w :
    (nextOf (step (State.reset.withFetchWord 8 0x42))).map (fun t => (t.rbc.sym, t.rbc.sh)) =
      some (some (.writeByte 0x42), 0x42) := by decide

theorem test_fetch_sla_r :
    (nextOf (step (State.reset.withFetchWord 8 0x43))).map (fun t => (t.rbc.sym, t.rbc.sh)) =
      some (some (.writeByte 0x43), 0x43) := by decide

/-! ## One step, from the examples of the rules -/

/-- R136: `RBC_STATUS` = 0x00000006 before `write RBC_CMD, 0x0` reads 0x00000006 after it. -/
theorem test_nop_keeps_status :
    (nextOf (step (hostDoes { rbc := some (.write 0 0) } (tiny.setRbc { Rbc.reset with done := true, ok := true })))).map
      (fun t => t.rbc.status) = some 0x00000006 := by decide

/-- R131: after an accepted RD only `BUSY` reads 1, and the operand is the snapshot. -/
theorem test_rd_accepted :
    (nextOf (step (hostDoes { rbc := some (.write 0 1) }
      (tiny.setRbc { Rbc.reset with done := true, illegal := true, addr := 0x0A })))).map
        (fun t => (t.rbc.status, t.rbc.addrS)) = some (0x00000001, 0x0A) := by decide

/-- R132: WR takes both operands. -/
theorem test_wr_accepted :
    (nextOf (step (hostDoes { rbc := some (.write 0 2) } (tiny.setRbc { Rbc.reset with addr := 0x12, wdata := 0x04 })))).map
      (fun t => (t.rbc.status, t.rbc.addrS, t.rbc.wdataS)) = some (0x00000001, 0x12, 0x04) := by decide

/-- R131: PROBE clears `PRESENT`; RD does not. -/
theorem test_probe_accepted :
    (nextOf (step (hostDoes { rbc := some (.write 0 3) } (tiny.setRbc { Rbc.reset with present := true })))).map
        (fun t => t.rbc.status) = some 0x00000001 ∧
      (nextOf (step (hostDoes { rbc := some (.write 0 1) } (tiny.setRbc { Rbc.reset with present := true })))).map
        (fun t => t.rbc.status) = some 0x00000009 := by decide

/-- R134: 0x00000014 written while idle gives `RBC_STATUS` = 0x00000012. -/
theorem test_illegal_word :
    (nextOf (step (hostDoes { rbc := some (.write 0 0x14) } tiny))).map (fun t => t.rbc.status) = some 0x00000012 := by decide

/-- R133: any write while busy sets `OVR`: 0x00000021. -/
theorem test_overrun :
    (nextOf (exec .nop (accepted 0x1 (.rd .start)))).map (fun t => t.rbc.status) = some 0x00000021 := by decide

/-- R166: CNOP changes nothing while idle, and sets `OVR` while busy: BUSY, OVR and PHASE = VS_DRAIN are 0x00000121. -/
theorem test_cnop :
    (nextOf (exec .cnop tiny)).map (fun t => t.cap) = some Cap.reset ∧
      (nextOf (exec .cnop (capAt .vsDrain 0 0 2 2 vsHigh))).map (fun t => t.cap.status) = some 0x00000121 := by decide

/-- R165: `CAP_BASE` = 0xFFFFFFFC, `CAP_WIDTH` = 4: `CAP_HEIGHT` = 1 is legal, 2 is not. -/
theorem test_capture_range :
    (nextOf (exec .capture (tiny.setCap { Cap.reset with base := 0xFFFFFFFC, width := 4, height := 1 }))).map
        (fun t => (t.cap.status, t.cap.baseS)) = some (0x00000101, 0xFFFFFFFC) ∧
      (nextOf (exec .capture (tiny.setCap { Cap.reset with base := 0xFFFFFFFC, width := 4, height := 2 }))).map
        (fun t => (t.cap.status, t.cap.baseS)) = some (0x00000012, 0) := by decide

/-- R169: the byte goes to base + row*w + col, from the sample that showed `pc` = 1. -/
theorem test_pixel_is_stored :
    (nextOf (step (capAt .pixWaitHigh 1 1 2 2 pcHigh))).map (fun t => (t.mem, t.fb, t.cap.phase)) =
      some ([(0x103, 0xA5)], ⟨true, 0x103, 0xA5⟩, .pixWaitLow) := by decide

/-- R109: a slave that drives 0,1,1,1,0,1,1,0 returns 0x76. -/
theorem test_read_byte : slaveByte [false, true, true, true, false, true, true, false] = 0x76 := by decide

/-- R140: the identity registers (0x76, 0x73) give `OK` = 1, `PRESENT` = 1 and `RBC_RDATA` = 0x00007376 in the completing edge; (0x76,
0x74) give `PRESENT` = 0. -/
theorem test_probe_verdict :
    (completeProbe 0 { Rbc.reset with ok1 := true, ok2 := true, d0 := 0x76, d1 := 0x73 }).status = 0x0000000E ∧
      (completeProbe 0 { Rbc.reset with ok1 := true, ok2 := true, d0 := 0x76, d1 := 0x73 }).rdata = 0x00007376 ∧
      (completeProbe 0 { Rbc.reset with ok1 := true, ok2 := true, d0 := 0x76, d1 := 0x74 }).status = 0x00000006 := by decide

/-- R193 to R195: the examples. -/
theorem test_format_steps :
    ((OutputFormat.yuvInterleaved.steps par).zip [0x05, 0x0C, 0x89]).map (fun x => (x.1.addr, x.1.f x.2)) =
        [(0x12, 0x00), (0x3A, 0x04), (0x3D, 0x88)] ∧
      (((OutputFormat.rgb565.steps par).take 2).zip [0x01, 0xF0]).map (fun x => (x.1.addr, x.1.f x.2)) =
        [(0x12, 0x04), (0x40, 0xD0)] ∧
      ((OutputFormat.rawBayer.steps par).zip [0x04]).map (fun x => (x.1.addr, x.1.f x.2)) = [(0x12, 0x01)] := by decide

/-- R108: `WriteByte(0x42)` drives the data bits 0,1,0,0,0,0,1,0 in that order, whatever is sampled, and releases the ninth cell. -/
theorem test_write_byte :
    (List.finRange 9).map (fun k => cellLevel (.writeByte 0x42) k (cellSh (.writeByte 0x42) (fun _ => true) 0x42 k)) =
      [false, true, false, false, false, false, true, false, true] := by decide

/-! ## Witnesses: for every obligation with hypotheses, concrete values that meet them, clause by clause -/

theorem witness_NopChangesNothing : tiny.rbc.phase = .idle ∧ (accepted 0x1 (.rd .start)).rbc.phase = .run := by decide

theorem witness_CnopChangesNothingWhileIdle : tiny.cap.phase = .idle := by decide

theorem witness_commands_accepted_while_idle : tiny.rbc.phase = .idle ∧ tiny.cap.phase = .idle := by decide

/-- A capture with its operands, for the range check. -/
def capWith (base : Word) (w h : Dim) : State := tiny.setCap { Cap.reset with base := base, width := w, height := h }

/-- An empty buffer, and one that ends exactly at 2^32. -/
theorem witness_CaptureIsAcceptedWhileIdle :
    (capWith 0xFFFFFFFF 0 7).cap.phase = .idle ∧
      (capWith 0xFFFFFFFF 0 7).cap.width.toNat * (capWith 0xFFFFFFFF 0 7).cap.height.toNat = 0 ∧
      (capWith 0xFFFFFFFC 4 1).cap.base.toNat +
        (capWith 0xFFFFFFFC 4 1).cap.width.toNat * (capWith 0xFFFFFFFC 4 1).cap.height.toNat ≤ 2 ^ 32 := by decide

/-- The first illegal word, a buffer that passes 2^32 by one byte, and the two buffers of the example. -/
theorem witness_RefusedCaptureCommandsAreFlagged :
    (⟨.ccmd, 0x00000002⟩ : Code).wf = false ∧ (capWith 0xFFFFFFFD 4 1).cap.phase = .idle ∧
      decodeCap 0x00000001 = .instr .capture ∧
      0 < (capWith 0xFFFFFFFD 4 1).cap.width.toNat * (capWith 0xFFFFFFFD 4 1).cap.height.toNat ∧
      2 ^ 32 < (capWith 0xFFFFFFFD 4 1).cap.base.toNat +
        (capWith 0xFFFFFFFD 4 1).cap.width.toNat * (capWith 0xFFFFFFFD 4 1).cap.height.toNat ∧
      (capWith 0xFFFFFFFC 4 1).cap.height = 1 ∧ (capWith 0xFFFFFFFC 4 2).cap.height = 2 := by decide

theorem witness_CommandWhileBusyOnlySetsOvr :
    (accepted 0x1 (.rd .start)).rbc.phase = .run ∧ (capAt .rowWaitEnd 1 2 2 2 hrHigh).cap.phase ≠ .idle := by decide

theorem witness_IllegalRegisterCommandIsFlagged :
    tiny.rbc.phase = .idle ∧ (⟨.rcmd, 0x00000004⟩ : Code).wf = false ∧ (⟨.rcmd, 0x00000010⟩ : Code).wf = false ∧
      tiny.rbc.ovr = false ∧ tiny.rbc.present = false := by decide

theorem witness_SlaBytesAreSent : (accepted 0x1 (.rd .slaW)).rbc.phase = .run := by decide

theorem witness_IdleMasterSendsNoSlaByte : tiny.rbc.phase = .idle := by decide

theorem witness_frames :
    (nextOf (exec .rd tiny)).isSome = true ∧ (nextOf (exec .nop (accepted 0x1 (.rd .start)))).isSome = true ∧
      (nextOf (exec .slaW (accepted 0x1 (.rd .slaW)))).isSome = true ∧ (nextOf (exec .capture tiny)).isSome = true ∧
      (nextOf (exec .cnop (capAt .vsDrain 0 0 2 2 vsHigh))).isSome = true := by decide

theorem witness_StepRunsTheWrittenCommand :
    (hostDoes { rbc := some (.write 0 0x3) } tiny).host = .cycle { rbc := some (.write 0 0x3) } :: [] ∧
      decodeRbc 0x3 = .instr .probe ∧
      (hostDoes { cap := some (.write 0 0x1) } tiny).host = .cycle { cap := some (.write 0 0x1) } :: [] ∧
      decodeCap 0x1 = .instr .capture := by decide

/-- An engine about to send SLA+W, and one whose repeated start has just ended. -/
theorem witness_EngineRunsTheSlaByte :
    (accepted 0x1 (.rd .slaW)).host = [] ∧ (accepted 0x1 (.rd .slaW)).rbc.phase = .run ∧
      (accepted 0x1 (.rd .slaW)).rbc.script = some (.rd .slaW) ∧ (accepted 0x1 (.rd .slaW)).rbc.sym = none ∧
      Script.sla (.rd .slaW) = some false ∧ decodeSla (slaByte false) = .instr .slaW ∧
      Script.after false (.rd .restart) (primResult .restart tiny.rbc) = some (.rd .slaR) ∧
      Script.sla (.rd .slaR) = some true ∧ decodeSla (slaByte true) = .instr .slaR := by decide

theorem witness_NoStepFaultsUnderTheInvariant : (capAt .pixWaitHigh 1 1 2 2 pcHigh).Inv := inv_of (by decide)

theorem witness_ResetEdgeResetsBothBlocks :
    (hostDoes { rst := true, rbc := some (.read 0x3C), cap := some (.read 0x04) } (capAt .pixWaitHigh 1 1 2 2 pcHigh)).host =
        .cycle { rst := true, rbc := some (.read 0x3C), cap := some (.read 0x04) } :: [] ∧
      accessOk (some (.read 0x3C)) = true ∧ accessOk (some (.read 0x04)) = true := by decide

theorem witness_EveryStepKeepsTheInvariant :
    (inPrim 0x1 (.rd .start)).Inv ∧ ∃ t, step (inPrim 0x1 (.rd .start)) = .next t :=
  ⟨inv_of (by decide), step_next (inv_of (by decide)) (by decide)⟩

theorem witness_UnmappedAndReadOnlyOffsetsIgnoreWrites :
    0x10 ≤ (0x10 : Word).toNat ∧ 0x14 ≤ (0x14 : Word).toNat ∧ 0x18 ≤ (0x18 : Word).toNat ∧ 0x18 ≤ (0x3C : Word).toNat := by
  decide

theorem witness_StatusWordsHoldTheirFlags : 6 ≤ 6 ∧ 11 ≤ 11 := by decide

theorem witness_StatusWriteClearsOvrOnly :
    (0x00000020 : Word).getLsbD 5 = true ∧ (0xFFFFFFDF : Word).getLsbD 5 = false := by decide

theorem witness_HostReadsHaveNoSideEffect :
    offsetOk 0x04 = true ∧ offsetOk 0x3C = true ∧
      ∃ t, step { tiny with host := .cycle {} :: [] } = .next t :=
  ⟨by decide, by decide, step_next (inv_of (by decide)) (by decide)⟩

/-- Both blocks busy, with or without `OVR`, and a host that writes both command or both status registers. -/
def bothBusy (ov : Bool) (off v : Word) : State :=
  hostDoes { rbc := some (.write off v), cap := some (.write off v) }
    (((inPrim 0x1 (.rd .start)).setRbc { (inPrim 0x1 (.rd .start)).rbc with ovr := ov }).setCap
      { (capAt .vsDrain 0 0 2 2 vsHigh).cap with ovr := ov })

theorem witness_OvrIsStickyAndSetByOverrunsOnly :
    ((bothBusy false 0 1).Inv ∧ (bothBusy false 0 1).now.rst = false ∧ (bothBusy false 0 1).rbc.ovr = false ∧
        (bothBusy false 0 1).cap.ovr = false ∧ ∃ t, step (bothBusy false 0 1) = .next t) ∧
      (bothBusy true 4 0x20).Inv ∧ (bothBusy true 4 0x20).now.rst = false ∧ (bothBusy true 4 0x20).rbc.ovr = true ∧
        (bothBusy true 4 0x20).cap.ovr = true ∧ ∃ t, step (bothBusy true 4 0x20) = .next t :=
  ⟨⟨inv_of (by decide), by decide, by decide, by decide, step_next (inv_of (by decide)) (by decide)⟩,
    inv_of (by decide), by decide, by decide, by decide, step_next (inv_of (by decide)) (by decide)⟩

/-- Two machines in the middle of the same command, one of which writes `RBC_ADDR` meanwhile. -/
theorem witness_RunningCommandIgnoresOperandWrites :
    ∃ s1 s2 t1 t2 : State, s1.rbc.phase = .run ∧ s1.params = s2.params ∧ s1.slave = s2.slave ∧ s1.edge = s2.edge ∧
      s1.trace = s2.trace ∧ s1.now.rst = false ∧ s2.now.rst = false ∧
      s2.rbc = { s1.rbc with addr := s2.rbc.addr, wdata := s2.rbc.wdata, ovr := s2.rbc.ovr } ∧
      step s1 = .next t1 ∧ step s2 = .next t2 := by
  have h1 := step_next (s := inPrim 0x2 (.wr .value)) (inv_of (by decide)) (by decide)
  have h2 := step_next (s := hostDoes { rbc := some (.write 0x08 0x55) } (inPrim 0x2 (.wr .value))) (inv_of (by decide))
    (by decide)
  obtain ⟨t1, h1⟩ := h1
  obtain ⟨t2, h2⟩ := h2
  exact ⟨_, _, t1, t2, by decide, by decide, by decide, by decide, by decide, by decide, by decide, by decide, h1, h2⟩

theorem witness_RunningCaptureIgnoresOperandWrites :
    ∃ s1 s2 t1 t2 : State, s1.cap.phase ≠ .idle ∧ s1.video = s2.video ∧ s1.edge = s2.edge ∧ s1.mem = s2.mem ∧
      s1.now.rst = false ∧ s2.now.rst = false ∧
      s2.cap = { s1.cap with
        base := s2.cap.base, width := s2.cap.width, height := s2.cap.height, ovr := s2.cap.ovr } ∧
      step s1 = .next t1 ∧ step s2 = .next t2 := by
  have h1 := step_next (s := capAt .pixWaitHigh 1 1 2 2 pcHigh) (inv_of (by decide)) (by decide)
  have h2 := step_next (s := hostDoes { cap := some (.write 0x08 0x55) } (capAt .pixWaitHigh 1 1 2 2 pcHigh)) (inv_of (by decide))
    (by decide)
  obtain ⟨t1, h1⟩ := h1
  obtain ⟨t2, h2⟩ := h2
  exact ⟨_, _, t1, t2, by decide, by decide, by decide, by decide, by decide, by decide, by decide, h1, h2⟩

/-- The same register client beside an idle and a running capture, and the reverse. -/
theorem witness_TheBlocksDoNotInterfere :
    ∃ s1 s2 t1 t2 : State, (s1.params = s2.params ∧ s1.rbc = s2.rbc ∧ s1.slave = s2.slave ∧ s1.edge = s2.edge ∧
      s1.trace = s2.trace ∧ s1.now.rst = s2.now.rst ∧ s1.now.rbc = s2.now.rbc ∧ step s1 = .next t1 ∧ step s2 = .next t2) ∧
      ∃ u1 u2 v1 v2 : State, u1.cap = u2.cap ∧ u1.mem = u2.mem ∧ u1.fb = u2.fb ∧ u1.video = u2.video ∧
        u1.edge = u2.edge ∧ u1.now.rst = u2.now.rst ∧ u1.now.cap = u2.now.cap ∧ step u1 = .next v1 ∧ step u2 = .next v2 := by
  obtain ⟨t1, h1⟩ := step_next (s := tiny) (inv_of (by decide)) (by decide)
  obtain ⟨t2, h2⟩ := step_next (s := capAt .pixWaitHigh 1 1 2 2 pcHigh) (inv_of (by decide)) (by decide)
  obtain ⟨t3, h3⟩ := step_next (s := inPrim 0x1 (.rd .start)) (inv_of (by decide)) (by decide)
  exact ⟨tiny, _, t1, t2, ⟨by decide, by decide, by decide, by decide, by decide, by decide, by decide, h1, h2⟩,
    tiny, _, t1, t3, by decide, by decide, by decide, by decide, by decide, by decide, by decide, h1, h3⟩

theorem witness_PrimitivesDriveTheirWaveform : Prim.isByte .readByte = true := by decide

theorem witness_QuarterStepIsHeldForItsCycles :
    (inPrim 0x1 (.rd .slaW)).Inv ∧ (inPrim 0x1 (.rd .slaW)).hostOrdinary = true ∧
      (inPrim 0x1 (.rd .slaW)).rbc.sym = some (.writeByte 0x42) ∧ (inPrim 0x1 (.rd .slaW)).rbc.tick = 0 ∧
      0 < (inPrim 0x1 (.rd .slaW)).params.tqCycles :=
  ⟨inv_of (by decide), by decide, by decide, by decide, by decide⟩

/-- The first quarter-step of a start condition ends: `SDA` falls. -/
theorem witness_SdaChangesOnlyWhereTheConditionsSay :
    ∃ t, (inPrim 0x1 (.rd .start)).Inv ∧ (inPrim 0x1 (.rd .start)).now.rst = false ∧
      step (inPrim 0x1 (.rd .start)) = .next t ∧ (inPrim 0x1 (.rd .start)).rbc.sda ≠ t.rbc.sda := by
  obtain ⟨t, ht⟩ := step_next (s := inPrim 0x1 (.rd .start)) (inv_of (by decide)) (by decide)
  have h : (nextOf (step (inPrim 0x1 (.rd .start)))).map (fun t => t.rbc.sda) = some false := by decide
  rw [ht] at h
  injection h with h
  exact ⟨t, inv_of (by decide), by decide, ht, by rw [show t.rbc.sda = false from h]; decide⟩

theorem witness_IdleMasterLeavesTheBusAlone :
    ∃ t, tiny.Inv ∧ tiny.now.rst = false ∧ step tiny = .next t ∧ tiny.rbc.phase = .idle ∧ t.rbc.phase = .idle := by
  obtain ⟨t, ht⟩ := step_next (s := tiny) (inv_of (by decide)) (by decide)
  have h : (nextOf (step tiny)).map (fun t => t.rbc.phase) = some .idle := by decide
  rw [ht] at h
  injection h with h
  exact ⟨t, inv_of (by decide), by decide, ht, by decide, h⟩

/-- A byte with its nine draws, and a condition with none. -/
theorem witness_PrimitiveIsOneAtomicStep :
    (∃ s : State, s.Inv ∧ s.host = [] ∧ s.rbc.script = some (.rd .slaW) ∧ s.rbc.sym = some (.writeByte 0x42) ∧
        s.rbc.bitc = 0 ∧ s.rbc.q = 0 ∧ s.rbc.tick = 0 ∧ (∀ b, Prim.writeByte 0x42 = .writeByte b → s.rbc.sh = b) ∧
        s.slave = ackDraws true ++ [] ∧ (ackDraws true).length = Prim.draws (.writeByte 0x42)) ∧
      ∃ s : State, s.Inv ∧ s.host = [] ∧ s.rbc.script = some (.wr (.stop true)) ∧ s.rbc.sym = some .stop ∧
        s.rbc.bitc = 0 ∧ s.rbc.q = 0 ∧ s.rbc.tick = 0 ∧ (∀ b, Prim.stop = .writeByte b → s.rbc.sh = b) ∧
        s.slave = [] ++ [true] ∧ ([] : List Bool).length = Prim.draws .stop :=
  ⟨⟨{ inPrim 0x1 (.rd .slaW) with slave := ackDraws true }, inv_of (by decide), by decide, by decide, by decide, by decide,
      by decide, by decide, fun b h => by cases h; decide, by decide, by decide⟩,
    { inPrim 0x2 (.wr (.stop true)) with slave := [true] }, inv_of (by decide), by decide, by decide, by decide, by decide,
    by decide, by decide, fun b h => (by cases h), by decide, by decide⟩

/-- An idle machine, its host about to write a command, and a slave with as many levels as the command can take. -/
def aboutTo (v : Word) (n : Nat) : State :=
  { hostDoes { rbc := some (.write 0 v) } tiny with slave := absentDraws n }

theorem witness_RdReadsTheRegister :
    (aboutTo 1 36).Inv ∧ (aboutTo 1 36).rbc.phase = .idle ∧
      (aboutTo 1 36).host = [.cycle { rbc := some (.write 0 0x00000001) }] ∧ 36 ≤ (aboutTo 1 36).slave.length :=
  ⟨inv_of (by decide), by decide, by decide, by decide⟩

theorem witness_WrWritesTheRegister :
    (aboutTo 2 27).Inv ∧ (aboutTo 2 27).rbc.phase = .idle ∧
      (aboutTo 2 27).host = [.cycle { rbc := some (.write 0 0x00000002) }] ∧ 27 ≤ (aboutTo 2 27).slave.length :=
  ⟨inv_of (by decide), by decide, by decide, by decide⟩

theorem witness_ProbeIdentifiesTheSensor :
    (aboutTo 3 72).Inv ∧ (aboutTo 3 72).rbc.phase = .idle ∧
      (aboutTo 3 72).host = [.cycle { rbc := some (.write 0 0x00000003) }] ∧ 72 ≤ (aboutTo 3 72).slave.length :=
  ⟨inv_of (by decide), by decide, by decide, by decide⟩

theorem witness_EveryBusCommandCompletes :
    (accepted 0x1 (.rd .start)).Inv ∧ (accepted 0x1 (.rd .start)).hostOrdinary = true ∧
      (accepted 0x1 (.rd .start)).rbc.phase = .run ∧ (accepted 0x2 (.wr .start)).Inv ∧
      (accepted 0x2 (.wr .start)).hostOrdinary = true ∧ (accepted 0x3 (.idHigh .start)).Inv ∧
      (accepted 0x3 (.idHigh .start)).hostOrdinary = true :=
  ⟨inv_of (by decide), by decide, by decide, inv_of (by decide), by decide, inv_of (by decide), by decide⟩

/-- PROBE at the last quarter-step of its last stop, both identity bytes read: the next edge completes it. -/
def probeEnding : State :=
  tiny.setRbc { Rbc.reset with
    phase := .run, opS := 0x3, script := some (.idLow (.stop true)), sym := some .stop, q := 2, ok1 := true, ok2 := true,
    d0 := 0x76, d1 := 0x73 }

theorem witness_ResultsAppearAtCompletionOnly :
    ∃ t, probeEnding.Inv ∧ probeEnding.now.rst = false ∧ step probeEnding = .next t ∧ t.rbc.rdata ≠ probeEnding.rbc.rdata ∧
      probeEnding.rbc.phase = .run ∧ t.rbc.phase = .idle ∧ probeEnding.rbc.opS = 0x3 := by
  obtain ⟨t, ht⟩ := step_next (s := probeEnding) (inv_of (by decide)) (by decide)
  have h : (nextOf (step probeEnding)).map (fun t => (t.rbc.rdata, t.rbc.phase)) = some (0x7376, .idle) := by decide
  rw [ht] at h
  injection h with h
  injection h with h1 h2
  exact ⟨t, inv_of (by decide), by decide, ht, by rw [h1]; decide, by decide, h2, by decide⟩

theorem witness_OutcomeFollowsTheStatusPattern :
    ∃ r : Rbc, r.phase = .idle ∧ r.done = true ∧ (r.illegal = true → r.ok = false) :=
  ⟨{ Rbc.reset with done := true, illegal := true }, by decide, by decide, by decide⟩

/-- A row of R163 whose condition holds: the phase, the sample, and what the row asks of the operands. -/
def rowHolds (s : State) (p : CapPhase) (x : Sample) : Bool :=
  invOk s && s.now.ordinary && s.cap.phase == p && s.cap.sync2 == x

theorem witness_CaptureFollowsItsTable :
    rowHolds (capAt .vsDrain 0 0 2 2 vsHigh) .vsDrain vsHigh = true ∧
      rowHolds (capAt .vsDrain 0 0 2 2 .zero) .vsDrain .zero = true ∧
      rowHolds (capAt .vsWaitHigh 0 0 2 2 .zero) .vsWaitHigh .zero = true ∧
      rowHolds (capAt .vsWaitHigh 0 0 2 2 vsHigh) .vsWaitHigh vsHigh = true ∧
      rowHolds (capAt .vsWaitFall 0 0 2 2 vsHigh) .vsWaitFall vsHigh = true ∧
      rowHolds (capAt .vsWaitFall 0 0 2 0 .zero) .vsWaitFall .zero = true ∧
      rowHolds (capAt .vsWaitFall 0 0 2 1 .zero) .vsWaitFall .zero = true ∧
      rowHolds (capAt .rowWaitStart 0 0 2 2 .zero) .rowWaitStart .zero = true ∧
      rowHolds (capAt .rowWaitStart 1 0 0 2 hrHigh) .rowWaitStart hrHigh = true ∧
      rowHolds (capAt .rowWaitStart 1 0 1 2 hrHigh) .rowWaitStart hrHigh = true ∧
      rowHolds (capAt .pixWaitHigh 1 1 2 2 hrHigh) .pixWaitHigh hrHigh = true ∧
      rowHolds (capAt .pixWaitHigh 1 1 2 2 pcHigh) .pixWaitHigh pcHigh = true ∧
      rowHolds (capAt .pixWaitLow 1 1 2 2 pcHigh) .pixWaitLow pcHigh = true ∧
      (rowHolds (capAt .pixWaitLow 1 0 2 2 hrHigh) .pixWaitLow hrHigh = true ∧ (0 : Dim).toNat + 1 < (2 : Dim).toNat) ∧
      (rowHolds (capAt .pixWaitLow 1 1 2 2 hrHigh) .pixWaitLow hrHigh = true ∧ (1 : Dim).toNat + 1 = (2 : Dim).toNat) ∧
      rowHolds (capAt .rowWaitEnd 0 2 2 2 hrHigh) .rowWaitEnd hrHigh = true ∧
      rowHolds (capAt .rowWaitEnd 0 2 2 2 .zero) .rowWaitEnd .zero = true ∧
      rowHolds (capAt .rowWaitEnd 1 2 2 2 .zero) .rowWaitEnd .zero = true := by
  decide

theorem witness_SamplesAreTwoEdgesOld :
    ∃ s t u : State, s.now.rst = false ∧ t.now.rst = false ∧ step s = .next t ∧ step t = .next u := by
  obtain ⟨t, ht, p⟩ := step_next_parts (s := tiny) (inv_of (by decide)) (by decide)
  have hh : t.host = [] := p.host
  have hr : t.rbc = Rbc.reset := by rw [p.rbc]; rfl
  have hm : t.mem = [] := by rw [p.mem]; rfl
  have hw : t.fb.we = false := by rw [p.fbWe]; rfl
  have ho : t.memOld = [] := by rw [p.memOld]; rfl
  have hi : t.Inv :=
    ⟨by rw [hr]; rfl, by rw [p.cap]; rfl, by rw [hm]; rfl, by rw [hm]; rfl, by rw [ho]; rfl, fun _ _ _ => by rw [ho, hm],
      by simp [hw]⟩
  obtain ⟨u, hu⟩ := step_next hi (by rw [now_of_host_nil hh]; rfl)
  exact ⟨tiny, t, u, by decide, by rw [now_of_host_nil hh], ht, hu⟩

/-- An edge that stores a byte, and one that does not. -/
theorem witness_OnlyTheNextPixelIsStored :
    (∃ t, (capAt .pixWaitHigh 1 1 2 2 pcHigh).Inv ∧ step (capAt .pixWaitHigh 1 1 2 2 pcHigh) = .next t ∧ t.fb.we = true) ∧
      ∃ t, tiny.Inv ∧ step tiny = .next t ∧ t.fb.we = false := by
  obtain ⟨t, ht, p⟩ := step_next_parts (s := capAt .pixWaitHigh 1 1 2 2 pcHigh) (inv_of (by decide)) (by decide)
  obtain ⟨u, hu, q⟩ := step_next_parts (s := tiny) (inv_of (by decide)) (by decide)
  exact ⟨⟨t, inv_of (by decide), ht, by rw [p.fbWe]; rfl⟩, u, inv_of (by decide), hu, by rw [q.fbWe]; rfl⟩

theorem witness_BytesAreWrittenInRowMajorOrder :
    (∃ t, (capAt .pixWaitHigh 1 1 2 2 pcHigh).Inv ∧ (capAt .pixWaitHigh 1 1 2 2 pcHigh).now.rst = false ∧
        (capAt .pixWaitHigh 1 1 2 2 pcHigh).cap.phase ≠ .idle ∧ step (capAt .pixWaitHigh 1 1 2 2 pcHigh) = .next t) ∧
      ∃ t, tiny.cap.phase = .idle ∧ exec .capture tiny = .next t ∧ t.cap.phase ≠ .idle := by
  obtain ⟨t, ht⟩ := step_next (s := capAt .pixWaitHigh 1 1 2 2 pcHigh) (inv_of (by decide)) (by decide)
  exact ⟨⟨t, inv_of (by decide), by decide, by decide, ht⟩, _, by decide, rfl, by decide⟩

/-- An accepted capture before a source that sends a frame: what the synchronisers hold comes first. -/
def beforeFrame (w h : Dim) (rows : List (List Byte)) (rest : List Sample) : State :=
  match frameWave rows ++ rest with
  | a :: b :: v =>
    { tiny with
      cap := { Cap.reset with phase := .vsDrain, baseS := 0x100, wS := w, hS := h, sync2 := a, sync1 := b }, video := v }
  | _ => tiny

/-- Two rows of two bytes; three empty rows; no row. -/
theorem witness_CaptureStoresTheFrame :
    ∀ c ∈ [((2 : Dim), (2 : Dim), [[0x10, 0x11], [0x12, (0x13 : Byte)]]), (0, 3, [[], [], []]), (5, 0, [])],
      invOk (beforeFrame c.1 c.2.1 c.2.2 [.zero]) = true ∧
        (beforeFrame c.1 c.2.1 c.2.2 [.zero]).hostOrdinary = true ∧
        (beforeFrame c.1 c.2.1 c.2.2 [.zero]).cap.phase = .vsDrain ∧
        (beforeFrame c.1 c.2.1 c.2.2 [.zero]).cap.hS.toNat = c.2.2.length ∧
        (∀ r ∈ c.2.2, r.length = (beforeFrame c.1 c.2.1 c.2.2 [.zero]).cap.wS.toNat) ∧
        (beforeFrame c.1 c.2.1 c.2.2 [.zero]).pendingSamples = frameWave c.2.2 ++ [.zero] := by
  decide

/-- A frame-sync line that stays low. -/
theorem witness_CaptureWaitsWithoutTimeout :
    invOk (capAt .vsWaitHigh 0 0 2 2 .zero) = true ∧ (capAt .vsWaitHigh 0 0 2 2 .zero).hostOrdinary = true ∧
      (capAt .vsWaitHigh 0 0 2 2 .zero).cap.phase ≠ .idle ∧ 2 ≤ (capAt .vsWaitHigh 0 0 2 2 .zero).pendingSamples.length ∧
      ∀ x ∈ (capAt .vsWaitHigh 0 0 2 2 .zero).pendingSamples.take 2,
        (capAt .vsWaitHigh 0 0 2 2 .zero).cap.phase.exits x = false := by decide

theorem witness_UnwatchedLinesAreIgnored :
    (capAt .rowWaitEnd 0 2 2 2 .zero).cap.phase = .rowWaitEnd ∧ (⟨true, true, false, 7⟩ : Sample) =
        { (⟨false, true, false, 7⟩ : Sample) with vs := true } ∧
      (capAt .pixWaitLow 0 0 2 2 .zero).cap.phase = .pixWaitLow ∧ (⟨false, true, false, 7⟩ : Sample) =
        { (⟨false, false, false, 7⟩ : Sample) with hr := true } ∧
      (capAt .vsDrain 0 0 2 2 .zero).cap.phase = .vsDrain ∧ (⟨false, false, true, 9⟩ : Sample) =
        { (⟨false, false, false, 7⟩ : Sample) with pc := true, d := 9 } := by decide

/-- A read of a byte of a running capture's buffer. -/
theorem witness_FrameBufferReadsRaceOnlyWithTheirCapture :
    ∃ t, (hostDoes { fb := some 0x101 } (capAt .pixWaitHigh 1 1 2 2 pcHigh)).host = .cycle { fb := some 0x101 } :: [] ∧
      step (hostDoes { fb := some 0x101 } (capAt .pixWaitHigh 1 1 2 2 pcHigh)) = .next t := by
  obtain ⟨t, ht⟩ := step_next (s := hostDoes { fb := some 0x101 } (capAt .pixWaitHigh 1 1 2 2 pcHigh)) (inv_of (by decide))
    (by decide)
  exact ⟨t, by decide, ht⟩

theorem witness_PseudoInstructionsExpandToOrdinaryLines : pollIdle .rbcStatus ∈ (Pseudo.rdSync 0x0A).expand := by decide

/-- A poll for `BUSY` = 0 of an idle and of a running register client, and of the capture engine. -/
theorem witness_PollRepeatsUntilTheFieldIsEqual :
    (∃ t, step { tiny with host := .poll .rbc 4 1 0 :: [] } = .next t ∧ tiny.window .rbc 4 &&& 1 = 0) ∧
      (∃ t, step { accepted 0x1 (.rd .start) with host := .poll .rbc 4 1 0 :: [] } = .next t ∧
        (accepted 0x1 (.rd .start)).window .rbc 4 &&& 1 ≠ 0) ∧
      ∃ t, step { tiny with host := .poll .cap 4 1 0 :: [] } = .next t := by
  obtain ⟨t, ht⟩ := step_next (s := { tiny with host := .poll .rbc 4 1 0 :: [] }) (inv_of (by decide)) (by decide)
  obtain ⟨u, hu⟩ := step_next (s := { accepted 0x1 (.rd .start) with host := .poll .rbc 4 1 0 :: [] }) (inv_of (by decide))
    (by decide)
  obtain ⟨v, hv⟩ := step_next (s := { tiny with host := .poll .cap 4 1 0 :: [] }) (inv_of (by decide)) (by decide)
  exact ⟨⟨t, ht, by decide⟩, ⟨u, hu, by decide⟩, v, hv⟩

/-- Fixture M[VAL 0x3A]: the second step of `applyFormat(YUV_Interleaved)` fails its write. -/
theorem witness_FormatProcedureStopsAtTheFirstFailure :
    ∃ w', runSteps (mockPortVal 0x3A) (OutputFormat.steps par .yuvInterleaved) (fun _ => 0) = some (.fail 0x3A .write, w') :=
  ⟨_, rfl⟩

/-- A host that writes a register of each block in one cycle. -/
def writesBoth (offR offC : Word) : State := hostDoes { rbc := some (.write offR 0x12345), cap := some (.write offC 0x12345) } tiny

/-- A cycle that writes an operand register of each block, and one that writes none of them. -/
theorem witness_OperandRegistersReadBackTheirField :
    (writesBoth 0x08 0x08).Inv ∧ (writesBoth 0x08 0x08).now.ordinary = true ∧
      (writesBoth 0x08 0x08).now.rbc = some (.write 0x08 0x12345) ∧ (writesBoth 0x08 0x08).now.cap = some (.write 0x08 0x12345) ∧
      (writesBoth 0x0C 0x0C).Inv ∧ (writesBoth 0x0C 0x0C).now.ordinary = true ∧
      (writesBoth 0x0C 0x0C).now.rbc = some (.write 0x0C 0x12345) ∧ (writesBoth 0x0C 0x0C).now.cap = some (.write 0x0C 0x12345) ∧
      (writesBoth 0x0C 0x10).Inv ∧ (writesBoth 0x0C 0x10).now.ordinary = true ∧
      (writesBoth 0x0C 0x10).now.cap = some (.write 0x10 0x12345) ∧
      tiny.Inv ∧ tiny.now.ordinary = true ∧ tiny.now.rbc = none ∧ tiny.now.cap = none :=
  ⟨inv_of (by decide), by decide, rfl, rfl, inv_of (by decide), by decide, rfl, rfl, inv_of (by decide), by decide, rfl,
    inv_of (by decide), by decide, rfl, rfl⟩

/-- An idle block whose status register, or a read-only register, is written: the first and the last such offset. -/
theorem witness_other_writes_of_an_idle_block :
    (writesBoth 0x04 0x04).Inv ∧ (writesBoth 0x04 0x04).now.ordinary = true ∧ (writesBoth 0x04 0x04).rbc.phase = .idle ∧
      (writesBoth 0x04 0x04).cap.phase = .idle ∧ (writesBoth 0x04 0x04).now.rbc = some (.write 0x04 0x12345) ∧
      (writesBoth 0x04 0x04).now.cap = some (.write 0x04 0x12345) ∧
      (writesBoth 0x10 0x14).Inv ∧ (writesBoth 0x10 0x14).now.ordinary = true ∧
      (writesBoth 0x10 0x14).now.rbc = some (.write 0x10 0x12345) ∧ (writesBoth 0x10 0x14).now.cap = some (.write 0x14 0x12345) ∧
      (writesBoth 0x3C 0x3C).now.ordinary = true ∧ 0x10 ≤ (0x3C : Word).toNat ∧ 0x14 ≤ (0x3C : Word).toNat :=
  ⟨inv_of (by decide), by decide, by decide, by decide, rfl, rfl, inv_of (by decide), by decide, rfl, rfl, by decide, by decide,
    by decide⟩

/-- A register file whose register `f` cannot be read: describing it fails there. -/
def unreadable (f : Byte) : SyncPort MockRegs := { mockPort with rd := fun m a => some (a != f, m a, m) }

/-- R200: each of the four reads can be the one that fails. -/
theorem witness_describe_fails_at_each_read :
    ∀ f ∈ [(0x12 : Byte), 0x40, 0x3A, 0x3D],
      (describeCurrentFormat (unreadable f) (fun _ => 0)).map Prod.fst = some (.fail f) := by decide

/-- R197, R199: the codes and details that no format procedure leaves. -/
theorem witness_describe_codes :
    (0x05 : Byte).getLsbD 2 = true ∧ (0x05 : Byte).getLsbD 0 = true ∧ (0x04 : Byte).getLsbD 2 = true ∧
      (0x04 : Byte).getLsbD 0 = false ∧ (0x30 : Byte).extractLsb' 4 2 = 0b11 ∧ (0x20 : Byte).extractLsb' 4 2 = 0b10 := by decide

/-- An idle register client and an idle capture engine, each in a cycle that reads it. -/
theorem witness_idle_blocks_keep_their_state :
    ∃ t, (hostDoes { rbc := some (.read 0x04), cap := some (.read 0x04) } tiny).Inv ∧
      (hostDoes { rbc := some (.read 0x04), cap := some (.read 0x04) } tiny).now.rst = false ∧ tiny.rbc.phase = .idle ∧
      tiny.cap.phase = .idle ∧
      (∀ off v, (hostDoes { rbc := some (.read 0x04), cap := some (.read 0x04) } tiny).now.rbc ≠ some (.write off v)) ∧
      (∀ off v, (hostDoes { rbc := some (.read 0x04), cap := some (.read 0x04) } tiny).now.cap ≠ some (.write off v)) ∧
      step (hostDoes { rbc := some (.read 0x04), cap := some (.read 0x04) } tiny) = .next t := by
  obtain ⟨t, ht⟩ := step_next (s := hostDoes { rbc := some (.read 0x04), cap := some (.read 0x04) } tiny) (inv_of (by decide))
    (by decide)
  exact ⟨t, inv_of (by decide), by decide, by decide, by decide, fun _ _ => by simp [hostDoes, State.now, HostLine.now],
    fun _ _ => by simp [hostDoes, State.now, HostLine.now], ht⟩

/-- The first quarter-step of a byte written, and of a byte read. -/
theorem witness_BytesAreDrivenBitByBit :
    (∀ x ∈ [(Script.rd .slaW, Prim.writeByte 0x42), (.rd .data, .readByte)],
      invOk (inPrim 0x1 x.1) = true ∧ (inPrim 0x1 x.1).hostOrdinary = true ∧ (inPrim 0x1 x.1).rbc.sym = some x.2 ∧
        x.2.isByte = true ∧ (inPrim 0x1 x.1).rbc.bitc = 0 ∧ (inPrim 0x1 x.1).rbc.q = 0 ∧ (inPrim 0x1 x.1).rbc.tick = 0 ∧
        0 < (inPrim 0x1 x.1).params.tqCycles) ∧
      ∀ b, Prim.writeByte 0x42 = .writeByte b → (inPrim 0x1 (.rd .slaW)).rbc.sh = b :=
  ⟨by decide, fun b h => by cases h; decide⟩

/-- A completed and a refused command of each block, with and without `OVR`. -/
theorem witness_outcomes :
    { Rbc.reset with done := true, ok := true, ovr := true }.outcomes = [.success, .overrun] ∧
      { Rbc.reset with done := true, ok := true, opS := 3 }.outcomes = [.idMismatch] ∧
      { Rbc.reset with done := true }.outcomes = [.busFail] ∧
      { Rbc.reset with phase := .run, ovr := true }.outcomes = [.overrun] ∧
      { Cap.reset with done := true, ovr := true }.outcomes = [.capDone, .overrun] ∧
      { Cap.reset with done := true, illegal := true }.outcomes = [.illegalCmd] := by decide

/-- A step of a running capture that has written three bytes. -/
theorem witness_memOld_is_kept :
    ∃ t, (capAt .pixWaitHigh 1 1 2 2 pcHigh).Inv ∧ (capAt .pixWaitHigh 1 1 2 2 pcHigh).now.rst = false ∧
      (capAt .pixWaitHigh 1 1 2 2 pcHigh).cap.phase ≠ .idle ∧ step (capAt .pixWaitHigh 1 1 2 2 pcHigh) = .next t := by
  obtain ⟨t, ht⟩ := step_next (s := capAt .pixWaitHigh 1 1 2 2 pcHigh) (inv_of (by decide)) (by decide)
  exact ⟨t, inv_of (by decide), by decide, by decide, ht⟩

/-- An idle machine with a slave's answers; and one before a source that sends a frame, the first two samples being those of the edges
at which `capture` writes its operands. -/
theorem witness_ClientCallsRunOnTheMachine :
    ({ tiny with slave := absentDraws 36 }).Inv ∧ ({ tiny with slave := absentDraws 36 }).rbc.phase = .idle ∧
      36 ≤ ({ tiny with slave := absentDraws 36 }).slave.length ∧
      ({ tiny with video := .zero :: .zero :: (frameWave [[0x10, 0x11]] ++ [])}).Inv ∧
      ({ tiny with video := .zero :: .zero :: (frameWave [[0x10, 0x11]] ++ [])}).cap.phase = .idle ∧
      (0xFFFFFFFE : Word).toNat + (2 : Dim).toNat * (1 : Dim).toNat ≤ 2 ^ 32 ∧
      (1 : Dim).toNat = ([[0x10, 0x11]] : List (List Byte)).length ∧
      (∀ r ∈ ([[0x10, 0x11]] : List (List Byte)), r.length = (2 : Dim).toNat) ∧
      ∃ x1, applyFormat par mockPort .unrecognized (fun _ => 0) = some (.done, x1) :=
  ⟨inv_of (by decide), by decide, by decide, inv_of (by decide), by decide, by decide, by decide, by decide, _, rfl⟩

end Sys2Proof.Tests
end

/-! Settlement of O34 (spec/00_scope.md R10, spec/60_exceptions.md R226): what a step makes of each block is a function of that
block and its own inputs. `StepParts` says so of an ordinary edge, the fields of `resetEdge` of a reset edge. -/

namespace Sys2Proof.Machine

/-! ## A reset edge, field by field -/

@[simp] theorem resetEdge_rbc (c : HostCycle) (s : State) : (resetEdge c s).rbc = rbcAfterReset s.edge := rfl
@[simp] theorem resetEdge_cap (c : HostCycle) (s : State) : (resetEdge c s).cap = capAfterReset s.edge := rfl
@[simp] theorem resetEdge_fb (c : HostCycle) (s : State) : (resetEdge c s).fb = .reset := rfl
@[simp] theorem resetEdge_mem (c : HostCycle) (s : State) : (resetEdge c s).mem = s.mem := rfl
@[simp] theorem resetEdge_slave (c : HostCycle) (s : State) : (resetEdge c s).slave = s.slave := rfl
@[simp] theorem resetEdge_trace (c : HostCycle) (s : State) : (resetEdge c s).trace = s.trace := rfl
@[simp] theorem resetEdge_readRbc (c : HostCycle) (s : State) :
    (resetEdge c s).readRbc = readBack Rbc.reset.readReg c.rbc := rfl
@[simp] theorem resetEdge_readCap (c : HostCycle) (s : State) :
    (resetEdge c s).readCap = readBack Cap.reset.readReg c.cap := rfl

/-- A step with `rst` = 1 is the reset edge (R250). -/
theorem step_eq_resetEdge {s t : State} (h : step s = .next t) (hr : s.now.rst = true) : t = resetEdge s.now s := by
  obtain ⟨-, -, ⟨-, ht⟩ | ⟨hr', -⟩⟩ := step_cases h
  · exact ht
  · simp [hr] at hr'

/-- The port after an ordinary step: the store of this edge, or the address and data it held. -/
theorem StepParts.fb_eq {s t : State} (h : StepParts s t) :
    t.fb = if s.capStep.2 then ⟨true, BitVec.ofNat 32 s.cap.pixelAddr, s.cap.sync2.d⟩ else { s.fb with we := false } := by
  have hport : t.fb = ⟨t.fb.we, t.fb.addr, t.fb.data⟩ := rfl
  rw [hport, h.fbWe]
  cases hst : s.capStep.2 with
  | true => simp [h.fbAddr hst, h.fbData hst]
  | false => simp [h.fbHeld hst]

/-! ## The register client's side -/

/-- Two machines agree on the register client, on the inputs and draws it depends on, and on the trace it extends. -/
structure SameRbcSide (s1 s2 : State) : Prop where
  params : s1.params = s2.params
  rbc : s1.rbc = s2.rbc
  slave : s1.slave = s2.slave
  edge : s1.edge = s2.edge
  trace : s1.trace = s2.trace
  rst : s1.now.rst = s2.now.rst
  access : s1.now.rbc = s2.now.rbc

section
variable {s1 s2 t1 t2 : State} (h : SameRbcSide s1 s2)
include h

theorem SameRbcSide.slaveLevel_eq : slaveLevel s1 = slaveLevel s2 := by
  simp only [slaveLevel, h.slave, h.edge]

theorem SameRbcSide.rbcStep_eq : s1.rbcStep = s2.rbcStep := by
  simp only [State.rbcStep, h.rbc, h.access, h.params, h.edge, h.slaveLevel_eq]

/-- What one step makes of the register client's side does not depend on the capture engine (R10, R226). -/
theorem SameRbcSide.step_agrees (hs1 : step s1 = .next t1) (hs2 : step s2 = .next t2) :
    t1.rbc = t2.rbc ∧ t1.slave = t2.slave ∧ t1.trace = t2.trace ∧ t1.readRbc = t2.readRbc := by
  cases hr : s1.now.rst with
  | true =>
    obtain rfl := step_eq_resetEdge hs1 hr
    obtain rfl := step_eq_resetEdge hs2 (h.rst ▸ hr)
    simp [h.edge, h.slave, h.trace, h.access]
  | false =>
    have p1 := step_parts hs1 hr
    have p2 := step_parts hs2 (h.rst ▸ hr)
    simp [p1.rbc, p2.rbc, p1.slave, p2.slave, p1.trace, p2.trace, p1.readRbc, p2.readRbc, h.rbcStep_eq, h.slave, h.trace,
      h.rbc, h.access]

end

/-! ## The capture engine's side -/

/-- Two machines agree on the capture engine, its port and the frame buffer, and on the inputs and draws they depend on. -/
structure SameCapSide (s1 s2 : State) : Prop where
  cap : s1.cap = s2.cap
  mem : s1.mem = s2.mem
  fb : s1.fb = s2.fb
  video : s1.video = s2.video
  edge : s1.edge = s2.edge
  rst : s1.now.rst = s2.now.rst
  access : s1.now.cap = s2.now.cap

section
variable {s1 s2 t1 t2 : State} (h : SameCapSide s1 s2)
include h

theorem SameCapSide.videoLevel_eq : videoLevel s1 = videoLevel s2 := by
  simp only [videoLevel, h.video, h.edge]

theorem SameCapSide.capStep_eq : s1.capStep = s2.capStep := by
  simp only [State.capStep, h.cap, h.access]

/-- What one step makes of the capture engine's side does not depend on the register client (R10, R226). -/
theorem SameCapSide.step_agrees (hs1 : step s1 = .next t1) (hs2 : step s2 = .next t2) :
    t1.cap = t2.cap ∧ t1.mem = t2.mem ∧ t1.fb = t2.fb ∧ t1.readCap = t2.readCap := by
  cases hr : s1.now.rst with
  | true =>
    obtain rfl := step_eq_resetEdge hs1 hr
    obtain rfl := step_eq_resetEdge hs2 (h.rst ▸ hr)
    simp [h.edge, h.mem, h.access]
  | false =>
    have p1 := step_parts hs1 hr
    have p2 := step_parts hs2 (h.rst ▸ hr)
    simp [p1.cap, p2.cap, p1.mem, p2.mem, p1.fb_eq, p2.fb_eq, p1.readCap, p2.readCap, h.capStep_eq, h.videoLevel_eq, h.cap,
      h.mem, h.fb, h.access]

end

/-- Settles O34: two steps from states that agree on one block's side agree on what they make of it. -/
theorem theBlocksDoNotInterfere : Obligations.TheBlocksDoNotInterfere := by
  unfold Obligations.TheBlocksDoNotInterfere
  constructor
  · intro s1 s2 t1 t2 hparams hrbc hslave hedge htrace hrst haccess hs1 hs2
    exact SameRbcSide.step_agrees ⟨hparams, hrbc, hslave, hedge, htrace, hrst, haccess⟩ hs1 hs2
  · intro s1 s2 t1 t2 hcap hmem hfb hvideo hedge hrst haccess hs1 hs2
    exact SameCapSide.step_agrees ⟨hcap, hmem, hfb, hvideo, hedge, hrst, haccess⟩ hs1 hs2

end Sys2Proof.Machine

/-! Settlements of the state family. First the layer they share: what a host access and the engine's part of an edge leave of
each block, then the invariant (O25, O24), the registers (O23, O26, O28, O29), `OVR` (O31), the results (O44) and the idle capture
engine (O59). -/

namespace Sys2Proof.Machine

/-! ## A busy block: the host's access and the engine act on separate fields -/

theorem Rbc.busy_iff {r : Rbc} : r.busy = true ↔ r.phase = .run := by simp [Rbc.busy]

theorem Cap.busy_iff {c : Cap} : c.busy = true ↔ c.phase ≠ .idle := by simp [Cap.busy]

theorem Rbc.busy_of_idle {r : Rbc} (h : r.phase = .idle) : r.busy = false := by simp [Rbc.busy, h]

theorem Cap.busy_of_idle {c : Cap} (h : c.phase = .idle) : c.busy = false := by simp [Cap.busy, h]

/-- A host access to a running register client replaces its `OVR` and operand registers only (R64, R133). -/
theorem Rbc.afterAccess_eq_withHost {r : Rbc} (h : r.busy = true) (a : Option HostAccess) :
    r.afterAccess a = r.withHost (r.afterAccess a).ovr (r.afterAccess a).addr (r.afterAccess a).wdata := by
  obtain ⟨ov, ad, wd, ha⟩ := Rbc.afterAccess_busy h a
  rw [ha]
  rfl

/-- A host access to a running capture replaces its `OVR` and operand registers only (R64, R166). -/
theorem Cap.afterAccess_eq_withHost {c : Cap} (h : c.busy = true) (a : Option HostAccess) :
    c.afterAccess a =
      c.withHost (c.afterAccess a).ovr (c.afterAccess a).base (c.afterAccess a).width (c.afterAccess a).height := by
  obtain ⟨ov, b, w, ht, ha⟩ := Cap.afterAccess_busy h a
  rw [ha]
  rfl

section
variable {s : State}

theorem State.rbcStep_idle (h : s.rbc.busy = false) : s.rbcStep = (s.rbc.afterAccess s.now.rbc, [], false) := by
  simp [State.rbcStep, h]

/-- A running register client: the engine's edge, with the host's access riding along. -/
theorem State.rbcStep_busy (h : s.rbc.busy = true) :
    s.rbcStep.1 = (s.rbc.edge s.params s.edge (slaveLevel s)).1.withHost (s.rbc.afterAccess s.now.rbc).ovr
      (s.rbc.afterAccess s.now.rbc).addr (s.rbc.afterAccess s.now.rbc).wdata := by
  rw [State.rbcStep, if_pos h]
  conv_lhs => rw [Rbc.afterAccess_eq_withHost h, Rbc.edge_withHost]

theorem State.capStep_idle (h : s.cap.busy = false) : s.capStep = (s.cap.afterAccess s.now.cap, false) := by
  simp [State.capStep, h]

/-- A running capture: the engine's edge, with the host's access riding along. -/
theorem State.capStep_busy (h : s.cap.busy = true) :
    s.capStep = ((s.cap.edge s.cap.sync2).1.withHost (s.cap.afterAccess s.now.cap).ovr (s.cap.afterAccess s.now.cap).base
      (s.cap.afterAccess s.now.cap).width (s.cap.afterAccess s.now.cap).height, (s.cap.edge s.cap.sync2).2) := by
  rw [State.capStep, if_pos h]
  conv_lhs => rw [Cap.afterAccess_eq_withHost h, Cap.edge_withHost]

/-- No engine writes what the host owns: after an edge, `OVR` and the operand registers are what the host's access left (R35, R64). -/
theorem State.rbcStep_host :
    s.rbcStep.1.ovr = (s.rbc.afterAccess s.now.rbc).ovr ∧ s.rbcStep.1.addr = (s.rbc.afterAccess s.now.rbc).addr ∧
      s.rbcStep.1.wdata = (s.rbc.afterAccess s.now.rbc).wdata := by
  cases hb : s.rbc.busy with
  | false => simp [State.rbcStep_idle hb]
  | true => simp [State.rbcStep_busy hb, Rbc.withHost]

/-- The same of the capture engine. -/
theorem State.capStep_host :
    s.capStep.1.ovr = (s.cap.afterAccess s.now.cap).ovr ∧ s.capStep.1.base = (s.cap.afterAccess s.now.cap).base ∧
      s.capStep.1.width = (s.cap.afterAccess s.now.cap).width ∧
      s.capStep.1.height = (s.cap.afterAccess s.now.cap).height := by
  cases hb : s.cap.busy with
  | false => simp [State.capStep_idle hb]
  | true => simp [State.capStep_busy hb, Cap.withHost]

end

/-! ## The invariant -/

/-- `rbcEdge_good` for the engine's edge as a function of the block: it is run in a machine that holds the block and its inputs. -/
theorem Rbc.edge_good {par : Config.Params} {r : Rbc} (hb : r.busy = true) (hg : r.good par.tqMinus1 = true) (n : Nat)
    (level : Bool) : (r.edge par n level).1.good par.tqMinus1 = true := by
  obtain ⟨-, -, -, pos, hs, -⟩ := Rbc.good_run hb hg
  exact rbcEdge_good hb hg
    (rbcEdge_eq (s := { State.reset with params := par, rbc := r, edge := n, slave := [level] }) hb hs)

/-- `capOn_good` for the engine's edge as a function of the block. -/
theorem Cap.edge_good {c : Cap} (hg : c.good = true) (x : Sample) : (c.edge x).1.good = true := by
  have hon : ∃ t, capOn x (State.reset.setCap c) = .next t ∧ t.cap = (c.edge x).1 := by
    rw [capOn_eq, State.setCap_cap]
    split
    · next hst => exact ⟨_, by rw [memWrite, if_pos (Cap.edge_addr hg hst).2], rfl⟩
    · exact ⟨_, rfl, rfl⟩
  obtain ⟨t, ht, hcap⟩ := hon
  exact hcap ▸ capOn_good (s := State.reset.setCap c) hg ht

theorem State.rbcStep_good {s : State} (hg : s.rbc.good s.params.tqMinus1 = true) :
    s.rbcStep.1.good s.params.tqMinus1 = true := by
  have ha := Rbc.afterAccess_good hg s.now.rbc
  cases hb : s.rbc.busy with
  | false => rwa [State.rbcStep_idle hb]
  | true =>
    rw [State.rbcStep, if_pos hb]
    refine Rbc.edge_good ?_ ha _ _
    rw [Rbc.afterAccess_eq_withHost hb]
    exact hb

theorem State.capStep_good {s : State} (hg : s.cap.good = true) : s.capStep.1.good = true := by
  have ha := Cap.afterAccess_good hg s.now.cap
  unfold State.capStep
  split
  · exact Cap.edge_good ha _
  · exact ha

/-- A running capture stores at the address after the bytes it has written, and counts that byte as written (R173). -/
theorem State.capStep_progress {s : State} (hg : s.cap.good = true) (hb : s.cap.busy = true) :
    s.capStep.1.baseS = s.cap.baseS ∧ (s.capStep.2 = false → s.capStep.1.written = s.cap.written) ∧
      (s.capStep.2 = true →
        s.capStep.1.written = s.cap.written + 1 ∧ s.cap.pixelAddr = s.cap.baseS.toNat + s.cap.written) := by
  obtain ⟨hbase, -, -, hkept, hstored, -⟩ := Cap.edge_written s.cap.sync2 hg hb
  rw [State.capStep_busy hb]
  exact ⟨hbase, hkept, hstored⟩

/-- The record of the acceptance (assumption 7) through an ordinary step. Where a capture is accepted the record is the frame buffer
itself; where one runs, the byte stored is the next one of the buffer, so no address outside the bytes written is touched. -/
theorem StepParts.oldAgrees {s t : State} (p : StepParts s t) (hg : s.cap.good = true) (ho : s.oldAgrees) : t.oldAgrees := by
  intro htb a ha
  have hstep : s.capStep.1.busy = true := by rw [p.cap] at htb; exact htb
  replace ha : a < s.capStep.1.baseS.toNat ∨ s.capStep.1.baseS.toNat + s.capStep.1.written ≤ a := by
    rw [p.cap] at ha; exact ha
  rw [p.memOld, p.mem]
  cases hb : s.cap.busy with
  | false =>
    rw [State.capStep_idle hb] at hstep ⊢
    rw [State.oldAfter_starts hb hstep]
    rfl
  | true =>
    rw [State.oldAfter_busy hb]
    obtain ⟨hbase, hkept, hstored⟩ := State.capStep_progress hg hb
    rw [hbase] at ha
    cases hst : s.capStep.2 with
    | false =>
      rw [hkept hst] at ha
      exact ho hb a ha
    | true =>
      obtain ⟨hwritten, haddr⟩ := hstored hst
      rw [if_pos rfl, Memory.get_set_other _ _ (by omega)]
      exact ho hb a (by omega)

/-- A byte on the port after a step is the one the step has stored (R66). -/
theorem StepParts.port {s t : State} (p : StepParts s t) (hwe : t.fb.we = true) :
    t.mem.get t.fb.addr.toNat = some t.fb.data := by
  have hst : s.capStep.2 = true := p.fbWe ▸ hwe
  have haddr : (BitVec.ofNat 32 s.cap.pixelAddr).toNat = s.cap.pixelAddr := Nat.mod_eq_of_lt (p.addrLt hst)
  rw [p.mem, if_pos hst, p.fbAddr hst, p.fbData hst, haddr, Memory.get_set_same]

/-- An ordinary step keeps the invariant. -/
theorem StepParts.inv {s t : State} (p : StepParts s t) (hi : s.Inv) : t.Inv where
  rbc := by rw [p.rbc, p.params]; exact State.rbcStep_good hi.rbc
  cap := by rw [p.cap]; exact State.capStep_good hi.cap
  memWf := by
    rw [p.mem]
    split
    · exact Memory.wf_set hi.memWf _ _
    · exact hi.memWf
  memSpace := by
    rw [p.mem]
    split
    · next hst => exact Memory.inSpace_set hi.memSpace (p.addrLt hst) _
    · exact hi.memSpace
  oldWf := by
    rw [p.memOld, State.oldAfter]
    split
    · exact hi.memWf
    · exact hi.oldWf
  old := p.oldAgrees hi.cap hi.old
  port := p.port

/-- A reset edge leaves two idle blocks, no byte on the port, and the frame buffer as it was (R250). -/
theorem resetEdge_inv {s : State} (hi : s.Inv) (c : HostCycle) : (resetEdge c s).Inv where
  rbc := rbcAfterReset_good _ _
  cap := capAfterReset_good _
  memWf := hi.memWf
  memSpace := hi.memSpace
  oldWf := hi.oldWf
  old := fun hb => absurd hb Bool.false_ne_true
  port := fun hwe => absurd hwe Bool.false_ne_true

/-- Settles O25: a step is a reset edge or an ordinary one, and each keeps the invariant. -/
theorem everyStepKeepsTheInvariant : Obligations.EveryStepKeepsTheInvariant := by
  unfold Obligations.EveryStepKeepsTheInvariant
  intro s t hi h
  cases hr : s.now.rst with
  | true =>
    obtain rfl := step_eq_resetEdge h hr
    exact resetEdge_inv hi _
  | false => exact (step_parts h hr).inv hi

/-- Settles O24: both blocks are idle and the frame buffer lists no byte. -/
theorem resetStateMeetsTheInvariant : Obligations.ResetStateMeetsTheInvariant where
  rbc := rfl
  cap := rfl
  memWf := State.reset_mem_wf
  memSpace := rfl
  oldWf := State.reset_mem_wf
  old := fun hb => absurd hb Bool.false_ne_true
  port := fun hwe => absurd hwe Bool.false_ne_true

/-! ## `OVR` and the operand registers through a host access -/

/-- What a host access leaves of a block's `OVR`: a command write while busy sets it, a write of the status register with bit 5 set
clears it (R24, R30, R35, R133, R166). -/
def ovrAfter (busy ovr : Bool) (a : Option HostAccess) : Bool :=
  match a with
  | some (.write off v) =>
    if off.toNat = 0 then busy || ovr else if off.toNat = 4 then ovr && !v.getLsbD 5 else ovr
  | _ => ovr

theorem ovrAfter_set_iff {busy : Bool} {a : Option HostAccess} :
    ovrAfter busy false a = true ↔ isCommand a = true ∧ busy = true := by
  rcases a with _ | ⟨off, v⟩ | off
  · simp [ovrAfter, isCommand]
  · by_cases h : off.toNat = 0 <;> simp [ovrAfter, isCommand, h]
  · simp [ovrAfter, isCommand]

theorem ovrAfter_clear_iff {busy : Bool} {a : Option HostAccess} :
    ovrAfter busy true a = false ↔ ∃ v, a = some (.write 0x04 v) ∧ v.getLsbD 5 = true := by
  rcases a with _ | ⟨off, v⟩ | off
  · simp [ovrAfter]
  · have hoff : off = 4#32 ↔ off.toNat = 4 := BitVec.toNat_eq
    by_cases h : off.toNat = 4 <;> simp [ovrAfter, hoff, h]
  · simp [ovrAfter]

/-- What a host access leaves of an operand register at offset `off` whose field is bits [n-1:0] (R25, R26, R31 to R33, R62). -/
def fieldAfter {n : Nat} (off : Word) (old : BitVec n) (a : Option HostAccess) : BitVec n :=
  match a with
  | some (.write o v) => if o = off then field v 0 n else old
  | _ => old

@[simp] theorem fieldAfter_write {n : Nat} (off v : Word) (old : BitVec n) :
    fieldAfter off old (some (.write off v)) = field v 0 n := by simp [fieldAfter]

theorem fieldAfter_of_not_written {n : Nat} {off : Word} {a : Option HostAccess} (h : ∀ v, a ≠ some (.write off v))
    (old : BitVec n) : fieldAfter off old a = old := by
  rcases a with _ | ⟨o, v⟩ | o
  · rfl
  · have ho : o ≠ off := by rintro rfl; exact h v rfl
    simp [fieldAfter, ho]
  · rfl

/-- A command write leaves the operand registers alone, and sets `OVR` while busy (R131, R133). -/
theorem Rbc.afterCommand_host (r : Rbc) (v : Word) :
    (r.afterCommand v).ovr = (r.busy || r.ovr) ∧ (r.afterCommand v).addr = r.addr ∧ (r.afterCommand v).wdata = r.wdata := by
  unfold Rbc.afterCommand
  cases hb : r.busy
  · rcases decodeRbc_cases v with h | h | h | h | ⟨e, h⟩ <;> simp [h]
  · simp

/-- What a host access leaves of what the host owns (R24 to R26). -/
theorem Rbc.afterAccess_host (r : Rbc) (a : Option HostAccess) :
    (r.afterAccess a).ovr = ovrAfter r.busy r.ovr a ∧ (r.afterAccess a).addr = fieldAfter 0x08 r.addr a ∧
      (r.afterAccess a).wdata = fieldAfter 0x0C r.wdata a := by
  rcases a with _ | ⟨off, v⟩ | off
  · exact ⟨rfl, rfl, rfl⟩
  · by_cases h0 : off.toNat = 0
    · obtain ⟨hovr, haddr, hwdata⟩ := r.afterCommand_host v
      simp [Rbc.afterAccess, ovrAfter, fieldAfter, BitVec.toNat_eq, h0, hovr, haddr, hwdata]
    · simp only [Rbc.afterAccess, ovrAfter, fieldAfter, BitVec.toNat_eq, h0, if_false]
      unfold Rbc.writeReg
      split <;> simp_all [Rbc.writeStatus]
  · exact ⟨rfl, rfl, rfl⟩

/-- A command write leaves the operand registers alone, and sets `OVR` while busy (R164 to R166). -/
theorem Cap.afterCommand_host (c : Cap) (v : Word) :
    (c.afterCommand v).ovr = (c.busy || c.ovr) ∧ (c.afterCommand v).base = c.base ∧ (c.afterCommand v).width = c.width ∧
      (c.afterCommand v).height = c.height := by
  unfold Cap.afterCommand
  cases hb : c.busy
  · rcases decodeCap_cases v with h | h | ⟨e, h⟩
    · simp [h]
    · cases hr : c.rangeIllegal <;> simp [h, Cap.flagIllegal, Cap.start, Cap.snapshot, Cap.flagAccept]
    · simp [h, Cap.flagIllegal]
  · simp [Cap.overrun]

/-- What a host access leaves of what the host owns (R30 to R33). -/
theorem Cap.afterAccess_host (c : Cap) (a : Option HostAccess) :
    (c.afterAccess a).ovr = ovrAfter c.busy c.ovr a ∧ (c.afterAccess a).base = fieldAfter 0x08 c.base a ∧
      (c.afterAccess a).width = fieldAfter 0x0C c.width a ∧ (c.afterAccess a).height = fieldAfter 0x10 c.height a := by
  rcases a with _ | ⟨off, v⟩ | off
  · exact ⟨rfl, rfl, rfl, rfl⟩
  · by_cases h0 : off.toNat = 0
    · obtain ⟨hovr, hbase, hwidth, hheight⟩ := c.afterCommand_host v
      simp [Cap.afterAccess, ovrAfter, fieldAfter, BitVec.toNat_eq, h0, hovr, hbase, hwidth, hheight]
    · simp only [Cap.afterAccess, ovrAfter, fieldAfter, BitVec.toNat_eq, h0, if_false]
      unfold Cap.writeReg
      split <;> simp_all [Cap.writeStatus, field]
  · exact ⟨rfl, rfl, rfl, rfl⟩

/-- What an ordinary step leaves of what the host owns in the register client: what its access left, the engine writing none of it. -/
theorem StepParts.rbc_host {s t : State} (p : StepParts s t) :
    t.rbc.ovr = ovrAfter s.rbc.busy s.rbc.ovr s.now.rbc ∧ t.rbc.addr = fieldAfter 0x08 s.rbc.addr s.now.rbc ∧
      t.rbc.wdata = fieldAfter 0x0C s.rbc.wdata s.now.rbc := by
  obtain ⟨hovr, haddr, hwdata⟩ := s.rbcStep_host
  rw [p.rbc, hovr, haddr, hwdata]
  exact Rbc.afterAccess_host _ _

/-- The same of the capture engine. -/
theorem StepParts.cap_host {s t : State} (p : StepParts s t) :
    t.cap.ovr = ovrAfter s.cap.busy s.cap.ovr s.now.cap ∧ t.cap.base = fieldAfter 0x08 s.cap.base s.now.cap ∧
      t.cap.width = fieldAfter 0x0C s.cap.width s.now.cap ∧ t.cap.height = fieldAfter 0x10 s.cap.height s.now.cap := by
  obtain ⟨hovr, hbase, hwidth, hheight⟩ := s.capStep_host
  rw [p.cap]
  simp only [Cap.shiftSync, hovr, hbase, hwidth, hheight]
  exact Cap.afterAccess_host _ _

/-- Settles O31: `OVR` after a step is `ovrAfter` of the cycle's access, for each block. -/
theorem ovrIsStickyAndSetByOverrunsOnly : Obligations.OvrIsStickyAndSetByOverrunsOnly := by
  unfold Obligations.OvrIsStickyAndSetByOverrunsOnly
  intro s t _ hr h
  have p := step_parts h hr
  obtain ⟨hrbc, -⟩ := p.rbc_host
  obtain ⟨hcap, -⟩ := p.cap_host
  rw [hrbc, hcap]
  refine ⟨fun h0 => ?_, fun h1 => ?_, fun h0 => ?_, fun h1 => ?_⟩
  · rw [h0, ovrAfter_set_iff, Rbc.busy_iff]
  · rw [h1, ovrAfter_clear_iff]
  · rw [h0, ovrAfter_set_iff, Cap.busy_iff]
  · rw [h1, ovrAfter_clear_iff]

/-! ## Reading and writing the windows -/

/-- A field at bit 0 reads back zero-extended: the value written with its reserved bits 0 (R25, R26, R32, R33). -/
theorem field_setWidth {n : Nat} (hn : n ≤ 32) (v : Word) : (field v 0 n).setWidth 32 = v &&& BitVec.ofNat 32 (2 ^ n - 1) := by
  have hpow : 2 ^ n ≤ 2 ^ 32 := Nat.pow_le_pow_right (by omega) hn
  have hpos : 0 < 2 ^ n := Nat.two_pow_pos n
  have hmask : (2 ^ n - 1) % 2 ^ 32 = 2 ^ n - 1 := Nat.mod_eq_of_lt (by omega)
  have hlt : v.toNat % 2 ^ n < 2 ^ 32 := (Nat.mod_lt _ hpos).trans_le hpow
  apply BitVec.eq_of_toNat_eq
  rw [BitVec.toNat_and, BitVec.toNat_ofNat, hmask, Nat.and_two_pow_sub_one_eq_mod, BitVec.toNat_setWidth, field,
    BitVec.extractLsb'_toNat, Nat.shiftRight_zero, Nat.mod_eq_of_lt hlt]

/-- The registers of the client's window (R22, R24 to R27). -/
theorem Rbc.readReg_eqs (r : Rbc) :
    r.readReg 0x04 = r.status ∧ r.readReg 0x08 = r.addr.setWidth 32 ∧ r.readReg 0x0C = r.wdata.setWidth 32 ∧
      r.readReg 0x10 = r.rdata :=
  ⟨rfl, rfl, rfl, rfl⟩

/-- The registers of the engine's window (R28, R30 to R34). -/
theorem Cap.readReg_eqs (c : Cap) :
    c.readReg 0x04 = c.status ∧ c.readReg 0x08 = c.base ∧ c.readReg 0x0C = c.width.setWidth 32 ∧
      c.readReg 0x10 = c.height.setWidth 32 ∧ c.readReg 0x14 = c.pos :=
  ⟨rfl, rfl, rfl, rfl, rfl⟩

theorem Rbc.writeReg_of_ge {off : Word} (h : 0x10 ≤ off.toNat) (r : Rbc) (v : Word) : r.writeReg off v = r := by
  unfold Rbc.writeReg
  split
  · omega
  · omega
  · omega
  · rfl

theorem Cap.writeReg_of_ge {off : Word} (h : 0x14 ≤ off.toNat) (c : Cap) (v : Word) : c.writeReg off v = c := by
  unfold Cap.writeReg
  split
  · omega
  · omega
  · omega
  · omega
  · rfl

theorem Rbc.afterAccess_write {off : Word} (h : off.toNat ≠ 0) (r : Rbc) (v : Word) :
    r.afterAccess (some (.write off v)) = r.writeReg off v := if_neg h

theorem Cap.afterAccess_write {off : Word} (h : off.toNat ≠ 0) (c : Cap) (v : Word) :
    c.afterAccess (some (.write off v)) = c.writeReg off v := if_neg h

/-- An idle register client after a step that writes one of its registers but the command register: the write and nothing else
(R35, R62). -/
theorem StepParts.rbc_idle_write {s t : State} (p : StepParts s t) (hidle : s.rbc.phase = .idle) {off v : Word}
    (hw : s.now.rbc = some (.write off v)) (h0 : off.toNat ≠ 0) : t.rbc = s.rbc.writeReg off v := by
  rw [p.rbc, State.rbcStep_idle (Rbc.busy_of_idle hidle), hw, Rbc.afterAccess_write h0]

/-- An idle capture engine after such a step: the write, and the synchronisers' step (R161). -/
theorem StepParts.cap_idle_write {s t : State} (p : StepParts s t) (hidle : s.cap.phase = .idle) {off v : Word}
    (hw : s.now.cap = some (.write off v)) (h0 : off.toNat ≠ 0) :
    t.cap = (s.cap.writeReg off v).shiftSync (videoLevel s) := by
  rw [p.cap, State.capStep_idle (Cap.busy_of_idle hidle), hw, Cap.afterAccess_write h0]

/-- Settles O26: an operand register after a step is `fieldAfter` of the cycle's access, and an idle block takes the write alone. -/
theorem operandRegistersReadBackTheirField : Obligations.OperandRegistersReadBackTheirField := by
  unfold Obligations.OperandRegistersReadBackTheirField
  have byte (v : Word) : (field v 0 8).setWidth 32 = v &&& 0xFF := field_setWidth (by omega) v
  have half (v : Word) : (field v 0 16).setWidth 32 = v &&& 0xFFFF := field_setWidth (by omega) v
  have word (v : Word) : field v 0 32 = v := BitVec.extractLsb'_eq_self
  constructor
  · intro s v
    exact ⟨byte v, byte v, rfl, half v, half v⟩
  intro s hi ho
  obtain ⟨t, ht, p⟩ := step_next_parts hi ho
  obtain ⟨-, haddr, hwdata⟩ := p.rbc_host
  obtain ⟨-, hbase, hwidth, hheight⟩ := p.cap_host
  obtain ⟨-, raddr, rwdata, -⟩ := t.rbc.readReg_eqs
  obtain ⟨-, rbase, rwidth, rheight, -⟩ := t.cap.readReg_eqs
  refine ⟨t, ht, ?_, ?_, ?_, ?_, ?_, ?_, ?_, ?_, ?_, ?_, ?_, ?_⟩
  · intro v hw; rw [raddr, haddr, hw, fieldAfter_write, byte]
  · intro v hw; rw [rwdata, hwdata, hw, fieldAfter_write, byte]
  · intro v hw; rw [rbase, hbase, hw, fieldAfter_write, word]
  · intro v hw; rw [rwidth, hwidth, hw, fieldAfter_write, half]
  · intro v hw; rw [rheight, hheight, hw, fieldAfter_write, half]
  · intro hw; rw [haddr, fieldAfter_of_not_written hw]
  · intro hw; rw [hwdata, fieldAfter_of_not_written hw]
  · intro hw; rw [hbase, fieldAfter_of_not_written hw]
  · intro hw; rw [hwidth, fieldAfter_of_not_written hw]
  · intro hw; rw [hheight, fieldAfter_of_not_written hw]
  · intro hidle
    exact ⟨fun v hw => p.rbc_idle_write hidle hw (by decide), fun v hw => p.rbc_idle_write hidle hw (by decide),
      fun v hw => p.rbc_idle_write hidle hw (by decide),
      fun off v hge hw => (p.rbc_idle_write hidle hw (by omega)).trans (Rbc.writeReg_of_ge hge _ v)⟩
  · intro hidle
    exact ⟨fun v hw => p.cap_idle_write hidle hw (by decide), fun v hw => p.cap_idle_write hidle hw (by decide),
      fun v hw => p.cap_idle_write hidle hw (by decide), fun v hw => p.cap_idle_write hidle hw (by decide),
      fun off v hge hw => (p.cap_idle_write hidle hw (by omega)).trans
        (congrArg (Cap.shiftSync · (videoLevel s)) (Cap.writeReg_of_ge hge _ v))⟩

/-- Settles O59: no access and no engine touches an idle capture engine; only the synchronisers step. -/
theorem idleCaptureEngineKeepsItsState : Obligations.IdleCaptureEngineKeepsItsState := by
  unfold Obligations.IdleCaptureEngineKeepsItsState
  intro s t hr hidle hw h
  have p := step_parts h hr
  have hb := Cap.busy_of_idle hidle
  have hacc : s.cap.afterAccess s.now.cap = s.cap := by
    rcases ha : s.now.cap with _ | ⟨off, v⟩ | off
    · rfl
    · exact absurd ha (hw off v)
    · rfl
  have hstep := State.capStep_idle hb
  rw [hacc] at hstep
  rw [p.cap, p.mem, p.memOld, p.fbWe, hstep, hacc, State.oldAfter_idle hb]
  exact ⟨rfl, rfl, rfl, rfl⟩

/-- Settles O29: `writeStatus` is the write at offset 0x04. -/
theorem statusWriteClearsOvrOnly : Obligations.StatusWriteClearsOvrOnly := by
  unfold Obligations.StatusWriteClearsOvrOnly
  have rbc (r : Rbc) (v : Word) : r.writeReg 0x04 v = { r with ovr := r.ovr && !v.getLsbD 5 } := rfl
  have cap (c : Cap) (v : Word) : c.writeReg 0x04 v = { c with ovr := c.ovr && !v.getLsbD 5 } := rfl
  refine ⟨fun r v h => ?_, fun r v h => ?_, fun c v h => ?_, fun c v h => ?_⟩
  · rw [rbc, h, Bool.not_true, Bool.and_false]
  · rw [rbc, h, Bool.not_false, Bool.and_true]
  · rw [cap, h, Bool.not_true, Bool.and_false]
  · rw [cap, h, Bool.not_false, Bool.and_true]

/-- Settles O23: the fields are `State.reset`'s own, and every register of the two windows reads them as 0. -/
theorem resetStateIsAsSpecified : Obligations.ResetStateIsAsSpecified := by
  unfold Obligations.ResetStateIsAsSpecified
  refine ⟨fun off => ⟨?_, ?_⟩, rfl, rfl, rfl, rfl, rfl, rfl, rfl, rfl, rfl, rfl, rfl, rfl, rfl, rfl, rfl, rfl, rfl, rfl, rfl,
    fun _ => rfl⟩
  · unfold Rbc.readReg; split <;> rfl
  · unfold Cap.readReg; split <;> rfl

/-! ## Status words -/

/-- A flag of a status word stands at its own bit and nowhere else. -/
theorem flagBit_getLsbD {b : Bool} {i : Nat} (hi : i < 32) (j : Nat) :
    (flagBit b i).getLsbD j = (decide (j = i) && b) := by
  rw [flagBit, BitVec.getLsbD_shiftLeft, BitVec.getLsbD_setWidth, BitVec.getLsbD_ofBool]
  by_cases h : j = i
  · subst h; simp [hi]
  · have hne : j < i ∨ j - i ≠ 0 := by omega
    rcases hne with h1 | h1 <;> simp [h, h1]

/-- Every bit of `RBC_STATUS` (R24). -/
theorem Rbc.status_getLsbD (r : Rbc) (i : Nat) :
    r.status.getLsbD i = ((decide (i = 0) && r.busy) || (decide (i = 1) && r.done) || (decide (i = 2) && r.ok) ||
      (decide (i = 3) && r.present) || (decide (i = 4) && r.illegal) || (decide (i = 5) && r.ovr)) := by
  simp [Rbc.status, flagBit_getLsbD]

/-- `PHASE` in its place: bit 8 and up, and no bit past its width (R30). -/
theorem phaseField_getLsbD (x : BitVec 3) (i : Nat) :
    (x.setWidth 32 <<< 8).getLsbD i = (decide (8 ≤ i) && x.getLsbD (i - 8)) := by
  rw [BitVec.getLsbD_shiftLeft, BitVec.getLsbD_setWidth]
  by_cases h : i < 11
  · have h32 : i < 32 := by omega
    have hs : i - 8 < 32 := by omega
    simp only [h32, hs, decide_true, Bool.true_and, ← decide_not, not_lt]
  · rw [BitVec.getLsbD_of_ge x (i - 8) (by omega)]
    simp

/-- Every bit of `CAP_STATUS` (R30). -/
theorem Cap.status_getLsbD (c : Cap) (i : Nat) :
    c.status.getLsbD i = ((decide (i = 0) && c.busy) || (decide (i = 1) && c.done) || (decide (i = 4) && c.illegal) ||
      (decide (i = 5) && c.ovr) || (decide (8 ≤ i) && c.phase.code.getLsbD (i - 8))) := by
  simp only [Cap.status, BitVec.getLsbD_or, phaseField_getLsbD]
  simp [flagBit_getLsbD]

/-- `PHASE` reads as the code R37 gives the phase. -/
theorem Cap.status_phase (c : Cap) : c.status.extractLsb' 8 3 = c.phase.code := by
  apply BitVec.eq_of_getLsbD_eq
  intro i hi
  have hflags : 8 + i ≠ 0 ∧ 8 + i ≠ 1 ∧ 8 + i ≠ 4 ∧ 8 + i ≠ 5 := by omega
  rw [BitVec.getLsbD_extractLsb', Cap.status_getLsbD]
  simp only [hflags, hi, decide_false, decide_true, Bool.false_and, Bool.false_or, Bool.true_and, Nat.le_add_right,
    Nat.add_sub_cancel_left]

/-- The two bytes of `RBC_RDATA`, and the reserved bits above them (R27). -/
theorem Rbc.rdata_fields (r : Rbc) :
    r.rdata.extractLsb' 0 8 = r.data0 ∧ r.rdata.extractLsb' 8 8 = r.data1 ∧ r.rdata.extractLsb' 16 16 = 0 := by
  refine ⟨?_, ?_, ?_⟩
  · rw [Rbc.rdata, BitVec.extractLsb'_setWidth_of_le (by omega), BitVec.extractLsb'_append_eq_right]
  · rw [Rbc.rdata, BitVec.extractLsb'_setWidth_of_le (by omega), BitVec.extractLsb'_append_eq_left]
  · apply BitVec.eq_of_getLsbD_eq
    intro i _
    rw [Rbc.rdata, BitVec.getLsbD_extractLsb', BitVec.getLsbD_setWidth, BitVec.getLsbD_of_ge _ _ (by omega)]
    simp

/-- The two counters of `CAP_POS` (R34). -/
theorem Cap.pos_fields (c : Cap) : c.pos.extractLsb' 0 16 = c.col ∧ c.pos.extractLsb' 16 16 = c.row :=
  ⟨BitVec.extractLsb'_append_eq_right, BitVec.extractLsb'_append_eq_left⟩

/-- Settles O28: each flag at its bit, the code of the phase, and the fields of every register. -/
theorem statusWordsHoldTheirFlags : Obligations.StatusWordsHoldTheirFlags := by
  unfold Obligations.StatusWordsHoldTheirFlags
  refine ⟨fun r => ?_, fun c => ?_, fun c => ?_, fun r => ?_, fun c => ?_⟩
  · have hbusy : r.busy = decide (r.phase = .run) := by cases h : r.phase <;> simp [Rbc.busy, h]
    simp only [Rbc.status_getLsbD, hbusy]
    refine ⟨by simp, by simp, by simp, by simp, by simp, by simp, fun i hi => ?_⟩
    have hi : i ≠ 0 ∧ i ≠ 1 ∧ i ≠ 2 ∧ i ≠ 3 ∧ i ≠ 4 ∧ i ≠ 5 := by omega
    simp [hi]
  · have hbusy : c.busy = decide (c.phase ≠ .idle) := by cases h : c.phase <;> simp [Cap.busy, h]
    simp only [Cap.status_getLsbD, hbusy]
    refine ⟨by simp, by simp, by simp, by simp, by simp, by simp, by simp, by simp, fun i hi => ?_⟩
    have hflags : i ≠ 0 ∧ i ≠ 1 ∧ i ≠ 4 ∧ i ≠ 5 := by omega
    simp [hflags, BitVec.getLsbD_of_ge c.phase.code (i - 8) (by omega)]
  · rw [c.status_phase]
    refine ⟨?_, ?_, ?_, ?_, ?_, ?_, ?_, ?_⟩ <;> (intro h; rw [h]; rfl)
  · obtain ⟨hstatus, haddr, hwdata, hrdata⟩ := r.readReg_eqs
    rw [hrdata]
    exact ⟨hstatus, haddr, hwdata, r.rdata_fields⟩
  · obtain ⟨hstatus, hbase, hwidth, hheight, hpos⟩ := c.readReg_eqs
    rw [hpos]
    exact ⟨hstatus, hbase, hwidth, hheight, c.pos_fields⟩

/-! ## Results -/

/-- What the host sees of a command's result: `RBC_RDATA` and `PRESENT`. -/
def Rbc.results (r : Rbc) : Word × Bool := (r.rdata, r.present)

theorem Rbc.results_eq_iff {r r' : Rbc} : r'.results = r.results ↔ r'.rdata = r.rdata ∧ r'.present = r.present :=
  Prod.mk_inj

/-- The two identity bytes as `RBC_RDATA` shows them (R27, R140). -/
theorem Rbc.rdata_eq_identity_iff {r : Rbc} :
    r.rdata = 0x00007376 ↔ r.data0 = Config.expectedPid ∧ r.data1 = Config.expectedVer := by
  obtain ⟨h0, h1, -⟩ := r.rdata_fields
  constructor
  · intro h
    rw [← h0, ← h1, h]
    decide
  · rintro ⟨hpid, hver⟩
    rw [Rbc.rdata, hpid, hver]
    decide

theorem Rbc.keep_results (r : Rbc) (pos : Script) : ((r.keepByte pos).keepResult pos).results = r.results := by
  have hbyte : (r.keepByte pos).results = r.results := by unfold Rbc.keepByte; split <;> rfl
  rw [← hbyte]
  unfold Rbc.keepResult
  split <;> rfl

/-- The end of a primitive: the command runs on with its results as they were, or it completes from them. -/
theorem Rbc.afterPrim_results {r : Rbc} (hrun : r.phase = .run) (always : Bool) (n : Nat) (pos : Script) (p : Prim) :
    ((r.afterPrim always n pos p).phase = .run ∧ (r.afterPrim always n pos p).results = r.results) ∨
      ∃ k : Rbc, k.results = r.results ∧ r.afterPrim always n pos p = completeAt n k pos := by
  unfold Rbc.afterPrim
  split
  · left
    refine ⟨?_, r.keep_results pos⟩
    show ((r.keepByte pos).keepResult pos).phase = .run
    simpa using hrun
  · exact .inr ⟨_, r.keep_results pos, rfl⟩

/-- One edge of a running engine, as far as the results go. -/
theorem Rbc.edge_results {r : Rbc} {pos : Script} (hrun : r.phase = .run) (hs : r.script = some pos) (par : Config.Params)
    (n : Nat) (level : Bool) :
    ((r.edge par n level).1.phase = .run ∧ (r.edge par n level).1.results = r.results) ∨
      ∃ k : Rbc, k.results = r.results ∧ (r.edge par n level).1 = completeAt n k pos := by
  unfold Rbc.edge
  rw [hs]
  rcases r.sym with _ | p
  · exact .inl ⟨hrun, rfl⟩
  · simp only
    split_ifs
    · exact .inl ⟨hrun, rfl⟩
    · exact .inl ⟨hrun, rfl⟩
    · exact Rbc.afterPrim_results (r := r.lastCell p) hrun _ _ _ _
    · exact .inl ⟨hrun, rfl⟩
    · exact .inl ⟨hrun, rfl⟩
    · exact .inl ⟨hrun, rfl⟩
    · exact Rbc.afterPrim_results hrun _ _ _ _

/-- Only an RD or a PROBE writes `RBC_RDATA` when it completes (R138 to R140). -/
theorem completeAt_rdata {n : Nat} {k : Rbc} {pos : Script} (h : (completeAt n k pos).rdata ≠ k.rdata) :
    pos.op = 0x1 ∨ pos.op = 0x3 := by
  rcases pos with q | q | q | q
  · exact .inl rfl
  · exact .inr rfl
  · exact .inr rfl
  · exact absurd (by cases q <;> rfl) h

/-- Only a PROBE writes `PRESENT` when it completes (R138 to R140). -/
theorem completeAt_present {n : Nat} {k : Rbc} {pos : Script} (h : (completeAt n k pos).present ≠ k.present) :
    pos.op = 0x3 := by
  rcases pos with q | q | q | q
  · exact absurd (by cases q <;> rfl) h
  · rfl
  · rfl
  · exact absurd (by cases q <;> rfl) h

/-- The verdict of a PROBE says that it succeeded and `RBC_RDATA` shows the expected identity (R140). -/
theorem completeProbe_present (n : Nat) (k : Rbc) :
    (completeProbe n k).present = true ↔ (completeProbe n k).ok = true ∧ (completeProbe n k).rdata = 0x00007376 := by
  rw [Rbc.rdata_eq_identity_iff]
  simp only [completeProbe, Rbc.complete_present, Rbc.complete_ok, Rbc.complete_data0, Rbc.complete_data1, Bool.and_eq_true,
    beq_iff_eq, and_assoc]
  refine and_congr_right fun h1 => and_congr_right fun h2 => ?_
  rw [if_pos h1, if_pos h2]

theorem completeAt_probe {pos : Script} (h : pos.op = 0x3) (n : Nat) (k : Rbc) : completeAt n k pos = completeProbe n k := by
  rcases pos with q | q | q | q
  · exact absurd h (show (0x1 : BitVec 4) ≠ 0x3 by decide)
  · rfl
  · rfl
  · exact absurd h (show (0x2 : BitVec 4) ≠ 0x3 by decide)

/-- A host access to an idle register client leaves `RBC_RDATA` alone, and `PRESENT` but at the acceptance of a PROBE, which clears
it (R35, R131). -/
theorem Rbc.afterAccess_results {r : Rbc} (hidle : r.phase = .idle) (a : Option HostAccess) :
    (r.afterAccess a).results = r.results ∨
      ((r.afterAccess a).rdata = r.rdata ∧ (r.afterAccess a).phase = .run ∧ (r.afterAccess a).opS = 0x3 ∧
        (r.afterAccess a).present = false) := by
  have hcmd (v : Word) : (r.afterCommand v).results = r.results ∨
      ((r.afterCommand v).rdata = r.rdata ∧ (r.afterCommand v).phase = .run ∧ (r.afterCommand v).opS = 0x3 ∧
        (r.afterCommand v).present = false) := by
    rw [Rbc.afterCommand, Rbc.busy_of_idle hidle, if_neg Bool.false_ne_true]
    rcases decodeRbc_cases v with h | h | h | h | ⟨e, h⟩ <;> rw [h]
    · exact .inl rfl
    · exact .inl rfl
    · exact .inl rfl
    · exact .inr ⟨rfl, rfl, rfl, rfl⟩
    · exact .inl rfl
  unfold Rbc.afterAccess
  split
  · split
    · exact hcmd _
    · left
      unfold Rbc.writeReg
      split <;> rfl
  · exact .inl rfl

/-- Settles O44. An idle block changes its results at the acceptance of a PROBE only; a running one runs on with them or completes
its command. -/
theorem resultsAppearAtCompletionOnly : Obligations.ResultsAppearAtCompletionOnly := by
  unfold Obligations.ResultsAppearAtCompletionOnly
  intro s t hi hr h
  have p := step_parts h hr
  cases hph : s.rbc.phase with
  | idle =>
    have ht : t.rbc = s.rbc.afterAccess s.now.rbc := by rw [p.rbc, State.rbcStep_idle (Rbc.busy_of_idle hph)]
    rw [ht]
    refine ⟨fun hne => ?_, fun hne => ?_, nofun⟩
    · rcases Rbc.afterAccess_results hph s.now.rbc with hsame | ⟨hdata, -⟩
      · exact absurd (Rbc.results_eq_iff.1 hsame).1 hne
      · exact absurd hdata hne
    · rcases Rbc.afterAccess_results hph s.now.rbc with hsame | ⟨-, hprobe⟩
      · exact absurd (Rbc.results_eq_iff.1 hsame).2 hne
      · exact .inl ⟨rfl, hprobe⟩
  | run =>
    have hb := Rbc.busy_iff.2 hph
    obtain ⟨-, -, -, pos, hs, hop, -⟩ := Rbc.good_run hb hi.rbc
    rw [p.rbc, State.rbcStep_busy hb, ← hop]
    rcases Rbc.edge_results hph hs s.params s.edge (slaveLevel s) with ⟨hrun, hsame⟩ | ⟨k, hk, hdone⟩
    · obtain ⟨hdata, hpresent⟩ := Rbc.results_eq_iff.1 hsame
      exact ⟨fun hne => absurd hdata hne, fun hne => absurd hpresent hne, fun _ hidle => nomatch hrun.symm.trans hidle⟩
    · rw [hdone]
      obtain ⟨hdata, hpresent⟩ := Rbc.results_eq_iff.1 hk
      rw [← hdata, ← hpresent]
      obtain ⟨hidle, -, -, -, -, hflag, -⟩ := completeAt_fields s.edge k pos
      refine ⟨fun hne => ⟨rfl, hidle, hflag, completeAt_rdata hne⟩, fun hne => .inr ⟨rfl, hidle, completeAt_present hne⟩,
        fun _ _ hprobe => ?_⟩
      rw [completeAt_probe hprobe]
      exact completeProbe_present _ _

end Sys2Proof.Machine

/-! Settlements of the memory family (spec/20_memory.md R60 to R73): the accesses a step refuses (O20), host reads (O30), the
snapshots of running commands (O32, O33), the one store of an edge (O48), frame-buffer reads (O53), and what a command write
(O15, O17) and a write outside the writable registers (O27) leave unchanged. -/

namespace Sys2Proof.Machine

/-! ## The accesses a step refuses -/

/-- A sequence refuses where a part does. -/
theorem andThen_eq_refused {o : Host.Outcome State Fault Refusal} {f : State → Host.Outcome State Fault Refusal} {r : Refusal} :
    andThen o f = .refused r ↔ o = .refused r ∨ ∃ s, o = .next s ∧ f s = .refused r := by
  cases o <;> simp

/-- A running engine without a script faults (assumption 14). -/
theorem rbcEdge_no_script {s : State} (h : s.rbc.script = none) : rbcEdge s = .fault .runningWithoutScript := by
  simp [rbcEdge, h]

/-- The engine of a running register client refuses nothing. -/
theorem rbcEdge_not_refused {s : State} (hb : s.rbc.busy = true) (r : Refusal) : rbcEdge s ≠ .refused r := by
  cases hs : s.rbc.script with
  | none => simp [rbcEdge_no_script hs]
  | some pos =>
    obtain ⟨t, ht, -⟩ := rbcEdge_frame hb hs
    simp [ht]

/-- A host access leaves a running register client running (R64, R133). -/
theorem hostDone_rbc_busy {s : State} (hb : s.rbc.busy = true) : (hostDone s).rbc.busy = true :=
  (congrArg Rbc.busy (Rbc.afterAccess_eq_withHost hb s.now.rbc)).trans hb

/-- What follows the host accesses of an edge refuses nothing. -/
theorem finishEdge_not_refused (s : State) (r : Refusal) : finishEdge s (hostDone s) ≠ .refused r := by
  unfold finishEdge
  intro h
  rcases andThen_eq_refused.1 h with hrbc | ⟨s1, -, hrest⟩
  · cases hb : s.rbc.busy with
    | false => simp [runRbc_idle hb] at hrbc
    | true => exact rbcEdge_not_refused (hostDone_rbc_busy hb) r (runRbc_busy hb _ ▸ hrbc)
  · rcases andThen_eq_refused.1 hrest with hcap | ⟨s2, -, hclose⟩
    · cases hb : s.cap.busy with
      | false => simp [runCap_idle hb] at hcap
      | true => exact capOn_not_refused _ _ r (runCap_busy hb _ ▸ hcap)
    · cases hclose

/-- A cycle with an access the interface cannot express is refused whole (R61, assumption 13). -/
theorem step_refused {s : State} (h : ¬ (accessOk s.now.rbc = true ∧ accessOk s.now.cap = true)) :
    step s = .refused .hostOffset := by
  rw [step, clockEdge, if_neg (by rwa [Bool.and_eq_true])]

/-- A cycle whose accesses the interface can express is not refused, with or without reset. -/
theorem step_not_refused {s : State} (h : accessOk s.now.rbc = true ∧ accessOk s.now.cap = true) (r : Refusal) :
    step s ≠ .refused r := by
  cases hr : s.now.rst with
  | true =>
    rw [step, clockEdge, if_pos (by rwa [Bool.and_eq_true]), if_pos hr]
    nofun
  | false =>
    rw [step_ordinary (by simp [HostCycle.ordinary, hr, h])]
    exact finishEdge_not_refused s r

/-- Settles O20: the refusal stands in the check of the offsets, and nothing after it refuses. -/
theorem stepRefusesExactlyTheBadOffsets : Obligations.StepRefusesExactlyTheBadOffsets := by
  unfold Obligations.StepRefusesExactlyTheBadOffsets
  intro s r
  constructor
  · intro h
    have hbad : ¬ (accessOk s.now.rbc = true ∧ accessOk s.now.cap = true) := fun hok => step_not_refused hok r h
    rw [step_refused hbad] at h
    injection h with h
    exact ⟨h.symm, hbad⟩
  · rintro ⟨rfl, hbad⟩
    exact step_refused hbad

/-! ## Host reads -/

/-- The state with other values returned by the reads of the two windows. -/
def State.returning (s : State) (a b : Option Word) : State := { s with readRbc := a, readCap := b }

section
variable {s t : State} (a b : Option Word)

/-- The register client's engine does not read what the host's reads returned. -/
theorem rbcEdge_returning (hb : s.rbc.busy = true) (h : rbcEdge s = .next t) :
    rbcEdge (s.returning a b) = .next (t.returning a b) := by
  cases hs : s.rbc.script with
  | none => simp [rbcEdge_no_script hs] at h
  | some pos =>
    rw [rbcEdge_eq hb hs] at h
    injection h with h
    subst h
    exact rbcEdge_eq (s := s.returning a b) hb hs

/-- The capture engine does not read them either. -/
theorem capOn_returning {x : Sample} (h : capOn x s = .next t) : capOn x (s.returning a b) = .next (t.returning a b) := by
  rw [capOn_eq] at h ⊢
  change (if (s.cap.edge x).2 then memWrite s.cap.pixelAddr x.d _ else _) = _
  cases hst : (s.cap.edge x).2 with
  | false =>
    rw [hst] at h
    injection h with h
    subst h
    rfl
  | true =>
    rw [hst, if_pos rfl, memWrite_eq_next] at h
    obtain ⟨hlt, rfl⟩ := h
    rw [if_pos rfl, memWrite_eq_next]
    exact ⟨hlt, rfl⟩

/-- What follows the host accesses of an edge does not depend on what the host's reads returned. -/
theorem finishEdge_returning (h : finishEdge s (hostDone s) = .next t) :
    finishEdge s ((hostDone s).returning a b) = .next (t.returning a b) := by
  unfold finishEdge at h ⊢
  obtain ⟨s1, hrbc, hrest⟩ := andThen_eq_next.1 h
  obtain ⟨s2, hcap, hclose⟩ := andThen_eq_next.1 hrest
  injection hclose with hclose
  subst hclose
  have hrbc' : runRbc s ((hostDone s).returning a b) = .next (s1.returning a b) := by
    cases hb : s.rbc.busy with
    | false =>
      rw [runRbc_idle hb] at hrbc ⊢
      injection hrbc with hrbc
      rw [hrbc]
    | true =>
      rw [runRbc_busy hb] at hrbc ⊢
      exact rbcEdge_returning a b (hostDone_rbc_busy hb) hrbc
  have hcap' : runCap s (s1.returning a b) = .next (s2.returning a b) := by
    cases hb : s.cap.busy with
    | false =>
      rw [runCap_idle hb] at hcap ⊢
      injection hcap with hcap
      rw [hcap]
    | true =>
      rw [runCap_busy hb] at hcap ⊢
      exact capOn_returning a b hcap
  rw [hrbc', andThen_next, hcap', andThen_next]
  rfl

end

/-- Settles O30: after the host accesses, a cycle that reads both windows and one with no access differ in the returned values only,
and the engines carry those along. -/
theorem hostReadsHaveNoSideEffect : Obligations.HostReadsHaveNoSideEffect := by
  unfold Obligations.HostReadsHaveNoSideEffect
  intro s t offR offC rest hoffR hoffC h
  have hread : ({ s with host := .cycle { rbc := some (.read offR), cap := some (.read offC) } :: rest } : State).now.ordinary =
      true := by
    simp [State.now, HostLine.now, HostCycle.ordinary, accessOk, hoffR, hoffC]
  rw [step_ordinary rfl] at h
  rw [step_ordinary hread]
  exact finishEdge_returning (s := { s with host := .cycle {} :: rest }) (some (s.rbc.readReg offR))
    (some (s.cap.readReg offC)) h

/-! ## Running blocks work on their snapshots -/

/-- What joins the trace and whether a level of the slave is used up: the engine's, whatever the host's access. -/
theorem State.rbcStep_bus {s : State} (h : s.rbc.busy = true) :
    s.rbcStep.2 = (s.rbc.edge s.params s.edge (slaveLevel s)).2 := by
  rw [State.rbcStep, if_pos h, Rbc.afterAccess_eq_withHost h, Rbc.edge_withHost]

/-- Settles O32: the engine's edge is the same function of two register clients that differ in what the host owns, which rides
along (`Rbc.edge_withHost`). -/
theorem runningCommandIgnoresOperandWrites : Obligations.RunningCommandIgnoresOperandWrites := by
  unfold Obligations.RunningCommandIgnoresOperandWrites
  intro s1 s2 t1 t2 hrun hparams hslave hedge htrace hr1 hr2 hsame hs1 hs2
  have p1 := step_parts hs1 hr1
  have p2 := step_parts hs2 hr2
  have hb1 : s1.rbc.busy = true := Rbc.busy_iff.2 hrun
  have hb2 : s2.rbc.busy = true := by rw [hsame]; exact hb1
  have hlevel : slaveLevel s2 = slaveLevel s1 := by simp only [slaveLevel, hslave, hedge]
  have hengine : s2.rbc.edge s2.params s2.edge (slaveLevel s2) =
      ((s1.rbc.edge s1.params s1.edge (slaveLevel s1)).1.withHost s2.rbc.ovr s2.rbc.addr s2.rbc.wdata,
        (s1.rbc.edge s1.params s1.edge (slaveLevel s1)).2) := by
    rw [← Rbc.edge_withHost, hlevel, ← hparams, ← hedge]
    exact congrArg (Rbc.edge _ _ _) hsame
  have hbus : s2.rbcStep.2 = s1.rbcStep.2 := by rw [State.rbcStep_bus hb2, State.rbcStep_bus hb1, hengine]
  refine ⟨?_, ?_, ?_⟩
  · rw [p2.rbc, p1.rbc, State.rbcStep_busy hb2, State.rbcStep_busy hb1, hengine]
    rfl
  · rw [p2.slave, p1.slave, hbus, hslave]
  · rw [p2.trace, p1.trace, hbus, htrace]

/-- Settles O33: the same of two capture engines (`Cap.edge_withHost`); the address of the store is of the snapshot. -/
theorem runningCaptureIgnoresOperandWrites : Obligations.RunningCaptureIgnoresOperandWrites := by
  unfold Obligations.RunningCaptureIgnoresOperandWrites
  intro s1 s2 t1 t2 hrun hvideo hedge hmem hr1 hr2 hsame hs1 hs2
  have p1 := step_parts hs1 hr1
  have p2 := step_parts hs2 hr2
  have hb1 : s1.cap.busy = true := Cap.busy_iff.2 hrun
  have hb2 : s2.cap.busy = true := by rw [hsame]; exact hb1
  have hlevel : videoLevel s2 = videoLevel s1 := by simp only [videoLevel, hvideo, hedge]
  have hsync : s2.cap.sync2 = s1.cap.sync2 := by rw [hsame]
  have haddr : s2.cap.pixelAddr = s1.cap.pixelAddr := by rw [hsame]; rfl
  have hengine : s2.cap.edge s2.cap.sync2 =
      ((s1.cap.edge s1.cap.sync2).1.withHost s2.cap.ovr s2.cap.base s2.cap.width s2.cap.height,
        (s1.cap.edge s1.cap.sync2).2) := by
    rw [← Cap.edge_withHost, hsync]
    exact congrArg (Cap.edge _) hsame
  have hstore : s2.capStep.2 = s1.capStep.2 := by rw [State.capStep_busy hb2, State.capStep_busy hb1, hengine]
  constructor
  · rw [p2.cap, p1.cap, State.capStep_busy hb2, State.capStep_busy hb1, hengine, hlevel]
    rfl
  · rw [p2.mem, p1.mem, hstore, hmem, haddr, hsync]

/-! ## The one store of an edge -/

/-- An ordinary step that stores comes of a running capture that awaits a pixel and sees `pc` = 1 (R163, R169). -/
theorem State.capStep_stores {s : State} (h : s.capStep.2 = true) :
    (s.cap.edge s.cap.sync2).2 = true ∧ s.cap.phase = .pixWaitHigh ∧ s.cap.sync2.pc = true := by
  cases hb : s.cap.busy with
  | false => simp [State.capStep_idle hb] at h
  | true =>
    rw [State.capStep_busy hb] at h
    exact ⟨h, Cap.edge_stores.1 h⟩

/-- The port shows the exact address of the store, which is below 2^32 (R66, R177). -/
theorem StepParts.fbAddr_toNat {s t : State} (p : StepParts s t) (h : s.capStep.2 = true) :
    t.fb.addr.toNat = s.cap.pixelAddr := by
  rw [p.fbAddr h]
  exact Nat.mod_eq_of_lt (p.addrLt h)

/-- Settles O48: a reset edge stores nothing, and an ordinary one stores at most the pixel its capture awaits. -/
theorem onlyTheNextPixelIsStored : Obligations.OnlyTheNextPixelIsStored := by
  unfold Obligations.OnlyTheNextPixelIsStored
  intro s t hi h
  cases hr : s.now.rst with
  | true =>
    obtain rfl := step_eq_resetEdge h hr
    exact ⟨fun _ => rfl, nofun⟩
  | false =>
    have p := step_parts h hr
    rw [p.fbWe]
    refine ⟨fun hno => by simp [p.mem, hno], fun hst => ?_⟩
    obtain ⟨hedge, hphase, hpc⟩ := State.capStep_stores hst
    obtain ⟨hin, -⟩ := Cap.edge_addr hi.cap hedge
    have hmem : t.mem = s.mem.set s.cap.pixelAddr s.cap.sync2.d := by rw [p.mem, if_pos hst]
    have hbase : s.cap.baseS.toNat ≤ s.cap.pixelAddr := by unfold Cap.pixelAddr; omega
    rw [p.fbAddr_toNat hst, hmem]
    exact ⟨hphase, hpc, p.fbData hst, rfl, hbase, hin, Memory.get_set_same _ _ _, fun a ha => Memory.get_set_other _ _ ha⟩

/-! ## Frame-buffer reads -/

/-- A frame-buffer read returns the byte as it is, or in the buffer of a running capture the byte remembered from its acceptance
(R72, R222, U12). -/
theorem fbByte_cases (s : State) (a : Word) :
    fbByte s a = s.mem.view a.toNat ∨
      (fbByte s a = s.memOld.view a.toNat ∧ s.cap.phase ≠ .idle ∧ s.cap.baseS.toNat ≤ a.toNat ∧
        a.toNat < s.cap.baseS.toNat + s.cap.wS.toNat * s.cap.hS.toNat) := by
  unfold fbByte
  split
  · next hrace =>
    simp only [Bool.and_eq_true, decide_eq_true_eq, Cap.busy_iff] at hrace
    obtain ⟨⟨⟨hbusy, hlow⟩, hhigh⟩, -⟩ := hrace
    exact .inr ⟨rfl, hbusy, hlow, hhigh⟩
  · exact .inl rfl

/-- The record of the acceptance after an ordinary step of a running capture, its completing one included: it still agrees with the
frame buffer outside the bytes written by then (assumption 7). -/
theorem StepParts.memOld_agrees {s t : State} (p : StepParts s t) (hg : s.cap.good = true) (ho : s.oldAgrees)
    (hb : s.cap.busy = true) {a : Nat} (ha : a < s.cap.baseS.toNat ∨ s.cap.baseS.toNat + t.cap.written ≤ a) :
    s.memOld.get a = t.mem.get a := by
  obtain ⟨-, hkept, hstored⟩ := State.capStep_progress hg hb
  have hwritten : t.cap.written = s.capStep.1.written := by rw [p.cap]; rfl
  rw [hwritten] at ha
  rw [p.mem]
  cases hst : s.capStep.2 with
  | false =>
    rw [hkept hst] at ha
    exact ho hb a ha
  | true =>
    obtain ⟨hone, haddr⟩ := hstored hst
    rw [if_pos rfl, Memory.get_set_other _ _ (by omega)]
    exact ho hb a (by omega)

/-- Settles O53: the read returns `fbByte` of the state before the edge, and a running capture keeps its record. -/
theorem frameBufferReadsRaceOnlyWithTheirCapture : Obligations.FrameBufferReadsRaceOnlyWithTheirCapture := by
  unfold Obligations.FrameBufferReadsRaceOnlyWithTheirCapture
  constructor
  · intro s t a rest hhost h
    have hnow : s.now = { fb := some a } := by rw [State.now, hhost]; rfl
    have hread : t.readFb = some (fbByte s a) := by rw [(step_parts h (by rw [hnow])).readFb, hnow]; rfl
    rw [hread, Option.some.injEq, Option.some.injEq]
    exact fbByte_cases s a
  · intro s t hi hr hrun h
    have p := step_parts h hr
    have hb : s.cap.busy = true := Cap.busy_iff.2 hrun
    have hold : t.memOld = s.memOld := by rw [p.memOld, State.oldAfter_busy hb]
    exact ⟨hold, fun a ha => by rw [hold]; exact p.memOld_agrees hi.cap hi.old hb ha⟩

/-! ## What a command write leaves unchanged -/

/-- The register client's commands are what the words of their encodings run (R83). -/
theorem exec_registerCommand {i : Instr} (hi : i ∈ [Instr.nop, .rd, .wr, .probe]) :
    decodeRbc (encode i).bits = .instr i ∧
      ∀ s, exec i s = .next (s.setRbc (s.rbc.afterCommand (encode i).bits)) := by
  have hdec : decodeRbc (encode i).bits = .instr i := by revert i; decide
  refine ⟨hdec, fun s => ?_⟩
  rw [← rbcCommand_next, rbcCommand, hdec]

/-- The capture engine's commands are what the words of their encodings run (R84). -/
theorem exec_captureCommand {i : Instr} (hi : i ∈ [Instr.cnop, .capture]) :
    decodeCap (encode i).bits = .instr i ∧
      ∀ s, exec i s = .next ((s.setCap (s.cap.afterCommand (encode i).bits)).setMemOld
        (s.oldAfter (s.cap.afterCommand (encode i).bits))) := by
  have hdec : decodeCap (encode i).bits = .instr i := by revert i; decide
  refine ⟨hdec, fun s => ?_⟩
  rw [← capCommand_next, capCommand, hdec]

/-- A command write leaves the results, the bytes read, the outputs, the shift register and the counters alone (R131 to R136). -/
theorem Rbc.afterCommand_frame (r : Rbc) (v : Word) :
    (r.afterCommand v).data0 = r.data0 ∧ (r.afterCommand v).data1 = r.data1 ∧ (r.afterCommand v).d0 = r.d0 ∧
      (r.afterCommand v).d1 = r.d1 ∧ (r.afterCommand v).ok1 = r.ok1 ∧ (r.afterCommand v).ok2 = r.ok2 ∧
      (r.afterCommand v).scl = r.scl ∧ (r.afterCommand v).sda = r.sda ∧ (r.afterCommand v).sh = r.sh ∧
      (r.afterCommand v).smp = r.smp ∧ (r.afterCommand v).bitc = r.bitc ∧ (r.afterCommand v).q = r.q ∧
      (r.afterCommand v).tick = r.tick := by
  unfold Rbc.afterCommand
  split
  · simp
  · rcases decodeRbc_cases v with h | h | h | h | ⟨e, h⟩ <;> simp [h]

/-- `PRESENT` is left alone by every command word but PROBE's (R131). -/
theorem Rbc.afterCommand_present {v : Word} (hv : decodeRbc v ≠ .instr .probe) (r : Rbc) :
    (r.afterCommand v).present = r.present := by
  unfold Rbc.afterCommand
  split
  · rfl
  · rcases decodeRbc_cases v with h | h | h | h | ⟨e, h⟩
    · rw [h]
    · rw [h]; rfl
    · rw [h]; rfl
    · exact absurd h hv
    · rw [h]; rfl

/-- Settles O15: a command is `Rbc.afterCommand` of its word, put back into the state. -/
theorem registerCommandFrame : Obligations.RegisterCommandFrame := by
  unfold Obligations.RegisterCommandFrame
  intro i hi s t h
  obtain ⟨hdec, hexec⟩ := exec_registerCommand hi
  rw [hexec s] at h
  injection h with h
  have hrbc : t.rbc = s.rbc.afterCommand (encode i).bits := by rw [← h]; rfl
  rw [hrbc]
  subst h
  obtain ⟨hovr, haddr, hwdata⟩ := s.rbc.afterCommand_host (encode i).bits
  obtain ⟨hdata0, hdata1, hd0, hd1, hok1, hok2, hscl, hsda, hsh, hsmp, hbitc, hq, htick⟩ :=
    s.rbc.afterCommand_frame (encode i).bits
  refine ⟨rfl, rfl, fun _ => rfl, rfl, rfl, rfl, rfl, rfl, rfl, rfl, rfl, rfl, rfl, haddr, hwdata, hdata0, hdata1, hd0, hd1,
    hok1, hok2, hscl, hsda, hsh, hsmp, hbitc, hq, htick,
    fun hne => ?_, fun hset => ?_, fun hidle => ?_⟩
  · exact Rbc.afterCommand_present (by rw [hdec]; simpa using hne) _
  · rw [hovr, hset, Bool.or_true]
  · rw [hovr, Rbc.busy_of_idle hidle, Bool.false_or]

/-- A command write leaves the synchronisers alone (R161). -/
theorem Cap.afterCommand_sync (c : Cap) (v : Word) :
    (c.afterCommand v).sync1 = c.sync1 ∧ (c.afterCommand v).sync2 = c.sync2 := by
  unfold Cap.afterCommand
  split
  · exact ⟨rfl, rfl⟩
  · rcases decodeCap_cases v with h | h | ⟨e, h⟩ <;> rw [h]
    · exact ⟨rfl, rfl⟩
    · simp only
      split <;> exact ⟨rfl, rfl⟩
    · exact ⟨rfl, rfl⟩

/-- The word of CNOP, and any word while a capture runs, touches `OVR` only (R166). -/
theorem Cap.afterCommand_ovr_only {c : Cap} {v : Word} (h : decodeCap v = .instr .cnop ∨ c.phase ≠ .idle) :
    c.afterCommand v = { c with ovr := (c.afterCommand v).ovr } := by
  cases hb : c.busy with
  | true => simp [Cap.afterCommand, hb, Cap.overrun]
  | false =>
    have hidle : ¬ c.phase ≠ .idle := by rw [← Cap.busy_iff, hb]; exact Bool.false_ne_true
    simp [Cap.afterCommand, hb, h.resolve_right hidle]

/-- Settles O17: a command is `Cap.afterCommand` of its word, put back into the state. -/
theorem captureCommandFrame : Obligations.CaptureCommandFrame := by
  unfold Obligations.CaptureCommandFrame
  intro i hi s t h
  obtain ⟨hdec, hexec⟩ := exec_captureCommand hi
  rw [hexec s] at h
  injection h with h
  subst h
  obtain ⟨hovr, hbase, hwidth, hheight⟩ := s.cap.afterCommand_host (encode i).bits
  obtain ⟨hsync1, hsync2⟩ := s.cap.afterCommand_sync (encode i).bits
  refine ⟨rfl, rfl, fun _ => rfl, rfl, rfl, rfl, rfl, rfl, rfl, rfl, rfl, rfl, hbase, hwidth, hheight, hsync1, hsync2,
    fun hset => ?_, fun hidle => ?_, fun hquiet => ?_⟩
  · exact hovr.trans (by rw [hset, Bool.or_true])
  · exact hovr.trans (by rw [Cap.busy_of_idle hidle, Bool.false_or])
  · have honly : s.cap.afterCommand (encode i).bits = { s.cap with ovr := (s.cap.afterCommand (encode i).bits).ovr } :=
      Cap.afterCommand_ovr_only (hquiet.imp_left fun hc => by rw [hdec, hc])
    refine ⟨honly, ?_⟩
    show s.oldAfter (s.cap.afterCommand (encode i).bits) = s.memOld
    cases hb : s.cap.busy with
    | true => exact State.oldAfter_busy hb _
    | false => exact State.oldAfter_idle ((congrArg Cap.busy honly).trans hb)

/-! ## Unmapped offsets and read-only registers -/

/-- The client's window is empty above `RBC_RDATA` (R22, R61). -/
theorem Rbc.readReg_of_ge {off : Word} (h : 0x14 ≤ off.toNat) (r : Rbc) : r.readReg off = 0 := by
  unfold Rbc.readReg
  split
  · omega
  · omega
  · omega
  · omega
  · rfl

/-- The engine's window is empty above `CAP_POS` (R28, R61). -/
theorem Cap.readReg_of_ge {off : Word} (h : 0x18 ≤ off.toNat) (c : Cap) : c.readReg off = 0 := by
  unfold Cap.readReg
  split
  · omega
  · omega
  · omega
  · omega
  · omega
  · rfl

/-- Settles O27: each window has a register at its named offsets only. -/
theorem unmappedAndReadOnlyOffsetsIgnoreWrites : Obligations.UnmappedAndReadOnlyOffsetsIgnoreWrites :=
  ⟨fun r _ v h => Rbc.writeReg_of_ge h r v, fun r _ h => Rbc.readReg_of_ge h r, fun c _ v h => Cap.writeReg_of_ge h c v,
    fun c _ h => Cap.readReg_of_ge h c, fun _ => rfl, fun _ => rfl⟩

end Sys2Proof.Machine

/-! Settlements of the encoding family. First the decoders and the encoder (spec/30_encoding.md R80 to R96): O3, O2 and O1. -/

namespace Sys2Proof

/-! ## Words and bytes as their fields -/

/-- A command word whose `RSV` is 0 is the word of its `OP` (R81). -/
theorem eq_commandWord {v : Word} {op : BitVec 4} (hrsv : v.extractLsb' 4 28 = 0) (hop : v.extractLsb' 0 4 = op) :
    v = commandWord op := by
  have hv : v.extractLsb' 4 28 ++ v.extractLsb' 0 4 = v :=
    (BitVec.extractLsb'_append_extractLsb'_eq_extractLsb' (x := v) (start₁ := 0) (len₁ := 4) (start₂ := 4) (len₂ := 28)
      rfl).trans BitVec.extractLsb'_eq_self
  rw [commandWord, ← hrsv, ← hop, hv]

/-- An SLA byte is its address followed by its `RW` (R90). -/
theorem eq_slaByte {b : Byte} (haddr : b.extractLsb' 1 7 = Config.devAddr7) : b = slaByte (b.getLsbD 0) := by
  have hb : b.extractLsb' 1 7 ++ b.extractLsb' 0 1 = b :=
    (BitVec.extractLsb'_append_extractLsb'_eq_extractLsb' (x := b) (start₁ := 0) (len₁ := 1) (start₂ := 1) (len₂ := 7)
      rfl).trans BitVec.extractLsb'_eq_self
  have hrw : BitVec.ofBool (b.getLsbD 0) = b.extractLsb' 0 1 := by
    ext i hi
    obtain rfl : i = 0 := by omega
    simp
  rw [slaByte, ← haddr, hrw, hb]

/-- A code of the SLA format with nothing above its 8 bits is its byte, zero-extended (R80). -/
theorem setWidth_byte {v : Word} (h : v.extractLsb' 8 24 = 0) : (v.setWidth 8).setWidth 32 = v := by
  have hhigh := congrArg BitVec.toNat h
  have hv := v.isLt
  simp only [BitVec.extractLsb'_toNat, Nat.shiftRight_eq_div_pow] at hhigh
  apply BitVec.eq_of_toNat_eq
  simp only [BitVec.toNat_setWidth]
  simp at hhigh
  omega

/-! ## Only the encoding decodes -/

/-- A code is ill formed where one of its three checks fails. -/
theorem Code.wf_eq_false_iff {c : Code} :
    c.wf = false ↔ c.reservedZero = false ∨ c.opAssigned = false ∨ c.addressOurs = false := by
  simp only [Code.wf, Bool.and_eq_false_iff, or_assoc]

/-- What decoding a code may answer: an instruction the code is the encoding of, or a refusal of an ill-formed code (R85, R94, R96). -/
inductive Code.Decodes (c : Code) : Decoded → Prop where
  | instr {i : Instr} (h : c = encode i) : c.Decodes (.instr i)
  | illegal {e : DecodeError} (h : c.wf = false) : c.Decodes (.illegal e)

theorem decodeRbc_decodes (v : Word) : (⟨.rcmd, v⟩ : Code).Decodes (decodeRbc v) := by
  unfold decodeRbc
  split
  · next hrsv => exact .illegal (Code.wf_eq_false_iff.2 (.inl (beq_false_of_ne hrsv)))
  · next hrsv =>
    have hword (op : BitVec 4) (hop : (v.extractLsb' 0 4).toNat = op.toNat) : (⟨.rcmd, v⟩ : Code) = ⟨.rcmd, commandWord op⟩ :=
      congrArg _ (eq_commandWord (not_not.1 hrsv) (BitVec.eq_of_toNat_eq hop))
    split
    · next hop => exact .instr (hword 0x0 hop)
    · next hop => exact .instr (hword 0x1 hop)
    · next hop => exact .instr (hword 0x2 hop)
    · next hop => exact .instr (hword 0x3 hop)
    · next h0 h1 h2 h3 =>
      have hop : ¬ (v.extractLsb' 0 4).toNat ≤ 3 := fun h => by
        interval_cases hn : (v.extractLsb' 0 4).toNat <;> contradiction
      exact .illegal (Code.wf_eq_false_iff.2 (.inr (.inl (decide_eq_false hop))))

theorem decodeCap_decodes (v : Word) : (⟨.ccmd, v⟩ : Code).Decodes (decodeCap v) := by
  unfold decodeCap
  split
  · next hrsv => exact .illegal (Code.wf_eq_false_iff.2 (.inl (beq_false_of_ne hrsv)))
  · next hrsv =>
    have hword (op : BitVec 4) (hop : (v.extractLsb' 0 4).toNat = op.toNat) : (⟨.ccmd, v⟩ : Code) = ⟨.ccmd, commandWord op⟩ :=
      congrArg _ (eq_commandWord (not_not.1 hrsv) (BitVec.eq_of_toNat_eq hop))
    split
    · next hop => exact .instr (hword 0x0 hop)
    · next hop => exact .instr (hword 0x1 hop)
    · next h0 h1 =>
      have hop : ¬ (v.extractLsb' 0 4).toNat ≤ 1 := fun h => by
        interval_cases hn : (v.extractLsb' 0 4).toNat <;> contradiction
      exact .illegal (Code.wf_eq_false_iff.2 (.inr (.inl (decide_eq_false hop))))

theorem decodeSla_decodes {v : Word} (hhigh : v.extractLsb' 8 24 = 0) :
    (⟨.sla, v⟩ : Code).Decodes (decodeSla (v.setWidth 8)) := by
  unfold decodeSla
  split
  · next haddr =>
    rw [BitVec.extractLsb'_setWidth_of_le (by omega)] at haddr
    exact .illegal (Code.wf_eq_false_iff.2 (.inr (.inr (beq_false_of_ne haddr))))
  · next haddr =>
    have hcode : (⟨.sla, v⟩ : Code) = ⟨.sla, (slaByte ((v.setWidth 8).getLsbD 0)).setWidth 32⟩ := by
      rw [← eq_slaByte (not_not.1 haddr), setWidth_byte hhigh]
    split
    · next hrw => exact .instr (by rw [hcode, hrw]; rfl)
    · next hrw => exact .instr (by rw [hcode, (Bool.not_eq_true _).mp hrw]; rfl)

/-- Decoding is exact in every format. -/
theorem decode_decodes (c : Code) : c.Decodes (decode c) := by
  obtain ⟨fmt, v⟩ := c
  cases fmt with
  | rcmd => exact decodeRbc_decodes v
  | ccmd => exact decodeCap_decodes v
  | sla =>
    simp only [decode]
    split
    · next hhigh => exact .illegal (Code.wf_eq_false_iff.2 (.inl (beq_false_of_ne hhigh)))
    · next hhigh => exact decodeSla_decodes (not_not.1 hhigh)

theorem eq_encode_of_decode {c : Code} {i : Instr} (h : decode c = .instr i) : c = encode i := by
  cases h ▸ decode_decodes c with
  | instr hc => exact hc

theorem wf_of_decode_illegal {c : Code} {e : DecodeError} (h : decode c = .illegal e) : c.wf = false := by
  cases h ▸ decode_decodes c with
  | illegal hc => exact hc

theorem decode_encode (i : Instr) : decode (encode i) = .instr i := by cases i <;> decide

/-- `Laws.EncodedForm`, for every instruction. -/
theorem encode_form (i : Instr) : Laws.EncodedForm.Statement i := by
  cases i with
  | nop => exact Laws.EncodedForm.nop
  | rd => exact Laws.EncodedForm.rd
  | wr => exact Laws.EncodedForm.wr
  | probe => exact Laws.EncodedForm.probe
  | cnop => exact Laws.EncodedForm.cnop
  | capture => exact Laws.EncodedForm.capture
  | slaW => exact Laws.EncodedForm.slaW
  | slaR => exact Laws.EncodedForm.slaR

theorem encode_wf (i : Instr) : (encode i).wf = true := (encode_form i).2.1

/-- Settles O3: a decoder answers an instruction for its encoding alone, and an encoding is well formed. -/
theorem onlyTheEncodingDecodesToAnInstruction : Obligations.OnlyTheEncodingDecodesToAnInstruction := by
  unfold Obligations.OnlyTheEncodingDecodesToAnInstruction
  refine ⟨fun c i => ⟨eq_encode_of_decode, fun h => h ▸ decode_encode i⟩, fun c => ?_⟩
  constructor
  · rintro ⟨e, h⟩
    exact wf_of_decode_illegal h
  · intro hwf
    cases hd : decode c with
    | illegal e => exact ⟨e, rfl⟩
    | instr i =>
      rw [eq_encode_of_decode hd, encode_wf] at hwf
      cases hwf

/-- Settles O2, instruction by instruction. -/
theorem decodeOfEncodeIsTheInstruction : Obligations.DecodeOfEncodeIsTheInstruction := by
  unfold Obligations.DecodeOfEncodeIsTheInstruction
  exact fun i => ⟨by cases i <;> rfl, encode_wf i, (encode_form i).1, decode_encode i⟩

/-- Settles O1: each word is decoded as written. -/
theorem wordsOfTheMapsDecode : Obligations.WordsOfTheMapsDecode := by
  unfold Obligations.WordsOfTheMapsDecode
  decide

end Sys2Proof

/-! The SLA bytes (O13, O19), the lines of a host program (O54) and the poll (O55). -/

namespace Sys2Proof.Machine

/-! ## SLA bytes on a running engine -/

/-- The first quarter-step of an SLA byte: `SCL` low, and the most significant bit, which is 0 (R90, R104). -/
theorem driveOf_slaByte (rw : Bool) : driveOf (.writeByte (slaByte rw)) 0 0 (slaByte rw) = (false, false) := by
  cases rw <;> decide

/-- What beginning an SLA byte leaves of the register client (R108). -/
theorem Rbc.beginPrim_slaByte (r : Rbc) (rw : Bool) :
    r.beginPrim (.writeByte (slaByte rw)) = { r with
      sym := some (.writeByte (slaByte rw)), sh := slaByte rw, bitc := 0, q := 0, tick := 0, scl := false, sda := false } := by
  simp only [Rbc.beginPrim, Rbc.drive, driveOf_slaByte]

/-- Settles O13: a busy engine begins `WriteByte` of the SLA byte. -/
theorem slaBytesAreSent : Obligations.SlaBytesAreSent := by
  unfold Obligations.SlaBytesAreSent
  intro s hrun
  have hb := Rbc.busy_iff.2 hrun
  constructor
  · rw [exec, execSlaW, beginSla_busy hb, Rbc.beginPrim_slaByte, slaByte_eq]
    rfl
  · rw [exec, execSlaR, beginSla_busy hb, Rbc.beginPrim_slaByte, slaByte_eq]
    rfl

/-- Where the script stands at an SLA position, beginning the primitive runs the instruction the byte decodes to (R90). -/
theorem beginAt_sla {pos : Script} {rw : Bool} {i : Instr} (hsla : pos.sla = some rw) (hi : decodeSla (slaByte rw) = .instr i)
    (s : State) : beginAt pos s = exec i (s.setRbc { s.rbc with script := some pos }) := by
  simp only [beginAt, hsla, hi]

/-- A step of a running register client whose host is silent: the engine, the capture engine, the synchronisers. -/
theorem step_silent {s : State} (hhost : s.host = []) (hb : s.rbc.busy = true) :
    step s = andThen (rbcEdge (openEdge s.now s)) fun t => andThen (runCap s t) fun u => .next (closeEdge u) := by
  have hfin : step s = finishEdge s (openEdge s.now s) := by
    rw [step, now_of_host_nil hhost]
    rfl
  rw [hfin, finishEdge, runRbc_busy hb]

/-- Settles O19: in both places the engine runs `beginAt` of the SLA position. -/
theorem engineRunsTheSlaByte : Obligations.EngineRunsTheSlaByte := by
  unfold Obligations.EngineRunsTheSlaByte
  constructor
  · intro s pos rw i hhost hrun hscript hsym hsla hi
    have hedge : rbcEdge (openEdge s.now s) = exec i (openEdge s.now s) := by
      have hset : (openEdge s.now s).setRbc { s.rbc with script := some pos } = openEdge s.now s := by
        rw [← hscript]
        rfl
      simp only [rbcEdge, openEdge_rbc, hscript, hsym]
      rw [beginAt_sla hsla hi, openEdge_rbc, hset]
    rw [step_silent hhost (Rbc.busy_iff.2 hrun), hedge]
  · intro s pos pos' p rw i hafter hsla hi
    simp only [primEnd, hafter]
    exact beginAt_sla hsla hi _

/-! ## Host programs -/

/-- Settles O54: the expansions are their definitions written out, and each of their offsets is a legal one. -/
theorem pseudoInstructionsExpandToOrdinaryLines : Obligations.PseudoInstructionsExpandToOrdinaryLines := by
  unfold Obligations.PseudoInstructionsExpandToOrdinaryLines
  refine ⟨rfl, fun _ => rfl, fun _ _ => rfl, rfl, rfl, fun _ => rfl, fun _ _ => rfl, rfl, rfl, fun _ _ _ => rfl, rfl,
    fun _ _ => ⟨rfl, rfl, rfl⟩, fun p => List.all_eq_true.1 ?_⟩
  cases p <;> rfl

/-- A poll presents a read of its register. -/
theorem now_of_poll {s : State} {b : Block} {off mask want : Word} {rest : List HostLine}
    (hhost : s.host = .poll b off mask want :: rest) :
    s.now.rst = false ∧ s.now.rbc = (if b = .rbc then some (.read off) else none) ∧
      s.now.cap = (if b = .cap then some (.read off) else none) := by
  rw [State.now, hhost]
  cases b <;> exact ⟨rfl, rfl, rfl⟩

/-- A poll stays until its field is equal (R88). -/
theorem hostAfter_poll {s : State} {b : Block} {off mask want : Word} {rest : List HostLine}
    (hhost : s.host = .poll b off mask want :: rest) :
    s.hostAfter = if s.window b off &&& mask = want then rest else s.host := by
  rw [State.hostAfter, hhost]

/-- Settles O55: what the step leaves of the host's lines, and what the poll's read returns. -/
theorem pollRepeatsUntilTheFieldIsEqual : Obligations.PollRepeatsUntilTheFieldIsEqual := by
  unfold Obligations.PollRepeatsUntilTheFieldIsEqual
  intro s t b off mask want rest hhost hstep
  obtain ⟨hrst, hrbc, hcap⟩ := now_of_poll hhost
  have parts := step_parts hstep hrst
  have hleft : t.host = if s.window b off &&& mask = want then rest else s.host := parts.host.trans (hostAfter_poll hhost)
  refine ⟨fun heq => hleft.trans (if_pos heq), fun hne => hleft.trans (if_neg hne), fun hb => ?_, fun hb => ?_⟩
  · rw [parts.readRbc, hrbc, if_pos hb, readBack]
  · rw [parts.readCap, hcap, if_pos hb, readBack]

end Sys2Proof.Machine

/-! The register client's side of a run (spec/40_bus_primitives.md, spec/41_register_commands.md), for O60. `Bus` is what the engine of
`Rbc.edge` works on, run over many edges whatever the rest of the machine does: quarter-steps make bit cells, bit cells make
bytes, and primitives make the reads and writes of R137 and R139. -/

namespace Sys2Proof.Machine

/-! ## The bus side as a machine of its own -/

/-- What the register-client engine works on: the block, the trace it extends, and the slave's levels to come. -/
structure Bus where
  rbc : Rbc
  trace : List BusSym
  slave : List Bool

/-- The bus side of a machine. -/
def State.bus (s : State) : Bus := ⟨s.rbc, s.trace, s.slave⟩

/-- `slaveLevel` on the bus side, at clock edge `e`. -/
def Bus.level (e : Nat) (b : Bus) : Bool := b.slave.headD (Config.sdaDraw e)

/-- Clock edge `e` on the bus side, in a cycle in which the host writes nothing: a running engine takes its edge. -/
def Bus.next (par : Config.Params) (e : Nat) (b : Bus) : Bus :=
  if b.rbc.busy then
    { rbc := (b.rbc.edge par e (b.level e)).1
      trace := b.trace ++ (b.rbc.edge par e (b.level e)).2.1
      slave := if (b.rbc.edge par e (b.level e)).2.2 then b.slave.tail else b.slave }
  else b

theorem slaveLevel_eq_level (s : State) : slaveLevel s = s.bus.level s.edge := by
  unfold slaveLevel Bus.level State.bus
  cases s.slave <;> rfl

/-- A step in whose cycle the host does not write the register client is `Bus.next` on the bus side. -/
theorem StepParts.bus {s t : State} (parts : StepParts s t) (hread : s.rbc.afterAccess s.now.rbc = s.rbc) :
    t.bus = s.bus.next s.params s.edge := by
  have hbus : t.bus = ⟨s.rbcStep.1, s.trace ++ s.rbcStep.2.1, if s.rbcStep.2.2 then s.slave.tail else s.slave⟩ := by
    rw [← parts.rbc, ← parts.trace, ← parts.slave]
    rfl
  rw [hbus, State.rbcStep, hread, slaveLevel_eq_level, Bus.next, show s.bus.rbc = s.rbc from rfl]
  split
  · rfl
  · simp [State.bus]

/-- The bus side after `n` edges, the first of them edge `e`. -/
def Bus.run (par : Config.Params) : Nat → Nat → Bus → Bus
  | _, 0, b => b
  | e, n + 1, b => Bus.run par (e + 1) n (b.next par e)

/-- `n` edges from edge `e` on lead from `b` to `b'`. -/
def Bus.Reaches (par : Config.Params) (e n : Nat) (b b' : Bus) : Prop := Bus.run par e n b = b'

section
variable {par : Config.Params} {e m n : Nat} {b b' b'' : Bus}

theorem Bus.Reaches.trans (h : Bus.Reaches par e m b b') (h' : Bus.Reaches par (e + m) n b' b'') :
    Bus.Reaches par e (m + n) b b'' := by
  induction m generalizing e b with
  | zero =>
    obtain rfl : b = b' := h
    simpa using h'
  | succ m ih =>
    rw [Nat.succ_add]
    exact ih (e := e + 1) h (by rwa [Nat.succ_add_eq_add_succ])

theorem Bus.Reaches.length_eq (h : Bus.Reaches par e m b b') (hmn : m = n) : Bus.Reaches par e n b b' := hmn ▸ h

/-- An idle engine leaves its side as it is. -/
theorem Bus.Reaches.idle (hidle : b.rbc.busy = false) (h : Bus.Reaches par e n b b') : b' = b := by
  induction n generalizing e with
  | zero => exact h.symm
  | succ n ih =>
    have hnext : b.next par e = b := by simp [Bus.next, hidle]
    exact ih (e := e + 1) (by rw [← hnext]; exact h)

end

/-! ## One quarter-step -/

/-- The register client as quarter-step `q` of bit cell `k` of primitive `p` begins, `sh` being in the shift register. -/
def Rbc.atQuarter (r : Rbc) (p : Prim) (k : Fin 9) (q : Fin 4) (sh : Byte) : Rbc :=
  Rbc.drive { r with sym := some p, bitc := k, q := q, tick := 0, sh := sh } p

section
variable {par : Config.Params} {e : Nat} {r : Rbc} {pos : Script} (hrun : r.phase = .run) (hpos : r.script = some pos)
  {p : Prim} {k : Fin 9} {q : Fin 4} {sh : Byte} {tr : List BusSym} {ds : List Bool}
include hrun hpos

/-- Within a quarter-step only the tick moves (R101). -/
theorem Bus.ticks {t : Nat} (ht : t ≤ par.tqMinus1) :
    Bus.Reaches par e t ⟨r.atQuarter p k q sh, tr, ds⟩ ⟨{ r.atQuarter p k q sh with tick := t }, tr, ds⟩ := by
  induction t with
  | zero => rfl
  | succ t ih =>
    refine (ih (by omega)).trans (n := 1) ?_
    have hlt : t < par.tqMinus1 := by omega
    simp [Bus.Reaches, Bus.run, Bus.next, Rbc.busy, Rbc.edge, Rbc.atQuarter, Rbc.drive, hrun, hpos, hlt]

/-- A quarter-step lasts `I2C_TQ_CYCLES` edges, the last of which is what the engine makes of its end (R101). -/
theorem Bus.quarter {b' : Bus} (hend : ∀ e, Bus.next par e ⟨{ r.atQuarter p k q sh with tick := par.tqMinus1 }, tr, ds⟩ = b') :
    Bus.Reaches par e par.tqCycles ⟨r.atQuarter p k q sh, tr, ds⟩ b' :=
  (Bus.ticks hrun hpos le_rfl).trans (n := 1) (hend _)

/-- A condition goes on to its next quarter-step (R105 to R107). -/
theorem Bus.quarter_condition (hp : p.isByte = false) (hq : q < p.lastQ) :
    Bus.Reaches par e par.tqCycles ⟨r.atQuarter p k q sh, tr, ds⟩ ⟨r.atQuarter p k (q + 1) sh, tr, ds⟩ := by
  refine Bus.quarter hrun hpos fun e => ?_
  simp [Bus.next, Rbc.busy, Rbc.edge, Rbc.atQuarter, Rbc.drive, Rbc.nextQuarter, hrun, hpos, hp, hq]

/-- So does a bit cell where neither a sample nor the end of the cell is due. -/
theorem Bus.quarter_cell (hp : p.isByte = true) (h1 : q ≠ 1) (h3 : q ≠ 3) :
    Bus.Reaches par e par.tqCycles ⟨r.atQuarter p k q sh, tr, ds⟩ ⟨r.atQuarter p k (q + 1) sh, tr, ds⟩ := by
  refine Bus.quarter hrun hpos fun e => ?_
  simp [Bus.next, Rbc.busy, Rbc.edge, Rbc.atQuarter, Rbc.drive, Rbc.nextQuarter, hrun, hpos, hp, h1, h3]

/-- The second quarter-step of a bit cell ends with the sample, the wired-AND of the master's level and the slave's (R38, R104). -/
theorem Bus.quarter_sample (hp : p.isByte = true) (l : Bool) :
    Bus.Reaches par e par.tqCycles ⟨r.atQuarter p k 1 sh, tr, l :: ds⟩
      ⟨Rbc.atQuarter { r with smp := cellLevel p k sh && l } p k 2 sh, tr, ds⟩ := by
  have hsda : (driveOf p k 1 sh).2 = cellLevel p k sh := by
    cases p with
    | start => cases hp
    | restart => cases hp
    | stop => cases hp
    | writeByte b => rfl
    | readByte => rfl
  refine Bus.quarter hrun hpos fun e => ?_
  simp [Bus.next, Bus.level, Rbc.busy, Rbc.edge, Rbc.atQuarter, Rbc.drive, Rbc.sample, lineLevels, Rbc.nextQuarter, hrun, hpos, hp,
    hsda]

/-- A data cell ends with the shift register shifted by the sample (R108, R109). -/
theorem Bus.quarter_nextCell (hp : p.isByte = true) (h8 : k ≠ 8) :
    Bus.Reaches par e par.tqCycles ⟨r.atQuarter p k 3 sh, tr, ds⟩
      ⟨r.atQuarter p (k + 1) 0 (shiftCell p k sh r.smp), tr, ds⟩ := by
  refine Bus.quarter hrun hpos fun e => ?_
  simp [Bus.next, Rbc.busy, Rbc.edge, Rbc.atQuarter, Rbc.drive, Rbc.nextCell, hrun, hpos, hp, h8]

end

/-! ## A primitive as one atom (R111) -/

/-- The engine at the first quarter-step of the primitive at `pos`. -/
def Rbc.begun (r : Rbc) (pos : Script) : Rbc := Rbc.beginPrim { r with script := some pos } (primAt r pos)

/-- What the script keeps of a primitive that has ended at `pos`. -/
def Rbc.keep (r : Rbc) (pos : Script) : Rbc := (r.keepByte pos).keepResult pos

/-- `Rbc.afterPrim` for a primitive taken as one atom, whose counters and outputs are gone: the next primitive begun, or the command
complete with the lines released. -/
def Rbc.afterAtom (always : Bool) (n : Nat) (pos : Script) (p : Prim) (r : Rbc) : Rbc :=
  match pos.after always (primResult p r) with
  | some pos' => (r.keep pos).begun pos'
  | none => completeAt n { r.keep pos with scl := true, sda := true } pos

/-- The counters and outputs of the last quarter-step are gone where the next primitive begins, and are reset and released where the
command completes, which it does after a stop condition only. -/
theorem Rbc.afterPrim_atQuarter {r : Rbc} {pos : Script} {p : Prim} (hp : p = primAt r pos) (always : Bool) (n t : Nat) (k : Fin 9)
    (sh : Byte) :
    Rbc.afterPrim always n pos p { r.atQuarter p k p.lastQ sh with tick := t } =
      Rbc.afterAtom always n pos p { r with sh := sh } := by
  have hres : primResult p { r.atQuarter p k p.lastQ sh with tick := t } = primResult p { r with sh := sh } := by
    cases p <;> rfl
  unfold Rbc.afterPrim Rbc.afterAtom Rbc.keep
  rw [hres]
  cases hafter : pos.after always (primResult p { r with sh := sh }) with
  | some pos' =>
    rcases pos with x | x | x | x <;> cases x <;> rcases pos' with y | y | y | y <;> rfl
  | none =>
    obtain rfl : p = .stop := hp.trans (Script.after_none hafter r)
    rcases pos with x | x | x | x <;> cases x <;> rfl

section
variable {par : Config.Params} {e : Nat} {r : Rbc} {pos : Script} (hrun : r.phase = .run)
  {p : Prim} {sh : Byte} {tr : List BusSym} {ds : List Bool}
include hrun

/-- The last quarter-step of a primitive ends in what the primitive comes to as one atom. -/
theorem Bus.quarter_end (hpos : r.script = some pos) (hp : p = primAt r pos) {k : Fin 9} (hk : p.isByte = true → k = 8) :
    ∃ n, Bus.Reaches par e par.tqCycles ⟨r.atQuarter p k p.lastQ sh, tr, ds⟩
      ⟨Rbc.afterAtom par.probeAlwaysBoth n pos p { r with sh := sh }, tr ++ [primSym p { r with sh := sh }], ds⟩ := by
  refine ⟨e + par.tqMinus1, Bus.Reaches.trans (n := 1) (Bus.ticks hrun hpos le_rfl) ?_⟩
  have hsym : primSym p { r.atQuarter p k p.lastQ sh with tick := par.tqMinus1 } = primSym p { r with sh := sh } := by
    cases p <;> rfl
  rw [← Rbc.afterPrim_atQuarter hp par.probeAlwaysBoth _ par.tqMinus1 k sh, ← hsym]
  cases hb : p.isByte with
  | false => simp [Bus.Reaches, Bus.run, Bus.next, Rbc.busy, Rbc.edge, Rbc.atQuarter, Rbc.drive, hrun, hpos, hb]
  | true =>
    obtain rfl := hk hb
    have hcell : Rbc.lastCell { r.atQuarter p 8 p.lastQ sh with tick := par.tqMinus1 } p =
        { r.atQuarter p 8 p.lastQ sh with tick := par.tqMinus1 } := by
      cases p <;> rfl
    conv_rhs => rw [← hcell]
    simp [Bus.Reaches, Bus.run, Bus.next, Rbc.busy, Rbc.edge, Rbc.atQuarter, Rbc.drive, hrun, hpos, hb, (Prim.byte_of_not p hb).1]

/-- One bit cell: its draw is sampled at the end of its second quarter-step (R104). -/
theorem Bus.cell_sampled (hpos : r.script = some pos) (hb : p.isByte = true) (k : Fin 9) (l : Bool) :
    Bus.Reaches par e (3 * par.tqCycles) ⟨r.atQuarter p k 0 sh, tr, l :: ds⟩
      ⟨Rbc.atQuarter { r with smp := cellLevel p k sh && l } p k 3 sh, tr, ds⟩ := by
  refine Bus.Reaches.length_eq (m := par.tqCycles + par.tqCycles + par.tqCycles) ?_ (by omega)
  have h0 := Bus.quarter_cell (par := par) (e := e) (k := k) (q := 0) (sh := sh) (tr := tr) (ds := l :: ds) hrun hpos hb (by decide)
    (by decide)
  have h1 := Bus.quarter_sample (par := par) (e := e + par.tqCycles) (k := k) (sh := sh) (tr := tr) (ds := ds) hrun hpos hb l
  have h2 := Bus.quarter_cell (par := par) (e := e + (par.tqCycles + par.tqCycles)) (k := k) (q := 2) (sh := sh) (tr := tr) (ds := ds)
    (r := { r with smp := cellLevel p k sh && l }) hrun hpos hb (by decide) (by decide)
  exact (h0.trans h1).trans h2

/-- A data cell shifts the shift register by its draw: a byte written does not look at it, a byte read leaves the line to it. -/
theorem Bus.data_cell (hpos : r.script = some pos) (hb : p.isByte = true) {k : Fin 9} (h8 : k ≠ 8) (l : Bool) :
    ∃ smp, Bus.Reaches par e (4 * par.tqCycles) ⟨r.atQuarter p k 0 sh, tr, l :: ds⟩
      ⟨Rbc.atQuarter { r with smp := smp } p (k + 1) 0 (shiftCell p 0 sh l), tr, ds⟩ := by
  have hshift : shiftCell p k sh (cellLevel p k sh && l) = shiftCell p 0 sh l := by
    cases p <;> simp [shiftCell, cellLevel, h8]
  refine ⟨cellLevel p k sh && l, ?_⟩
  rw [← hshift]
  have hnext := Bus.quarter_nextCell (par := par) (e := e + 3 * par.tqCycles) (sh := sh) (tr := tr) (ds := ds)
    (r := { r with smp := cellLevel p k sh && l }) hrun hpos hb h8
  exact ((Bus.cell_sampled hrun hpos hb k l).trans hnext).length_eq (by omega)

end

/-- The data cells of a byte from cell `k` on, each shifting the shift register by its draw. -/
theorem Bus.data_cells {par : Config.Params} {pos : Script} {p : Prim} {tr : List BusSym} {ds : List Bool} (hb : p.isByte = true)
    (cells : List Bool) : ∀ {e : Nat} {r : Rbc} {sh : Byte} {k : Fin 9}, r.phase = .run → r.script = some pos → k.val + cells.length = 8 →
    ∃ smp, Bus.Reaches par e (cells.length * (4 * par.tqCycles)) ⟨r.atQuarter p k 0 sh, tr, cells ++ ds⟩
      ⟨Rbc.atQuarter { r with smp := smp } p 8 0 (cells.foldl (shiftCell p 0) sh), tr, ds⟩ := by
  induction cells with
  | nil =>
    intro e r sh k hrun hpos hk
    obtain rfl : k = 8 := Fin.ext hk
    exact ⟨r.smp, (show Bus.Reaches par e 0 _ _ from rfl).length_eq (Nat.zero_mul _).symm⟩
  | cons l cells ih =>
    intro e r sh k hrun hpos hk
    rw [List.length_cons] at hk
    have h8 : k ≠ 8 := by rintro rfl; simp at hk
    obtain ⟨smp, hcell⟩ := Bus.data_cell (par := par) (e := e) (sh := sh) (tr := tr) (ds := cells ++ ds) hrun hpos hb h8 l
    obtain ⟨smp', hcells⟩ := ih (e := e + 4 * par.tqCycles) (r := { r with smp := smp }) (sh := shiftCell p 0 sh l) (k := k + 1) hrun hpos (by
      rw [Fin.val_add_one_of_lt (by rw [Fin.lt_def]; show k.val < 8; omega)]; omega)
    exact ⟨smp', (hcell.trans hcells).length_eq (by rw [List.length_cons]; ring)⟩

/-! ## Eight shifts -/

/-- Each shift moves what was in the shift register up and lets a bit of the byte in below it. -/
theorem shiftCell_eq_or {p : Prim} (hb : p.isByte = true) (sh : Byte) (l : Bool) :
    shiftCell p 0 sh l = sh <<< 1 ||| shiftCell p 0 0 l := by
  cases p with
  | writeByte b => simp [shiftCell]
  | readByte => simp [shiftCell]
  | start => cases hb
  | restart => cases hb
  | stop => cases hb

/-- The shifts of any number of cells, apart from what was in the shift register before. -/
theorem foldl_shiftCell {p : Prim} (hb : p.isByte = true) (cells : List Bool) (sh : Byte) :
    cells.foldl (shiftCell p 0) sh = sh <<< cells.length ||| cells.foldl (shiftCell p 0) 0 := by
  induction cells generalizing sh with
  | nil => simp
  | cons l cells ih =>
    rw [List.foldl_cons, ih, shiftCell_eq_or hb, List.foldl_cons, ih (shiftCell p 0 0 l), BitVec.shiftLeft_or_distrib,
      ← BitVec.shiftLeft_add, BitVec.or_assoc, List.length_cons, Nat.add_comm]

/-- After the eight data cells nothing is left of what was in the shift register: a byte written has gone, a byte read is assembled
(R108, R109). -/
theorem Rbc.afterCells_eq {p : Prim} (hb : p.isByte = true) {ds : List Bool} (hds : 9 ≤ ds.length) (r : Rbc) (sh : Byte) :
    { r with smp := ds.getD 8 true, sh := (ds.take 8).foldl (shiftCell p 0) sh } = r.afterCells p ds := by
  have hlen : (ds.take 8).length = 8 := by rw [List.length_take]; omega
  rw [foldl_shiftCell hb, hlen, BitVec.shiftLeft_eq_zero le_rfl, BitVec.zero_or]
  cases p with
  | writeByte b =>
    have hzero : (ds.take 8).foldl (shiftCell (.writeByte b) 0) 0 = 0 := List.foldl_fixed' (fun _ => by simp [shiftCell]) _
    rw [hzero]
    rfl
  | readByte => rfl
  | start => cases hb
  | restart => cases hb
  | stop => cases hb

/-- A condition has no cells (R105 to R107). -/
theorem Rbc.afterCells_condition {p : Prim} (hc : p.isByte = false) (r : Rbc) (ds : List Bool) : r.afterCells p ds = r := by
  cases p with
  | start => rfl
  | restart => rfl
  | stop => rfl
  | writeByte b => cases hc
  | readByte => cases hc

/-- The register client with its script at `pos`. -/
def Rbc.atPos (r : Rbc) (pos : Script) : Rbc := { r with script := some pos }

theorem primAt_atPos (r : Rbc) (pos : Script) : primAt (r.atPos pos) pos = primAt r pos := by cases pos <;> rfl

theorem primSym_atPos (r : Rbc) (pos : Script) (p : Prim) : primSym p (r.atPos pos) = primSym p r := by cases p <;> rfl

theorem Rbc.afterCells_atPos (r : Rbc) (pos : Script) (p : Prim) (ds : List Bool) :
    (r.atPos pos).afterCells p ds = (r.afterCells p ds).atPos pos := by cases p <;> rfl

/-- What the end of a primitive leaves does not depend on the position the script stood at before. -/
theorem Rbc.afterAtom_atPos (always : Bool) (n : Nat) (pos pos' : Script) (p : Prim) (r : Rbc) :
    (r.atPos pos').afterAtom always n pos p = r.afterAtom always n pos p := by
  have hres : primResult p (r.atPos pos') = primResult p r := by cases p <;> rfl
  unfold Rbc.afterAtom Rbc.keep
  rw [hres]
  cases pos.after always (primResult p r) with
  | some next => rcases pos with x | x | x | x <;> cases x <;> rcases next with y | y | y | y <;> rfl
  | none => rcases pos with x | x | x | x <;> cases x <;> rfl

section
variable {par : Config.Params} {e : Nat} {r : Rbc} {pos : Script} (hrun : r.phase = .run) {p : Prim} {tr : List BusSym} {ds : List Bool}
include hrun

/-- A condition up to its last quarter-step. -/
theorem Bus.condition_quarters (hpos : r.script = some pos) (hp : p.isByte = false) (sh : Byte) :
    Bus.Reaches par e ((p.quarters - 1) * par.tqCycles) ⟨r.atQuarter p 0 0 sh, tr, ds⟩ ⟨r.atQuarter p 0 p.lastQ sh, tr, ds⟩ := by
  have hq {e : Nat} (q : Fin 4) (hlt : q < p.lastQ) := Bus.quarter_condition (par := par) (e := e) (k := 0) (sh := sh) (tr := tr)
    (ds := ds) hrun hpos hp hlt
  cases p with
  | start => exact ((hq 0 (by decide)).trans (hq 1 (by decide))).length_eq (Nat.two_mul _).symm
  | restart =>
    exact (((hq 0 (by decide)).trans (hq 1 (by decide))).trans (hq 2 (by decide))).length_eq
      (by rw [Prim.quarters]; omega)
  | stop => exact ((hq 0 (by decide)).trans (hq 1 (by decide))).length_eq (Nat.two_mul _).symm
  | writeByte b => cases hp
  | readByte => cases hp

end

/-- What a primitive finds in the shift register as it begins (R108). -/
def Prim.load (p : Prim) (sh : Byte) : Byte :=
  match p with
  | .writeByte b => b
  | _ => sh

section
variable {par : Config.Params} {e : Nat} {r : Rbc} {pos : Script} {p : Prim} {tr : List BusSym} {ds : List Bool}
  (hrun : r.phase = .run) (hpos : r.script = some pos) (hp : p = primAt r pos)
include hrun hpos hp

/-- The quarter-steps of a condition come to its atom. -/
theorem Bus.condition_atom (hc : p.isByte = false) :
    ∃ n, Bus.Reaches par e (p.quarters * par.tqCycles) ⟨r.atQuarter p 0 0 (p.load r.sh), tr, ds⟩
      ⟨Rbc.afterAtom par.probeAlwaysBoth n pos p (r.afterCells p ds), tr ++ [primSym p (r.afterCells p ds)], ds⟩ := by
  have hload : p.load r.sh = r.sh := by
    cases p with
    | start => rfl
    | restart => rfl
    | stop => rfl
    | writeByte b => cases hc
    | readByte => rfl
  obtain ⟨n, hend⟩ := Bus.quarter_end (par := par) (e := e + (p.quarters - 1) * par.tqCycles) (tr := tr) (ds := ds) (k := 0)
    (sh := r.sh) hrun hpos hp (by simp [hc])
  refine ⟨n, ?_⟩
  rw [Rbc.afterCells_condition hc, hload]
  refine ((Bus.condition_quarters hrun hpos hc r.sh).trans hend).length_eq ?_
  have hquarters : p.quarters - 1 + 1 = p.quarters := by cases p <;> rfl
  rw [← Nat.succ_mul, Nat.succ_eq_add_one, hquarters]

/-- The nine bit cells of a byte come to its atom. -/
theorem Bus.byte_atom (hb : p.isByte = true) (hds : 9 ≤ ds.length) :
    ∃ n, Bus.Reaches par e (p.quarters * par.tqCycles) ⟨r.atQuarter p 0 0 (p.load r.sh), tr, ds⟩
      ⟨Rbc.afterAtom par.probeAlwaysBoth n pos p (r.afterCells p ds), tr ++ [primSym p (r.afterCells p ds)], ds.drop 9⟩ := by
  rw [← Rbc.afterCells_eq hb hds r (p.load r.sh)]
  generalize hcells : ds.take 8 = cells
  generalize hack : ds.getD 8 true = ack
  generalize hrest : ds.drop 9 = rest
  obtain rfl : ds = cells ++ ack :: rest := by
    rw [← hcells, ← hack, ← hrest, List.getD_eq_getElem _ _ (by omega), ← List.drop_eq_getElem_cons, List.take_append_drop]
  have hlen : cells.length = 8 := by rw [← hcells, List.length_take]; omega
  have hreleased : (cellLevel p 8 (cells.foldl (shiftCell p 0) (p.load r.sh)) && ack) = ack := by cases p <;> rfl
  obtain ⟨sm, hdata⟩ := Bus.data_cells (par := par) (e := e) (tr := tr) (ds := ack :: rest) hb cells (sh := p.load r.sh) (k := 0)
    hrun hpos (by simpa using hlen)
  have hsample := Bus.cell_sampled (par := par) (e := e + cells.length * (4 * par.tqCycles)) (tr := tr) (ds := rest)
    (sh := cells.foldl (shiftCell p 0) (p.load r.sh)) (r := { r with smp := sm }) hrun hpos hb 8 ack
  rw [hreleased] at hsample
  obtain ⟨n, hend⟩ := Bus.quarter_end (par := par) (e := e + (cells.length * (4 * par.tqCycles) + 3 * par.tqCycles)) (tr := tr)
    (ds := rest) (k := 8) (sh := cells.foldl (shiftCell p 0) (p.load r.sh)) (r := { r with smp := ack }) hrun hpos
    (hp.trans (by cases pos <;> rfl)) (fun _ => rfl)
  rw [(Prim.byte_of_not p hb).1] at hend
  refine ⟨n, ((hdata.trans hsample).trans hend).length_eq ?_⟩
  have hquarters : p.quarters = 36 := by
    cases p with
    | start => cases hb
    | restart => cases hb
    | stop => cases hb
    | writeByte b => rfl
    | readByte => rfl
  rw [hquarters, hlen]
  omega

end

/-- A PRIMITIVE IS ONE ATOM (R111): over its quarter-steps it takes its draws from the slave and comes to what `Rbc.afterAtom` says, its
symbol joining the trace. -/
theorem Bus.atom {par : Config.Params} {e : Nat} {r : Rbc} {pos : Script} {tr : List BusSym} {ds : List Bool} (hrun : r.phase = .run)
    (hds : (primAt r pos).draws ≤ ds.length) :
    ∃ n, Bus.Reaches par e ((primAt r pos).quarters * par.tqCycles) ⟨r.begun pos, tr, ds⟩
      ⟨Rbc.afterAtom par.probeAlwaysBoth n pos (primAt r pos) (r.afterCells (primAt r pos) ds),
        tr ++ [primSym (primAt r pos) (r.afterCells (primAt r pos) ds)], ds.drop (primAt r pos).draws⟩ := by
  have hbegun : r.begun pos = (r.atPos pos).atQuarter (primAt r pos) 0 0 ((primAt r pos).load (r.atPos pos).sh) := rfl
  have hprim := (primAt_atPos r pos).symm
  rw [hbegun]
  generalize primAt r pos = p at *
  simp only [← Rbc.afterAtom_atPos _ _ pos pos p (r.afterCells p ds), ← primSym_atPos (r.afterCells p ds) pos p,
    ← Rbc.afterCells_atPos]
  cases hb : p.isByte with
  | false =>
    have hdraws : p.draws = 0 := by simp [Prim.draws, hb]
    rw [hdraws, List.drop_zero]
    exact Bus.condition_atom (r := r.atPos pos) hrun rfl hprim hb
  | true =>
    have hdraws : p.draws = 9 := by simp [Prim.draws, hb, drawsPerByte]
    rw [hdraws] at hds ⊢
    exact Bus.byte_atom (r := r.atPos pos) hrun rfl hprim hb hds

/-! ## From position to position of a script -/

/-- The register client with other values of what the bit cells leave in it. -/
def Rbc.withCells (r : Rbc) (smp : Bool) (sh : Byte) : Rbc := { r with smp := smp, sh := sh }

/-- `q` quarter-steps lead the engine from the primitive at `pos` to the one at `pos'`, whatever the bit cells before have left: its
symbols join the trace, its draws are taken from the slave, and `r` becomes `r'` but for what the bit cells leave. -/
def Bus.Leg (par : Config.Params) (q : Nat) (syms : List BusSym) (r : Rbc) (pos : Script) (ds : List Bool) (r' : Rbc) (pos' : Script)
    (ds' : List Bool) : Prop :=
  ∀ e tr smp sh, ∃ smp' sh', Bus.Reaches par e (q * par.tqCycles) ⟨(r.withCells smp sh).begun pos, tr, ds⟩
    ⟨(r'.withCells smp' sh').begun pos', tr ++ syms, ds'⟩

section
variable {par : Config.Params} {q q' : Nat} {syms syms' : List BusSym} {r r' r'' : Rbc} {pos pos' pos'' : Script}
  {ds ds' ds'' : List Bool}

theorem Bus.Leg.trans (h : Bus.Leg par q syms r pos ds r' pos' ds') (h' : Bus.Leg par q' syms' r' pos' ds' r'' pos'' ds'') :
    Bus.Leg par (q + q') (syms ++ syms') r pos ds r'' pos'' ds'' := by
  intro e tr smp sh
  obtain ⟨smp', sh', h1⟩ := h e tr smp sh
  obtain ⟨smp'', sh'', h2⟩ := h' (e + q * par.tqCycles) (tr ++ syms) smp' sh'
  rw [List.append_assoc] at h2
  exact ⟨smp'', sh'', (h1.trans h2).length_eq (Nat.add_mul _ _ _).symm⟩

theorem primAt_withCells (r : Rbc) (smp : Bool) (sh : Byte) (pos : Script) : primAt (r.withCells smp sh) pos = primAt r pos := by
  cases pos <;> rfl

/-- A primitive after which the script goes on to `pos'`. -/
theorem Bus.Leg.of_atom {p : Prim} {sym : BusSym} (hrun : r.phase = .run) (hprim : primAt r pos = p) (hds : p.draws ≤ ds.length)
    (hsym : ∀ x : Rbc, primSym p (x.afterCells p ds) = sym)
    (hafter : ∀ x : Rbc, pos.after par.probeAlwaysBoth (primResult p (x.afterCells p ds)) = some pos')
    (hkeep : ∀ smp sh, ∃ smp' sh', ((r.withCells smp sh).afterCells p ds).keep pos = r'.withCells smp' sh') :
    Bus.Leg par p.quarters [sym] r pos ds r' pos' (ds.drop p.draws) := by
  intro e tr smp sh
  have hprim' : primAt (r.withCells smp sh) pos = p := (primAt_withCells r smp sh pos).trans hprim
  obtain ⟨smp', sh', hkept⟩ := hkeep smp sh
  obtain ⟨n, hatom⟩ := Bus.atom (par := par) (e := e) (r := r.withCells smp sh) (pos := pos) (tr := tr) (ds := ds) hrun
    (by rwa [hprim'])
  rw [hprim', hsym, Rbc.afterAtom, hafter] at hatom
  exact ⟨smp', sh', hkept ▸ hatom⟩

/-- A byte written at a position of which the script keeps nothing: it goes on as the slave's answer says. -/
theorem Bus.Leg.write {b : Byte} (hrun : r.phase = .run) (hprim : primAt r pos = .writeByte b) (hds : 9 ≤ ds.length)
    (hkeep : ∀ x : Rbc, x.keep pos = x) (hafter : pos.after par.probeAlwaysBoth (slaveAcks ds) = some pos') :
    Bus.Leg par 36 [.w b (slaveAcks ds)] r pos ds r pos' (ds.drop 9) :=
  Bus.Leg.of_atom hrun hprim hds (fun _ => rfl) (fun _ => hafter) fun _ _ => ⟨ds.getD 8 true, 0, hkeep _⟩

/-- A condition at a position of which the script keeps nothing. -/
theorem Bus.Leg.condition {p : Prim} {sym : BusSym} (hrun : r.phase = .run) (hprim : primAt r pos = p) (hc : p.isByte = false)
    (hsym : ∀ x, primSym p x = sym) (hkeep : ∀ x : Rbc, x.keep pos = x)
    (hafter : ∀ acked, pos.after par.probeAlwaysBoth acked = some pos') : Bus.Leg par p.quarters [sym] r pos ds r pos' ds := by
  have hdraws : p.draws = 0 := by simp [Prim.draws, hc]
  have hleg := Bus.Leg.of_atom (par := par) (r' := r) (ds := ds) hrun hprim (by simp [hdraws]) (fun _ => hsym _) (fun _ => hafter _)
    fun smp sh => ⟨smp, sh, by rw [Rbc.afterCells_condition hc, hkeep]⟩
  rwa [hdraws] at hleg

/-- The stop condition after which the command completes. -/
theorem Bus.stop_completes {e : Nat} {tr : List BusSym} (hrun : r.phase = .run) (hprim : primAt r pos = .stop)
    (hafter : pos.after par.probeAlwaysBoth true = none) :
    ∃ n, Bus.Reaches par e (3 * par.tqCycles) ⟨r.begun pos, tr, ds⟩
      ⟨completeAt n { r.keep pos with scl := true, sda := true } pos, tr ++ [.p], ds⟩ := by
  obtain ⟨n, h⟩ := Bus.atom (par := par) (e := e) (r := r) (pos := pos) (tr := tr) (ds := ds) hrun
    (by rw [hprim]; exact Nat.zero_le _)
  refine ⟨n, ?_⟩
  rw [hprim] at h
  rw [Rbc.afterAtom, show primResult .stop (r.afterCells .stop ds) = true from rfl, hafter] at h
  exact h

/-- The first edge after acceptance begins the script (R131, R270). -/
theorem Bus.begins {e : Nat} {tr : List BusSym} (hrun : r.phase = .run) (hpos : r.script = some pos) (hsym : r.sym = none) :
    Bus.Reaches par e 1 ⟨r, tr, ds⟩ ⟨r.begun pos, tr, ds⟩ := by
  simp [Bus.Reaches, Bus.run, Bus.next, Rbc.busy, Rbc.edge, Rbc.begun, hrun, hpos, hsym]

end

/-! ## A register read (R137) -/

/-- The three scripts a register read stands in: that of RD, and the two of PROBE (R138, R140). -/
inductive ReadCmd where
  | rd
  | idHigh
  | idLow

/-- A position of the read in its script. -/
def ReadCmd.pos : ReadCmd → ReadPos → Script
  | .rd => .rd
  | .idHigh => .idHigh
  | .idLow => .idLow

/-- The address that is read (R132, R140). -/
def ReadCmd.addr (r : Rbc) : ReadCmd → Byte
  | .rd => r.addrS
  | .idHigh => Config.idHighAddr
  | .idLow => Config.idLowAddr

/-- The byte read, put where the script keeps it (R36). -/
def ReadCmd.put (r : Rbc) (v : Byte) : ReadCmd → Rbc
  | .rd => { r with d0 := v }
  | .idHigh => { r with d0 := v }
  | .idLow => { r with d1 := v }

/-- What stands there before. -/
def ReadCmd.get (r : Rbc) : ReadCmd → Byte
  | .rd => r.d0
  | .idHigh => r.d0
  | .idLow => r.d1

section
variable {par : Config.Params} {r : Rbc} {ds : List Bool} (c : ReadCmd)

theorem ReadCmd.put_get : c.put r (c.get r) = r := by cases c <;> rfl

theorem ReadCmd.primAt_pos (p : ReadPos) : primAt r (c.pos p) = p.prim (c.addr r) := by cases c <;> rfl

theorem ReadCmd.after_pos {p p' : ReadPos} {always acked : Bool} (h : p.after acked = some p') :
    (c.pos p).after always acked = some (c.pos p') := by
  cases c with
  | rd => simp [ReadCmd.pos, Script.after, h]
  | idLow => simp [ReadCmd.pos, Script.after, h]
  | idHigh =>
    cases p with
    | stop ok => cases h
    | start => simp [ReadCmd.pos, Script.after, h]
    | slaW => simp [ReadCmd.pos, Script.after, h]
    | reg => simp [ReadCmd.pos, Script.after, h]
    | restart => simp [ReadCmd.pos, Script.after, h]
    | slaR => simp [ReadCmd.pos, Script.after, h]
    | data => simp [ReadCmd.pos, Script.after, h]

theorem ReadCmd.keep_pos {p : ReadPos} (hdata : p ≠ .data) (hstop : ∀ ok, p ≠ .stop ok) (x : Rbc) : x.keep (c.pos p) = x := by
  cases p with
  | data => exact absurd rfl hdata
  | stop ok => exact absurd rfl (hstop ok)
  | start => cases c <;> rfl
  | slaW => cases c <;> rfl
  | reg => cases c <;> rfl
  | restart => cases c <;> rfl
  | slaR => cases c <;> rfl

variable (hrun : r.phase = .run)
include hrun

theorem Bus.Leg.read_start : Bus.Leg par 3 [.s] r (c.pos .start) ds r (c.pos .slaW) ds :=
  Bus.Leg.condition hrun (c.primAt_pos .start) rfl (fun _ => rfl) (c.keep_pos (by simp) (by simp)) (fun _ => c.after_pos rfl)

theorem Bus.Leg.read_slaW (hds : 9 ≤ ds.length) :
    Bus.Leg par 36 [.w 0x42 (slaveAcks ds)] r (c.pos .slaW) ds r (c.pos (if slaveAcks ds then .reg else .stop false)) (ds.drop 9) :=
  Bus.Leg.write hrun ((c.primAt_pos .slaW).trans (congrArg _ (slaByte_eq false))) hds (c.keep_pos (by simp) (by simp)) (c.after_pos rfl)

theorem Bus.Leg.read_reg (hds : 9 ≤ ds.length) :
    Bus.Leg par 36 [.w (c.addr r) (slaveAcks ds)] r (c.pos .reg) ds r (c.pos (if slaveAcks ds then .restart else .stop false))
      (ds.drop 9) :=
  Bus.Leg.write hrun (c.primAt_pos .reg) hds (c.keep_pos (by simp) (by simp)) (c.after_pos rfl)

theorem Bus.Leg.read_restart : Bus.Leg par 4 [.sr] r (c.pos .restart) ds r (c.pos .slaR) ds :=
  Bus.Leg.condition hrun (c.primAt_pos .restart) rfl (fun _ => rfl) (c.keep_pos (by simp) (by simp)) (fun _ => c.after_pos rfl)

theorem Bus.Leg.read_slaR (hds : 9 ≤ ds.length) :
    Bus.Leg par 36 [.w 0x43 (slaveAcks ds)] r (c.pos .slaR) ds r (c.pos (if slaveAcks ds then .data else .stop false)) (ds.drop 9) :=
  Bus.Leg.write hrun ((c.primAt_pos .slaR).trans (congrArg _ (slaByte_eq true))) hds (c.keep_pos (by simp) (by simp)) (c.after_pos rfl)

theorem Bus.Leg.read_data (hds : 9 ≤ ds.length) :
    Bus.Leg par 36 [.r (slaveByte ds)] r (c.pos .data) ds (c.put r (slaveByte ds)) (c.pos (.stop true)) (ds.drop 9) :=
  Bus.Leg.of_atom hrun (c.primAt_pos .data) hds (fun _ => rfl) (fun _ => c.after_pos rfl) fun _ _ =>
    ⟨ds.getD 8 true, slaveByte ds, by cases c <;> rfl⟩

/-- `RegRead` up to its stop condition, on every answer of the slave (R137). -/
theorem Bus.Leg.regRead (hds : 36 ≤ ds.length) :
    ∃ q syms d, Bus.Leg par q syms r (c.pos .start) ds (c.put r d) (c.pos (.stop (regRead (c.addr r) ds).ok)) (regRead (c.addr r) ds).rest ∧
      (regRead (c.addr r) ds).quarters = q + 3 ∧ (regRead (c.addr r) ds).trace = syms ++ [.p] ∧
      ∀ v, (regRead (c.addr r) ds).value = some v → d = v := by
  have drop2 : (ds.drop 9).drop 9 = ds.drop 18 := List.drop_drop
  have drop3 : (ds.drop 18).drop 9 = ds.drop 27 := List.drop_drop
  have drop4 : (ds.drop 27).drop 9 = ds.drop 36 := List.drop_drop
  have len {n : Nat} (hn : n ≤ 27) : 9 ≤ (ds.drop n).length := by rw [List.length_drop]; omega
  have h1 := (Bus.Leg.read_start (par := par) (ds := ds) c hrun).trans (Bus.Leg.read_slaW c hrun (by omega))
  unfold Machine.regRead
  cases hslaW : slaveAcks ds with
  | false =>
    rw [hslaW] at h1
    exact ⟨_, _, c.get r, by rw [c.put_get]; exact h1, rfl, rfl, by simp⟩
  | true =>
    rw [hslaW] at h1
    have h2 := h1.trans (Bus.Leg.read_reg c hrun (len (by omega)))
    rw [drop2] at h2
    cases hreg : slaveAcks (ds.drop 9) with
    | false =>
      rw [hreg] at h2
      exact ⟨_, _, c.get r, by rw [c.put_get]; exact h2, rfl, rfl, by simp⟩
    | true =>
      rw [hreg] at h2
      have h3 := (h2.trans (Bus.Leg.read_restart c hrun)).trans (Bus.Leg.read_slaR c hrun (len (by omega)))
      rw [drop3] at h3
      cases hslaR : slaveAcks (ds.drop 18) with
      | false =>
        rw [hslaR] at h3
        exact ⟨_, _, c.get r, by rw [c.put_get]; exact h3, rfl, rfl, by simp⟩
      | true =>
        rw [hslaR] at h3
        have h4 := h3.trans (Bus.Leg.read_data c hrun (len (by omega)))
        rw [drop4] at h4
        exact ⟨_, _, slaveByte (ds.drop 27), h4, rfl, rfl, by simp⟩

end

/-! ## A register write (R139) -/

section
variable {par : Config.Params} {r : Rbc} {ds : List Bool} (hrun : r.phase = .run)
include hrun

theorem Bus.Leg.write_start : Bus.Leg par 3 [.s] r (.wr .start) ds r (.wr .slaW) ds :=
  Bus.Leg.condition (p := .start) hrun rfl rfl (fun _ => rfl) (fun _ => rfl) (fun _ => rfl)

theorem Bus.Leg.write_slaW (hds : 9 ≤ ds.length) :
    Bus.Leg par 36 [.w 0x42 (slaveAcks ds)] r (.wr .slaW) ds r (.wr (if slaveAcks ds then .reg else .stop false)) (ds.drop 9) :=
  Bus.Leg.write hrun (congrArg Prim.writeByte (slaByte_eq false)) hds (fun _ => rfl) rfl

theorem Bus.Leg.write_reg (hds : 9 ≤ ds.length) :
    Bus.Leg par 36 [.w r.addrS (slaveAcks ds)] r (.wr .reg) ds r (.wr (if slaveAcks ds then .value else .stop false)) (ds.drop 9) :=
  Bus.Leg.write hrun rfl hds (fun _ => rfl) rfl

theorem Bus.Leg.write_value (hds : 9 ≤ ds.length) :
    Bus.Leg par 36 [.w r.wdataS (slaveAcks ds)] r (.wr .value) ds r (.wr (.stop (slaveAcks ds))) (ds.drop 9) :=
  Bus.Leg.write hrun rfl hds (fun _ => rfl) rfl

/-- The register write up to its stop condition, on every answer of the slave (R139). -/
theorem Bus.Leg.regWrite (hds : 27 ≤ ds.length) :
    ∃ q syms, Bus.Leg par q syms r (.wr .start) ds r (.wr (.stop (regWrite r.addrS r.wdataS ds).ok)) (regWrite r.addrS r.wdataS ds).rest ∧
      (regWrite r.addrS r.wdataS ds).quarters = q + 3 ∧ (regWrite r.addrS r.wdataS ds).trace = syms ++ [.p] := by
  have drop2 : (ds.drop 9).drop 9 = ds.drop 18 := List.drop_drop
  have drop3 : (ds.drop 18).drop 9 = ds.drop 27 := List.drop_drop
  have len {n : Nat} (hn : n ≤ 18) : 9 ≤ (ds.drop n).length := by rw [List.length_drop]; omega
  have h1 := (Bus.Leg.write_start (par := par) (ds := ds) hrun).trans (Bus.Leg.write_slaW hrun (by omega))
  unfold Machine.regWrite
  cases hslaW : slaveAcks ds with
  | false =>
    rw [hslaW] at h1
    exact ⟨_, _, h1, rfl, rfl⟩
  | true =>
    rw [hslaW] at h1
    have h2 := h1.trans (Bus.Leg.write_reg hrun (len (by omega)))
    rw [drop2] at h2
    cases hreg : slaveAcks (ds.drop 9) with
    | false =>
      rw [hreg] at h2
      exact ⟨_, _, h2, rfl, rfl⟩
    | true =>
      rw [hreg] at h2
      have h3 := h2.trans (Bus.Leg.write_value hrun (len (by omega)))
      rw [drop3] at h3
      exact ⟨_, _, h3, rfl, rfl⟩

end

/-! ## RD and WR from their acceptance to their completion -/

section
variable {par : Config.Params} {e : Nat} {r : Rbc} {tr : List BusSym} {ds : List Bool} (hrun : r.phase = .run) (hsym : r.sym = none)
include hrun hsym

/-- R138: an accepted RD comes to the result, the trace, the draws and the number of quarter-steps of `RegRead`. -/
theorem Bus.rd_completes (hpos : r.script = some (.rd .start)) (hds : 36 ≤ ds.length) :
    ∃ n smp sh d, (∀ v, (regRead r.addrS ds).value = some v → d = v) ∧
      Bus.Reaches par e ((regRead r.addrS ds).quarters * par.tqCycles + 1) ⟨r, tr, ds⟩
        ⟨completeRd (regRead r.addrS ds).ok n { r with d0 := d, smp := smp, sh := sh, scl := true, sda := true },
          tr ++ (regRead r.addrS ds).trace, (regRead r.addrS ds).rest⟩ := by
  obtain ⟨q, syms, d, hleg, hq, htrace, hvalue⟩ := Bus.Leg.regRead (par := par) .rd hrun hds
  obtain ⟨smp, sh, hto⟩ := hleg (e + 1) tr r.smp r.sh
  obtain ⟨n, hstop⟩ := Bus.stop_completes (par := par) (e := e + (1 + q * par.tqCycles)) (tr := tr ++ syms)
    (r := (ReadCmd.put r d .rd).withCells smp sh) (pos := .rd (.stop (regRead r.addrS ds).ok)) (ds := (regRead r.addrS ds).rest) hrun rfl rfl
  refine ⟨n, smp, sh, d, hvalue, ?_⟩
  rw [show (regRead r.addrS ds).trace = syms ++ [.p] from htrace, show (regRead r.addrS ds).quarters = q + 3 from hq,
    ← List.append_assoc]
  exact (((Bus.begins hrun hpos hsym).trans hto).trans hstop).length_eq (by rw [Nat.add_mul]; omega)

/-- R139: the same of an accepted WR. -/
theorem Bus.wr_completes (hpos : r.script = some (.wr .start)) (hds : 27 ≤ ds.length) :
    ∃ smp sh, Bus.Reaches par e ((regWrite r.addrS r.wdataS ds).quarters * par.tqCycles + 1) ⟨r, tr, ds⟩
        ⟨completeWr (regWrite r.addrS r.wdataS ds).ok { r with smp := smp, sh := sh, scl := true, sda := true },
          tr ++ (regWrite r.addrS r.wdataS ds).trace, (regWrite r.addrS r.wdataS ds).rest⟩ := by
  obtain ⟨q, syms, hleg, hq, htrace⟩ := Bus.Leg.regWrite (par := par) hrun hds
  obtain ⟨smp, sh, hto⟩ := hleg (e + 1) tr r.smp r.sh
  obtain ⟨n, hstop⟩ := Bus.stop_completes (par := par) (e := e + (1 + q * par.tqCycles)) (tr := tr ++ syms)
    (r := r.withCells smp sh) (pos := .wr (.stop (regWrite r.addrS r.wdataS ds).ok)) (ds := (regWrite r.addrS r.wdataS ds).rest) hrun rfl rfl
  refine ⟨smp, sh, ?_⟩
  rw [htrace, hq, ← List.append_assoc]
  exact (((Bus.begins hrun hpos hsym).trans hto).trans hstop).length_eq (by rw [Nat.add_mul]; omega)

end

/-- R142: no register read takes more quarter-steps than 154. -/
theorem regRead_quarters_le (a : Byte) (ds : List Bool) : (regRead a ds).quarters ≤ 154 := by
  unfold regRead
  split_ifs <;> simp [quartersOf, Prim.quarters]

/-- R142: no register write takes more than 114. -/
theorem regWrite_quarters_le (a v : Byte) (ds : List Bool) : (regWrite a v ds).quarters ≤ 114 := by
  unfold regWrite
  split_ifs <;> simp [quartersOf, Prim.quarters]

end Sys2Proof.Machine

/-! A client's lines on the machine (spec/30_encoding.md R88, R89), for O60: what the access lines and the polls of a call leave of the
block they are for, whatever the other block does meanwhile. -/

namespace Sys2Proof.Machine

/-! ## Lines -/

/-- From `s` the machine takes `n` edges to `t`, a state of the invariant, its `read` lines returning `ws`; what the host has left there
runs on. -/
structure Runs (s : State) (n : Nat) (ws : List Word) (t : State) : Prop where
  inv : t.Inv
  goesOn : ∀ {m ws' u}, runHost m t = some (ws', u) → runHost (n + m) s = some (ws ++ ws', u)

section
variable {s t u : State} {n m : Nat} {ws ws' : List Word}

theorem Runs.trans (h : Runs s n ws t) (h' : Runs t m ws' u) : Runs s (n + m) (ws ++ ws') u :=
  ⟨h'.inv, fun hu => by rw [Nat.add_assoc, List.append_assoc]; exact h.goesOn (h'.goesOn hu)⟩

/-- A call returns once its lines are done, however much longer it is watched. -/
theorem Runs.returns (h : Runs s n ws t) (hdone : t.host = []) (hm : n ≤ m) : runHost m s = some (ws, t) := by
  have hall := h.goesOn (runHost_done 0 hdone)
  rw [List.append_nil] at hall
  exact runHost_mono hall hm

/-- The invariant says nothing of the host's lines. -/
theorem State.Inv.setHost (hi : s.Inv) (ls : List HostLine) : (s.setHost ls).Inv :=
  ⟨hi.rbc, hi.cap, hi.memWf, hi.memSpace, hi.oldWf, hi.old, hi.port⟩

/-- One edge of an ordinary line. -/
theorem Runs.line {l : HostLine} {rest : List HostLine} (hi : s.Inv) (hhost : s.host = l :: rest) (hord : l.now.ordinary = true) :
    ∃ t, StepParts s t ∧ Runs s 1 (l.returned t) t := by
  have hnow : s.now = l.now := by rw [State.now, hhost]
  obtain ⟨t, hstep, parts⟩ := step_next_parts hi (by rw [hnow]; exact hord)
  refine ⟨t, parts, parts.inv hi, fun h => ?_⟩
  rw [Nat.add_comm, runHost_step hhost hstep, h]
  rfl

/-- An access line takes one edge. -/
theorem Runs.access {c : HostCycle} {rest : List HostLine} (hi : s.Inv) (hhost : s.host = .cycle c :: rest)
    (hord : c.ordinary = true) :
    ∃ t, StepParts s t ∧ t.host = rest ∧ s.now = c ∧
      Runs s 1 ((readBack s.rbc.readReg c.rbc).toList ++ (readBack s.cap.readReg c.cap).toList) t := by
  have hnow : s.now = c := by rw [State.now, hhost]; rfl
  obtain ⟨t, parts, hrun⟩ := Runs.line hi hhost hord
  refine ⟨t, parts, by rw [parts.host, State.hostAfter, hhost], hnow, ?_⟩
  rw [← hnow, ← parts.readRbc, ← parts.readCap]
  exact hrun

/-- One edge of a poll (R88). -/
theorem Runs.pollEdge {b : Block} {off mask want : Word} {rest : List HostLine} (hi : s.Inv) (hoff : offsetOk off = true)
    (hhost : s.host = .poll b off mask want :: rest) :
    ∃ t, StepParts s t ∧ t.host = (if s.window b off &&& mask = want then rest else s.host) ∧ Runs s 1 [] t := by
  obtain ⟨t, parts, hrun⟩ := Runs.line hi hhost (by cases b <;> simp [HostLine.now, HostCycle.ordinary, accessOk, hoff])
  exact ⟨t, parts, parts.host.trans (hostAfter_poll hhost), hrun⟩

/-- A poll is left within `k + 1` edges if every edge at which it stays brings `P` one nearer to 0: `u` is the state whose window shows
the value polled for, `t` the one after the poll has read it. -/
theorem Runs.poll {P : Nat → State → Prop} {b : Block} {off mask want : Word} {rest : List HostLine} (hoff : offsetOk off = true)
    (hstays : ∀ {k : Nat} {s t : State}, P k s → s.host = .poll b off mask want :: rest → s.window b off &&& mask ≠ want →
      StepParts s t → ∃ k', k = k' + 1 ∧ P k' t)
    {k : Nat} (hP : P k s) (hi : s.Inv) (hhost : s.host = .poll b off mask want :: rest) :
    ∃ k' u t n, P k' u ∧ u.host = .poll b off mask want :: rest ∧ u.window b off &&& mask = want ∧ StepParts u t ∧ t.host = rest ∧
      n ≤ k + 1 ∧ Runs s n [] t := by
  induction k using Nat.strong_induction_on generalizing s with
  | _ k ih =>
    obtain ⟨t, parts, hthost, hrun⟩ := Runs.pollEdge hi hoff hhost
    by_cases heq : s.window b off &&& mask = want
    · rw [if_pos heq] at hthost
      exact ⟨k, s, t, 1, hP, hhost, heq, parts, hthost, by omega, hrun⟩
    · rw [if_neg heq, hhost] at hthost
      obtain ⟨k', rfl, hP'⟩ := hstays hP hhost heq parts
      obtain ⟨k'', u, v, n, hu, huhost, hueq, huv, hvhost, hn, hv⟩ := ih k' (by omega) hP' hrun.inv hthost
      exact ⟨k'', u, v, 1 + n, hu, huhost, hueq, huv, hvhost, by omega, hrun.trans hv⟩

end

/-- What a poll of `BUSY` looks at (R24, R30). -/
theorem busyBit_eq_zero_iff {v : Word} : v &&& 1 = 0 ↔ v.getLsbD 0 = false := by
  rw [show (1 : Word) = 1#32 from rfl, BitVec.and_one_eq_setWidth_ofBool_getLsbD]
  cases v.getLsbD 0 <;> decide

/-! ## The register client under a client's lines -/

section
variable {s : State} {b : Bus} {rest : List HostLine}

/-- An edge of an idle register client leaves the host's access and nothing else on its side. -/
theorem StepParts.bus_idle {t : State} (parts : StepParts s t) (hidle : s.rbc.busy = false) :
    t.bus = { s.bus with rbc := s.rbc.afterAccess s.now.rbc } := by
  rw [State.bus, parts.rbc, parts.trace, parts.slave, State.rbcStep_idle hidle]
  simp [State.bus]

/-- A write to an idle register client, `r'` being what it makes of `r`. -/
theorem Runs.writeRbc {r r' : Rbc} {tr : List BusSym} {ds : List Bool} {off v : Word} (hi : s.Inv) (hbus : s.bus = ⟨r, tr, ds⟩)
    (hidle : r.busy = false) (hwrite : r.afterAccess (some (.write off v)) = r') (hoff : offsetOk off = true)
    (hhost : s.host = .cycle { rbc := some (.write off v) } :: rest) :
    ∃ t, t.bus = ⟨r', tr, ds⟩ ∧ t.params = s.params ∧ t.host = rest ∧ Runs s 1 [] t := by
  obtain ⟨t, parts, hthost, hnow, hrun⟩ := Runs.access hi hhost (by simp [HostCycle.ordinary, accessOk, hoff])
  obtain rfl : s.rbc = r := congrArg Bus.rbc hbus
  refine ⟨t, ?_, parts.params, hthost, hrun⟩
  rw [parts.bus_idle hidle, hnow, hbus, ← hwrite]

/-- A read of an idle register client. -/
theorem Runs.readRbc {off : Word} (hi : s.Inv) (hbus : s.bus = b) (hidle : b.rbc.busy = false) (hoff : offsetOk off = true)
    (hhost : s.host = .cycle { rbc := some (.read off) } :: rest) :
    ∃ t, t.bus = b ∧ t.host = rest ∧ Runs s 1 [b.rbc.readReg off] t := by
  subst hbus
  obtain ⟨t, parts, hthost, hnow, hrun⟩ := Runs.access hi hhost (by simp [HostCycle.ordinary, accessOk, hoff])
  refine ⟨t, ?_, hthost, hrun⟩
  rw [parts.bus_idle hidle, hnow]
  rfl

/-- A poll of `BUSY` is left with the bus side at the end of its command. -/
theorem Runs.pollRbc {k : Nat} (hi : s.Inv) (hreach : Bus.Reaches s.params s.edge k s.bus b) (hidle : b.rbc.busy = false)
    (hhost : s.host = pollIdle .rbcStatus :: rest) : ∃ t n, t.bus = b ∧ t.host = rest ∧ n ≤ k + 1 ∧ Runs s n [] t := by
  have hread {s : State} (h : s.host = pollIdle .rbcStatus :: rest) : s.rbc.afterAccess s.now.rbc = s.rbc := by
    rw [(now_of_poll h).2.1]
    rfl
  have hbusy {s : State} : s.window .rbc 0x04 &&& 1 = 0 ↔ s.rbc.busy = false := by
    rw [busyBit_eq_zero_iff, show s.window .rbc 0x04 = s.rbc.status from rfl, Rbc.status_getLsbD]
    simp
  obtain ⟨k', u, t, n, hu, huhost, huidle, parts, hthost, hn, hrun⟩ :=
    Runs.poll (P := fun k s => Bus.Reaches s.params s.edge k s.bus b) (b := .rbc) (off := 0x04) (mask := 1) (want := 0) (by decide)
      (fun {k s t} hP h hstays parts => by
        have hb : s.rbc.busy = true := (Bool.not_eq_false _).mp fun hf => hstays (hbusy.2 hf)
        cases k with
        | zero =>
          obtain rfl : s.bus = b := hP
          exact absurd hb (by rw [show s.rbc.busy = false from hidle]; simp)
        | succ k =>
          refine ⟨k, rfl, ?_⟩
          rw [parts.bus (hread h), parts.params, parts.edge]
          exact hP) hreach hi hhost
  rw [hbusy] at huidle
  refine ⟨t, n, ?_, hthost, hn, hrun⟩
  rw [parts.bus_idle huidle, hread huhost]
  exact (hu.idle huidle).symm

/-- The lines that wait for a command of the register client and read the status it leaves (R89). -/
theorem Runs.syncRbc {k : Nat} (hi : s.Inv) (hreach : Bus.Reaches s.params s.edge k s.bus b) (hidle : b.rbc.busy = false)
    (hhost : s.host = pollIdle .rbcStatus :: readLine .rbcStatus :: rest) :
    ∃ t n, t.bus = b ∧ t.host = rest ∧ n ≤ k + 2 ∧ Runs s n [b.rbc.readReg 0x04] t := by
  obtain ⟨u, n, hu, huhost, hn, hpoll⟩ := Runs.pollRbc hi hreach hidle hhost
  obtain ⟨t, ht, hthost, hread⟩ := Runs.readRbc (off := 0x04) hpoll.inv hu hidle (by decide) huhost
  exact ⟨t, n + 1, ht, hthost, by omega, hpoll.trans hread⟩

end

/-! ## The accesses of `rd.sync` and `wr.sync` -/

theorem State.bus_eq_iff {s : State} {r : Rbc} {tr : List BusSym} {ds : List Bool} :
    s.bus = ⟨r, tr, ds⟩ ↔ s.rbc = r ∧ s.trace = tr ∧ s.slave = ds := by
  simp [State.bus]

/-- A byte written to an operand register is the field it holds (R25, R26). -/
theorem field_setWidth_byte (v : Byte) : field (v.setWidth 32) 0 8 = v := by
  rw [field, BitVec.extractLsb'_setWidth_of_le (by omega), BitVec.extractLsb'_eq_self]

theorem Rbc.afterAccess_addr (r : Rbc) (a : Byte) : r.afterAccess (some (.write 0x08 (a.setWidth 32))) = { r with addr := a } := by
  rw [Rbc.afterAccess_write (by decide)]
  exact congrArg (fun x => ({ r with addr := x } : Rbc)) (field_setWidth_byte a)

theorem Rbc.afterAccess_wdata (r : Rbc) (v : Byte) : r.afterAccess (some (.write 0x0C (v.setWidth 32))) = { r with wdata := v } := by
  rw [Rbc.afterAccess_write (by decide)]
  exact congrArg (fun x => ({ r with wdata := x } : Rbc)) (field_setWidth_byte v)

/-- The acceptance of RD (R131, R138). -/
theorem Rbc.afterAccess_rd {r : Rbc} (hidle : r.busy = false) :
    r.afterAccess (some (.write 0x00 0x1)) = r.flagAccept.start 0x1 (.rd .start) := by
  have hword : decodeRbc 0x1 = .instr .rd := by decide
  simp only [Rbc.afterAccess, Rbc.afterCommand, hidle, hword]
  rfl

/-- The acceptance of WR (R131, R139). -/
theorem Rbc.afterAccess_wr {r : Rbc} (hidle : r.busy = false) :
    r.afterAccess (some (.write 0x00 0x2)) = r.flagAccept.start 0x2 (.wr .start) := by
  have hword : decodeRbc 0x2 = .instr .wr := by decide
  simp only [Rbc.afterAccess, Rbc.afterCommand, hidle, hword]
  rfl

/-- `OK` in the status word read (R24, R89). -/
theorem Rbc.status_ok (r : Rbc) : (r.readReg 0x04).getLsbD 2 = r.ok := by
  rw [r.readReg_eqs.1, Rbc.status_getLsbD]
  simp

/-- A register read that has a value has succeeded (R137). -/
theorem regRead_ok_of_value {a b : Byte} {ds : List Bool} (h : (regRead a ds).value = some b) : (regRead a ds).ok = true := by
  unfold regRead at h ⊢
  split_ifs at h ⊢
  rfl

section
variable {s : State} {a v : Byte} {n : Nat} (hi : s.Inv) (hphase : s.rbc.phase = .idle)
include hi hphase

/-- `rd.sync` of an idle register client returns what the bus read comes to (R89, R138). -/
theorem machineRd_returns (hds : 36 ≤ s.slave.length) (hn : 154 * s.params.tqCycles + 6 ≤ n) :
    ∃ v t, machineRd n s a = some ((regRead a s.slave).ok, v, t) ∧ (∀ b, (regRead a s.slave).value = some b → v = b) ∧
      t.rbc.phase = .idle ∧ t.host = [] ∧ t.trace = s.trace ++ (regRead a s.slave).trace ∧
      t.slave = (regRead a s.slave).rest ∧ t.Inv := by
  have hidle := Rbc.busy_of_idle hphase
  obtain ⟨s1, hbus1, hpar1, hhost1, hrun1⟩ := Runs.writeRbc (s := s.setHost (Pseudo.rdSync a).expand) (hi.setHost _)
    rfl hidle (Rbc.afterAccess_addr s.rbc a) (by decide) rfl
  obtain ⟨s2, hbus2, hpar2, hhost2, hrun2⟩ := Runs.writeRbc hrun1.inv hbus1 hidle (Rbc.afterAccess_rd hidle) (by decide) hhost1
  obtain ⟨m, smp, sh, d, hvalue, hreach⟩ := Bus.rd_completes (par := s2.params) (e := s2.edge)
    (r := Rbc.start (Rbc.flagAccept { s.rbc with addr := a }) 0x1 (.rd .start)) (tr := s.trace) rfl rfl rfl hds
  obtain ⟨s3, k, hbus3, hhost3, hk, hrun3⟩ := Runs.syncRbc hrun2.inv (hbus2 ▸ hreach) rfl hhost2
  obtain ⟨t, hbus, hthost, hrun4⟩ := Runs.readRbc (off := 0x10) hrun3.inv hbus3 rfl (by decide) hhost3
  have hwatch : 1 + 1 + k + 1 ≤ n := by
    have hcount := Nat.mul_le_mul_right s.params.tqCycles (regRead_quarters_le a s.slave)
    have hk : k ≤ (regRead a s.slave).quarters * s.params.tqCycles + 3 := by rw [hpar2, hpar1] at hk; exact hk
    omega
  have hcall := (((hrun1.trans hrun2).trans hrun3).trans hrun4).returns hthost hwatch
  obtain ⟨hrbc, htrace, hslave⟩ := State.bus_eq_iff.1 hbus
  refine ⟨t.rbc.data0, t, ?_, fun b hb => ?_, by rw [hrbc]; rfl, hthost, htrace, hslave, hrun4.inv⟩
  · have hok : (t.rbc.readReg 0x04).getLsbD 2 = (regRead a s.slave).ok := by rw [Rbc.status_ok, hrbc]; rfl
    have hdata : field (t.rbc.readReg 0x10) 0 8 = t.rbc.data0 := t.rbc.rdata_fields.1
    rw [← hrbc] at hcall
    simp only [machineRd, runLines, hcall, List.nil_append, List.cons_append, rdSyncResult, hok, hdata]
  · have hok : (regRead a s.slave).ok = true := regRead_ok_of_value hb
    rw [hrbc, ← hvalue b hb]
    exact if_pos hok

/-- `wr.sync` of an idle register client returns what the bus write comes to (R89, R139). -/
theorem machineWr_returns (hds : 27 ≤ s.slave.length) (hn : 114 * s.params.tqCycles + 6 ≤ n) :
    ∃ t, machineWr n s a v = some ((regWrite a v s.slave).ok, t) ∧ t.rbc.phase = .idle ∧ t.host = [] ∧
      t.trace = s.trace ++ (regWrite a v s.slave).trace ∧ t.slave = (regWrite a v s.slave).rest ∧ t.Inv := by
  have hidle := Rbc.busy_of_idle hphase
  obtain ⟨s1, hbus1, hpar1, hhost1, hrun1⟩ := Runs.writeRbc (s := s.setHost (Pseudo.wrSync a v).expand) (hi.setHost _)
    rfl hidle (Rbc.afterAccess_addr s.rbc a) (by decide) rfl
  obtain ⟨s2, hbus2, hpar2, hhost2, hrun2⟩ := Runs.writeRbc hrun1.inv hbus1 hidle (Rbc.afterAccess_wdata _ v) (by decide) hhost1
  obtain ⟨s3, hbus3, hpar3, hhost3, hrun3⟩ := Runs.writeRbc hrun2.inv hbus2 hidle (Rbc.afterAccess_wr hidle) (by decide) hhost2
  obtain ⟨smp, sh, hreach⟩ := Bus.wr_completes (par := s3.params) (e := s3.edge)
    (r := Rbc.start (Rbc.flagAccept { s.rbc with addr := a, wdata := v }) 0x2 (.wr .start)) (tr := s.trace) rfl rfl rfl hds
  obtain ⟨t, k, hbus, hthost, hk, hrun4⟩ := Runs.syncRbc hrun3.inv (hbus3 ▸ hreach) rfl hhost3
  have hwatch : 1 + 1 + 1 + k ≤ n := by
    have hcount := Nat.mul_le_mul_right s.params.tqCycles (regWrite_quarters_le a v s.slave)
    have hk : k ≤ (regWrite a v s.slave).quarters * s.params.tqCycles + 3 := by rw [hpar3, hpar2, hpar1] at hk; exact hk
    omega
  have hcall := (((hrun1.trans hrun2).trans hrun3).trans hrun4).returns hthost hwatch
  obtain ⟨hrbc, htrace, hslave⟩ := State.bus_eq_iff.1 hbus
  refine ⟨t, ?_, by rw [hrbc]; rfl, hthost, htrace, hslave, hrun4.inv⟩
  have hok : (t.rbc.readReg 0x04).getLsbD 2 = (regWrite a v s.slave).ok := by rw [Rbc.status_ok, hrbc]; rfl
  rw [← hrbc] at hcall
  simp only [machineWr, runLines, hcall, List.nil_append, wrSyncResult, hok]

end

end Sys2Proof.Machine

/-! The capture engine's side of a call (spec/42_capture.md R163 to R173), for O60: what a frame's samples make of a capture and of the
frame buffer, and the lines of `capture` and `wait.cap` on the machine. -/

namespace Sys2Proof.Machine

/-! ## Bytes stored in a row -/

/-- Bytes written at consecutive addresses from `a` on. -/
def Memory.store (m : Memory) (a : Nat) : List Byte → Memory
  | [] => m
  | b :: bs => Memory.store (m.set a b) (a + 1) bs

theorem Memory.store_append (m : Memory) (a : Nat) (bs cs : List Byte) :
    m.store a (bs ++ cs) = (m.store a bs).store (a + bs.length) cs := by
  induction bs generalizing m a with
  | nil => rfl
  | cons b bs ih =>
    rw [List.cons_append, Memory.store, ih, Memory.store, List.length_cons]
    congr 1
    omega

theorem Memory.get_store_outside {a x : Nat} (bs : List Byte) (m : Memory) (h : x < a ∨ a + bs.length ≤ x) :
    (m.store a bs).get x = m.get x := by
  induction bs generalizing m a with
  | nil => rfl
  | cons b bs ih =>
    rw [List.length_cons] at h
    rw [Memory.store, ih _ (by omega), Memory.get_set_other _ _ (by omega)]

theorem Memory.get_store_inside {bs : List Byte} {k : Nat} {b : Byte} (h : bs[k]? = some b) (m : Memory) (a : Nat) :
    (m.store a bs).get (a + k) = some b := by
  induction bs generalizing m a k with
  | nil => simp at h
  | cons b' bs ih =>
    cases k with
    | zero =>
      obtain rfl : b' = b := by simpa using h
      rw [Memory.store, Memory.get_store_outside _ _ (by omega), Nat.add_zero, Memory.get_set_same]
    | succ k =>
      rw [Memory.store, ← ih (k := k) (by simpa using h) (m.set a b') (a + 1)]
      congr 1
      omega

/-! ## The samples of a frame -/

/-- What one sample makes of a capture and of the frame buffer. -/
def capSample (cm : Cap × Memory) (x : Sample) : Cap × Memory :=
  ((cm.1.edge x).1, if (cm.1.edge x).2 then cm.2.set cm.1.pixelAddr x.d else cm.2)

/-- The capture engine in another phase, at another pixel. -/
def Cap.moved (c : Cap) (p : CapPhase) (row col : Dim) : Cap := { c with phase := p, row := row, col := col }

section
variable {c : Cap} {m : Memory} {row col : Dim}

/-- One pixel-clock pulse stores its byte and goes on to the next pixel or to the end of the row (R169, R170). -/
theorem capSample_pixel (b : Byte) :
    (pixelWave b).foldl capSample (c.moved .pixWaitHigh row col, m) =
      (c.moved (if col.toNat + 1 < c.wS.toNat then .pixWaitHigh else .rowWaitEnd) row (col + 1),
        m.set (c.baseS.toNat + row.toNat * c.wS.toNat + col.toNat) b) := by
  simp only [pixelWave, List.foldl_cons, List.foldl_nil, capSample, Cap.edge, Cap.moved, Cap.goto, Cap.pixelAddr, if_true,
    Bool.false_eq_true, if_false]

/-- The pulses of the rest of a row store its bytes (R169 to R171). -/
theorem capSample_pixels {bs : List Byte} (hne : bs ≠ []) (hlen : col.toNat + bs.length = c.wS.toNat) :
    (bs.flatMap pixelWave).foldl capSample (c.moved .pixWaitHigh row col, m) =
      (c.moved .rowWaitEnd row c.wS, m.store (c.baseS.toNat + row.toNat * c.wS.toNat + col.toNat) bs) := by
  induction bs generalizing col m with
  | nil => exact absurd rfl hne
  | cons b bs ih =>
    rw [List.length_cons] at hlen
    have hcol : (col + 1).toNat = col.toNat + 1 := dim_succ (b := c.wS) (by omega)
    rw [List.flatMap_cons, List.foldl_append, capSample_pixel]
    cases bs with
    | nil =>
      rw [List.length_nil] at hlen
      have hlast : col + 1 = c.wS := dim_eq_of_toNat (by omega)
      rw [if_neg (by omega), hlast]
      rfl
    | cons b' bs =>
      rw [List.length_cons] at hlen
      rw [if_pos (by omega), ih (by simp) (by rw [hcol, List.length_cons]; omega), hcol]
      rfl

/-- One row stores its bytes; a row of no pixels is waited for all the same (R168, R171, R172, R176). -/
theorem capSample_row {bs : List Byte} (hlen : bs.length = c.wS.toNat) :
    (rowWave bs).foldl capSample (c.moved .rowWaitStart row 0, m) =
      (if row.toNat + 1 < c.hS.toNat then c.moved .rowWaitStart (row + 1) 0 else (c.moved .idle (row + 1) 0).complete,
        m.store (c.baseS.toNat + row.toNat * c.wS.toNat) bs) := by
  have hstart : capSample (c.moved .rowWaitStart row 0, m) ⟨false, true, false, 0⟩ =
      (if c.wS = 0 then c.moved .rowWaitEnd row 0 else c.moved .pixWaitHigh row 0, m) := rfl
  have hend (w : Dim) : capSample (c.moved .rowWaitEnd row w, m.store (c.baseS.toNat + row.toNat * c.wS.toNat) bs) ⟨false, false, false, 0⟩ =
      (if row.toNat + 1 < c.hS.toNat then c.moved .rowWaitStart (row + 1) 0 else (c.moved .idle (row + 1) 0).complete,
        m.store (c.baseS.toNat + row.toNat * c.wS.toNat) bs) := rfl
  rw [rowWave, List.foldl_append, List.foldl_cons, List.foldl_cons, List.foldl_nil]
  by_cases hne : bs = []
  · subst hne
    have hw : c.wS = 0 := dim_eq_of_toNat hlen.symm
    rw [hstart, if_pos hw]
    exact hend 0
  · have hw : c.wS ≠ 0 := fun h => hne (List.length_eq_zero_iff.1 (by rw [hlen, h]; rfl))
    rw [hstart, if_neg hw, capSample_pixels hne (by simpa using hlen)]
    exact hend c.wS

/-- The rows from `row` on store their bytes in row-major order, and the last of them completes the capture (R172, R173). -/
theorem capSample_rows {rows : List (List Byte)} (hne : rows ≠ []) (hrows : row.toNat + rows.length = c.hS.toNat)
    (hlen : ∀ bs ∈ rows, bs.length = c.wS.toNat) :
    (rows.flatMap rowWave).foldl capSample (c.moved .rowWaitStart row 0, m) =
      ((c.moved .idle c.hS 0).complete, m.store (c.baseS.toNat + row.toNat * c.wS.toNat) rows.flatten) := by
  induction rows generalizing row m with
  | nil => exact absurd rfl hne
  | cons bs rows ih =>
    rw [List.length_cons] at hrows
    have hbs := hlen bs (by simp)
    have hrow : (row + 1).toNat = row.toNat + 1 := dim_succ (b := c.hS) (by omega)
    rw [List.flatMap_cons, List.foldl_append, capSample_row hbs, List.flatten_cons, Memory.store_append, hbs]
    cases rows with
    | nil =>
      rw [List.length_nil] at hrows
      have hlast : row + 1 = c.hS := dim_eq_of_toNat (by omega)
      rw [if_neg (by omega), hlast]
      rfl
    | cons bs' rows =>
      rw [List.length_cons] at hrows
      rw [if_pos (by omega), ih (by simp) (by rw [hrow, List.length_cons]; omega) (fun x hx => hlen x (by simp [hx])), hrow,
        Nat.add_mul, Nat.one_mul, Nat.add_assoc]

/-- A frame-sync pulse and then the rows: an accepted capture stores them and completes, also where it has no row (R167, R176). -/
theorem capSample_frame {rows : List (List Byte)} (hrows : c.hS.toNat = rows.length) (hlen : ∀ bs ∈ rows, bs.length = c.wS.toNat) :
    (frameWave rows).foldl capSample (c.moved .vsDrain 0 0, m) =
      ((c.moved .idle c.hS 0).complete, m.store c.baseS.toNat rows.flatten) := by
  have hsync : [(⟨false, false, false, 0⟩ : Sample), ⟨true, false, false, 0⟩, ⟨false, false, false, 0⟩].foldl capSample
      (c.moved .vsDrain 0 0, m) = (if c.hS = 0 then (c.moved .idle 0 0).complete else c.moved .rowWaitStart 0 0, m) := by
    by_cases hh : c.hS = 0 <;> simp [capSample, Cap.edge, Cap.moved, Cap.goto, Cap.complete, hh]
  rw [frameWave, List.foldl_append, hsync]
  by_cases hne : rows = []
  · subst hne
    have hh : c.hS = 0 := dim_eq_of_toNat hrows
    rw [if_pos hh, hh]
    rfl
  · have hh : c.hS ≠ 0 := fun h => hne (List.length_eq_zero_iff.1 (by rw [← hrows, h]; rfl))
    rw [if_neg hh, capSample_rows hne (by simpa using hrows.symm) hlen]
    simp

end

/-! ## The samples of a run -/

/-- The host's access of a cycle leaves the synchronisers alone (R161). -/
theorem Cap.afterAccess_sync1 (c : Cap) (a : Option HostAccess) : (c.afterAccess a).sync1 = c.sync1 := by
  unfold Cap.afterAccess
  split
  · split
    · exact (c.afterCommand_sync _).1
    · unfold Cap.writeReg
      split <;> rfl
  · rfl

/-- So does the engine. -/
theorem Cap.edge_sync1 (c : Cap) (x : Sample) : (c.edge x).1.sync1 = c.sync1 := by
  unfold Cap.edge
  cases c.phase <;> simp only <;> split_ifs <;> rfl

/-- What the first synchroniser stage holds is the next sample (R161). -/
theorem StepParts.sync2 {s t : State} (parts : StepParts s t) : t.cap.sync2 = s.cap.sync1 := by
  rw [parts.cap, Cap.shiftSync, State.capStep]
  split
  · rw [Cap.edge_sync1, Cap.afterAccess_sync1]
  · exact Cap.afterAccess_sync1 _ _

/-- An edge examines the first of the samples to come; those after it come next (R161). -/
theorem StepParts.samples {s t : State} (parts : StepParts s t) : s.pendingSamples.tail <+: t.pendingSamples := by
  by_cases hv : s.video = []
  · have htail : s.pendingSamples.tail = [s.cap.sync1] := by rw [State.pendingSamples, hv]; rfl
    rw [htail, State.pendingSamples, parts.sync2]
    exact ⟨_, rfl⟩
  · rw [parts.pendingSamples hv]

/-- The synchronisers ride along through any number of samples. -/
theorem foldl_capSample_sync (xs : List Sample) (y : Sample) (cm : Cap × Memory) :
    xs.foldl capSample (cm.1.shiftSync y, cm.2) = ((xs.foldl capSample cm).1.shiftSync y, (xs.foldl capSample cm).2) := by
  induction xs generalizing cm with
  | nil => rfl
  | cons x xs ih =>
    have hx : capSample (cm.1.shiftSync y, cm.2) x = ((capSample cm x).1.shiftSync y, (capSample cm x).2) := by
      simp only [capSample, Cap.edge_sync]
      rfl
    rw [List.foldl_cons, hx, ih, List.foldl_cons]

/-- An idle engine examines nothing. -/
theorem foldl_capSample_idle {c : Cap} (hidle : c.phase = .idle) (m : Memory) (xs : List Sample) :
    xs.foldl capSample (c, m) = (c, m) := by
  have hx (x : Sample) : capSample (c, m) x = (c, m) := by simp [capSample, Cap.edge, hidle]
  exact List.foldl_fixed' hx xs

/-- An edge without a host write is one sample. -/
theorem StepParts.capSample {s t : State} (parts : StepParts s t) (hread : s.cap.afterAccess s.now.cap = s.cap) :
    (t.cap, t.mem) = ((capSample (s.cap, s.mem) s.cap.sync2).1.shiftSync (videoLevel s), (capSample (s.cap, s.mem) s.cap.sync2).2) := by
  rw [parts.cap, parts.mem, State.capStep, hread, Machine.capSample]
  cases hb : s.cap.busy with
  | true => rfl
  | false =>
    have hidle : s.cap.edge s.cap.sync2 = (s.cap, false) := by simp [Cap.edge, show s.cap.phase = .idle by simpa [Cap.busy] using hb]
    simp [hidle]

/-! ## The capture engine under a client's lines -/

section
variable {s : State} {rest : List HostLine}

/-- The samples to come complete the capture within `k` edges, the frame buffer then being `m`. -/
def State.completesWith (m : Memory) (k : Nat) (s : State) : Prop :=
  ∃ xs, xs.length = k ∧ xs <+: s.pendingSamples ∧ (xs.foldl capSample (s.cap, s.mem)).1.phase = .idle ∧
    (xs.foldl capSample (s.cap, s.mem)).1.done = true ∧ (xs.foldl capSample (s.cap, s.mem)).2 = m

/-- An edge at which the engine is busy and the host does not write brings the completion nearer. -/
theorem StepParts.completesWith {t : State} {m : Memory} {k : Nat} (parts : StepParts s t) (hread : s.cap.afterAccess s.now.cap = s.cap)
    (hb : s.cap.busy = true) (h : s.completesWith m k) : ∃ k', k = k' + 1 ∧ t.completesWith m k' := by
  obtain ⟨xs, rfl, hprefix, hidle, hdone, hmem⟩ := h
  cases xs with
  | nil => exact absurd hidle (Cap.busy_iff.1 hb)
  | cons x xs =>
    obtain ⟨rfl, htail⟩ := List.cons_prefix_cons.1 hprefix
    refine ⟨xs.length, rfl, xs, rfl, htail.trans parts.samples, ?_⟩
    rw [parts.capSample hread, foldl_capSample_sync]
    exact ⟨hidle, hdone, hmem⟩

/-- `wait.cap`: a poll of `BUSY` is left once the capture has completed. -/
theorem Runs.pollCap {m : Memory} {k : Nat} (hi : s.Inv) (h : s.completesWith m k) (hhost : s.host = pollIdle .capStatus :: rest) :
    ∃ t n, t.cap.phase = .idle ∧ t.cap.done = true ∧ t.mem = m ∧ t.host = rest ∧ n ≤ k + 1 ∧ Runs s n [] t := by
  have hread {s : State} (h : s.host = pollIdle .capStatus :: rest) : s.cap.afterAccess s.now.cap = s.cap := by
    rw [(now_of_poll h).2.2]
    rfl
  have hbusy {s : State} : s.window .cap 0x04 &&& 1 = 0 ↔ s.cap.busy = false := by
    rw [busyBit_eq_zero_iff, show s.window .cap 0x04 = s.cap.status from rfl, Cap.status_getLsbD]
    simp
  obtain ⟨k', u, t, n, hu, huhost, huidle, parts, hthost, hn, hrun⟩ :=
    Runs.poll (P := State.completesWith m) (b := .cap) (off := 0x04) (mask := 1) (want := 0) (by decide)
      (fun hP h hstays parts => parts.completesWith (hread h) ((Bool.not_eq_false _).mp fun hf => hstays (hbusy.2 hf)) hP) h hi hhost
  have hphase : u.cap.phase = .idle := by simpa [Cap.busy] using hbusy.1 huidle
  obtain ⟨xs, -, -, -, hdone, hmem⟩ := hu
  have hcap := parts.capSample (hread huhost)
  rw [show capSample (u.cap, u.mem) u.cap.sync2 = (u.cap, u.mem) from foldl_capSample_idle hphase u.mem [u.cap.sync2]] at hcap
  rw [foldl_capSample_idle hphase] at hdone hmem
  obtain ⟨htcap, htmem⟩ := Prod.mk.inj hcap
  exact ⟨t, n, by rw [htcap]; exact hphase, by rw [htcap]; exact hdone, htmem.trans hmem, hthost, hn, hrun⟩

/-- A write to an idle capture engine, `c'` being what it makes of `c`: the synchronisers step, and nothing is stored. -/
theorem Runs.writeCap {c c' : Cap} {off v : Word} {x : Sample} {xs : List Sample} (hi : s.Inv) (hcap : s.cap = c) (hidle : c.busy = false)
    (hwrite : c.afterAccess (some (.write off v)) = c') (hoff : offsetOk off = true) (hvideo : s.video = x :: xs)
    (hhost : s.host = .cycle { cap := some (.write off v) } :: rest) :
    ∃ t, t.cap = c'.shiftSync x ∧ t.mem = s.mem ∧ t.video = xs ∧ t.host = rest ∧ Runs s 1 [] t := by
  subst hcap
  obtain ⟨t, parts, hthost, hnow, hrun⟩ := Runs.access hi hhost (by simp [HostCycle.ordinary, accessOk, hoff])
  have hlevel : videoLevel s = x := by rw [videoLevel, hvideo]
  refine ⟨t, ?_, ?_, by rw [parts.video, hvideo]; rfl, hthost, hrun⟩
  · rw [parts.cap, State.capStep_idle hidle, hnow, ← hwrite, hlevel]
  · rw [parts.mem, State.capStep_idle hidle]
    rfl

end

/-! ## The accesses of `capture` -/

theorem Cap.afterAccess_base (c : Cap) (base : Word) : c.afterAccess (some (.write 0x08 base)) = { c with base := base } :=
  Cap.afterAccess_write (by decide) c base

/-- A width or height written to an operand register is the field it holds (R32, R33). -/
theorem field_setWidth_dim (d : Dim) : field (d.setWidth 32) 0 16 = d := by
  rw [field, BitVec.extractLsb'_setWidth_of_le (by omega), BitVec.extractLsb'_eq_self]

theorem Cap.afterAccess_width (c : Cap) (w : Dim) : c.afterAccess (some (.write 0x0C (w.setWidth 32))) = { c with width := w } := by
  rw [Cap.afterAccess_write (by decide)]
  exact congrArg (fun d => ({ c with width := d } : Cap)) (field_setWidth_dim w)

theorem Cap.afterAccess_height (c : Cap) (h : Dim) : c.afterAccess (some (.write 0x10 (h.setWidth 32))) = { c with height := h } := by
  rw [Cap.afterAccess_write (by decide)]
  exact congrArg (fun d => ({ c with height := d } : Cap)) (field_setWidth_dim h)

/-- The acceptance of CAPTURE (R164, R165). -/
theorem Cap.afterAccess_capture {c : Cap} (hidle : c.busy = false)
    (hfits : c.base.toNat + c.width.toNat * c.height.toNat ≤ 2 ^ 32) : c.afterAccess (some (.write 0x00 0x1)) = c.start := by
  have hword : decodeCap 0x1 = .instr .capture := by decide
  have hrange : c.rangeIllegal = false := Bool.and_eq_false_iff.2 (.inr (decide_eq_false (not_lt.2 hfits)))
  simp only [Cap.afterAccess, Cap.afterCommand, hidle, hword, hrange]
  rfl

/-- `capture` and `wait.cap` of an idle capture engine, against a source that sends a frame after the two samples of the operand writes
that come first (R89, R164, R172, R173). -/
theorem machineCapture_returns {s : State} {base : Word} {w h : Dim} {rows : List (List Byte)} {x y : Sample} {rest : List Sample}
    {n : Nat} (hi : s.Inv) (hphase : s.cap.phase = .idle) (hfits : base.toNat + w.toNat * h.toNat ≤ 2 ^ 32)
    (hrows : h.toNat = rows.length) (hlen : ∀ r ∈ rows, r.length = w.toNat) (hvideo : s.video = x :: y :: (frameWave rows ++ rest))
    (hn : (frameWave rows).length + 5 ≤ n) :
    ∃ t, machineCapture n s base w h = some t ∧ t.cap.phase = .idle ∧ t.cap.done = true ∧ t.host = [] ∧
      (∀ k b, rows.flatten[k]? = some b → t.mem.get (base.toNat + k) = some b) ∧
      (∀ a, a < base.toNat ∨ base.toNat + rows.flatten.length ≤ a → t.mem.get a = s.mem.get a) ∧ t.Inv := by
  have hidle := Cap.busy_of_idle hphase
  obtain ⟨s1, hcap1, hmem1, hvideo1, hhost1, hrun1⟩ := Runs.writeCap
    (s := s.setHost ((Pseudo.capture base w h).expand ++ Pseudo.waitCap.expand)) (hi.setHost _) rfl hidle
    (Cap.afterAccess_base s.cap base) (by decide) hvideo rfl
  obtain ⟨s2, hcap2, hmem2, hvideo2, hhost2, hrun2⟩ := Runs.writeCap hrun1.inv hcap1 hidle (Cap.afterAccess_width _ w) (by decide)
    hvideo1 hhost1
  obtain ⟨s3, hcap3, hmem3, hvideo3, hhost3, hrun3⟩ := Runs.writeCap hrun2.inv hcap2 hidle (Cap.afterAccess_height _ h) (by decide)
    hvideo2 hhost2
  obtain ⟨s4, hcap4, hmem4, hvideo4, hhost4, hrun4⟩ := Runs.writeCap hrun3.inv hcap3 hidle (Cap.afterAccess_capture hidle hfits)
    (by decide) hvideo3 hhost3
  have hmem : s4.mem = s.mem := ((hmem4.trans hmem3).trans hmem2).trans hmem1
  have hcompletes : s4.completesWith (s.mem.store base.toNat rows.flatten) (frameWave rows).length := by
    refine ⟨frameWave rows, rfl, ⟨rest, by rw [State.pendingSamples, hcap4, hvideo4]; rfl⟩, ?_⟩
    have hframe := capSample_frame (c := s4.cap) (m := s.mem) (rows := rows) (by rw [hcap4]; exact hrows) (by rw [hcap4]; exact hlen)
    have hbegin : s4.cap = s4.cap.moved .vsDrain 0 0 := by rw [hcap4]; rfl
    rw [hmem, hbegin, hframe, hcap4]
    exact ⟨rfl, rfl, rfl⟩
  obtain ⟨t, k, hidle', hdone, htmem, hthost, hk, hrun⟩ := Runs.pollCap hrun4.inv hcompletes hhost4
  have hcall := ((((hrun1.trans hrun2).trans hrun3).trans hrun4).trans hrun).returns hthost (m := n) (by omega)
  refine ⟨t, by simp only [machineCapture, runLines, hcall, Option.map_some], hidle', hdone, hthost, fun k b hb => ?_, fun a ha => ?_, hrun.inv⟩
  · rw [htmem]
    exact Memory.get_store_inside hb _ _
  · rw [htmem, Memory.get_store_outside _ _ ha]

/-- Settles O60: a call's accesses and polls run line by line; a read or write of the bus is its legs, a capture the fold of its frame. -/
theorem clientCallsRunOnTheMachine : Obligations.ClientCallsRunOnTheMachine := by
  unfold Obligations.ClientCallsRunOnTheMachine
  refine ⟨fun s a n hi hphase hds hn => machineRd_returns hi hphase hds hn, fun s a v n hi hphase hds hn => machineWr_returns hi hphase hds hn,
    fun s base w h rows x y rest n hi hphase hfits hrows hlen hvideo hn => machineCapture_returns hi hphase hfits hrows hlen hvideo hn, ?_⟩
  intro σ p io q base w h x x1 logged happly
  rw [captureFrame, happly]

end Sys2Proof.Machine

/-! Settlements of the bus primitives (spec/40_bus_primitives.md). First what the bus side of a run is on the machine, with a host
that goes on writing; then a primitive as its one atomic step (O39). -/

namespace Sys2Proof.Machine

/-! ## The engine within a primitive -/

/-- A register client that has a primitive is running, and is in the middle of that primitive. -/
theorem Rbc.good_inPrim {tq1 : Nat} {r : Rbc} {p : Prim} (hg : r.good tq1 = true) (hsym : r.sym = some p) :
    r.phase = .run ∧ ∃ pos, r.script = some pos ∧ r.inPrim tq1 pos p = true := by
  have hrun : r.phase = .run := by
    cases hph : r.phase with
    | run => rfl
    | idle => simp [Rbc.good, hph, hsym] at hg
  obtain ⟨-, -, -, pos, hpos, -, ⟨hnone, -⟩ | ⟨p', hsym', hin⟩⟩ := Rbc.good_run (Rbc.busy_iff.2 hrun) hg
  · simp [hsym] at hnone
  · obtain rfl : p = p' := Option.some_injective _ (hsym.symm.trans hsym')
    exact ⟨hrun, pos, hpos, hin⟩

/-- At the first edge of a quarter-step the outputs are what the quarter-step drives (R101). -/
theorem Rbc.atQuarter_of_inPrim {tq1 : Nat} {r : Rbc} {pos : Script} {p : Prim} (hin : r.inPrim tq1 pos p = true)
    (hsym : r.sym = some p) (htick : r.tick = 0) : r.atQuarter p r.bitc r.q r.sh = r := by
  obtain ⟨-, -, -, -, hdrive⟩ := Rbc.inPrim_iff.1 hin
  rw [Rbc.atQuarter, Rbc.drive]
  simp only [← hdrive]
  rw [← hsym, ← htick]

/-! ## The bus side of a run, under a host that goes on writing -/

/-- The bus side with other values of what the host may write at any time. -/
def Bus.withHost (b : Bus) (ov : Bool) (ad wd : Byte) : Bus := { b with rbc := b.rbc.withHost ov ad wd }

section
variable {par : Config.Params} {e n : Nat} {b b' : Bus} {ov : Bool} {ad wd : Byte}

/-- The host's flags and operand registers ride along on the bus side (R64, R132). -/
theorem Bus.next_withHost : (b.withHost ov ad wd).next par e = (b.next par e).withHost ov ad wd := by
  have hedge : (b.withHost ov ad wd).rbc.edge par e ((b.withHost ov ad wd).level e) = _ :=
    Rbc.edge_withHost par e (b.level e) b.rbc ov ad wd
  have hbusy : (b.withHost ov ad wd).rbc.busy = b.rbc.busy := rfl
  rw [Bus.next, Bus.next, hedge, hbusy]
  split <;> rfl

theorem Bus.Reaches.withHost (h : Bus.Reaches par e n b b') :
    Bus.Reaches par e n (b.withHost ov ad wd) (b'.withHost ov ad wd) := by
  induction n generalizing e b with
  | zero => exact congrArg (Bus.withHost · ov ad wd) h
  | succ n ih =>
    have hrest := ih (e := e + 1) (b := b.next par e) h
    rwa [← Bus.next_withHost] at hrest

end

/-- An edge of a running register client, or of one whose host is silent, is `Bus.next` but for what the host owns. -/
theorem StepParts.bus_host {s t : State} (parts : StepParts s t) (h : s.rbc.busy = true ∨ s.host = []) :
    t.bus = (s.bus.next s.params s.edge).withHost t.rbc.ovr t.rbc.addr t.rbc.wdata := by
  rcases h with hb | hhost
  · have hown := State.rbcStep_busy hb
    obtain ⟨hovr, haddr, hwdata⟩ := s.rbcStep_host
    rw [← hovr, ← haddr, ← hwdata, ← parts.rbc, slaveLevel_eq_level] at hown
    rw [State.bus, parts.trace, parts.slave, State.rbcStep_bus hb, Bus.next, slaveLevel_eq_level,
      show s.bus.rbc.busy = true from hb, if_pos rfl]
    conv_lhs => rw [hown]
    rfl
  · rw [← parts.bus (by rw [now_of_host_nil hhost]; rfl)]
    rfl

/-- THE BUS SIDE ON THE MACHINE: over `n` edges, with an ordinary host, it comes to what `Bus.Reaches` says but for what the host owns.
A host that starts no command is one that finds the register client running to the end, or one that is silent. -/
theorem State.run_bus {n : Nat} {s : State} {b : Bus} (hi : s.Inv) (hord : s.hostOrdinary = true)
    (hreach : Bus.Reaches s.params s.edge n s.bus b) (h : b.rbc.busy = true ∨ s.host = []) :
    ∃ t, Sys2Proof.core.run n s = .next t ∧ t.bus = b.withHost t.rbc.ovr t.rbc.addr t.rbc.wdata := by
  induction n generalizing s b with
  | zero =>
    obtain rfl : s.bus = b := hreach
    exact ⟨s, rfl, rfl⟩
  | succ n ih =>
    obtain ⟨u, hstep, parts⟩ := step_next_parts hi (ordinary_of_hostOrdinary hord)
    have hstart : s.rbc.busy = true ∨ s.host = [] := by
      refine h.imp_left fun hb => (Bool.not_eq_false _).mp fun hidle => ?_
      obtain rfl := hreach.idle (show s.bus.rbc.busy = false from hidle)
      exact absurd hb (by rw [show s.bus.rbc.busy = false from hidle]; simp)
    have hrest : Bus.Reaches u.params u.edge n u.bus (b.withHost u.rbc.ovr u.rbc.addr u.rbc.wdata) := by
      rw [parts.params, parts.edge, parts.bus_host hstart]
      exact Bus.Reaches.withHost (b := s.bus.next s.params s.edge) hreach
    have hord' : u.hostOrdinary = true := by
      rw [State.hostOrdinary, parts.host]
      exact hostAfter_ordinary hord
    obtain ⟨t, hrun, hbus⟩ := ih (parts.inv hi) hord' hrest (h.imp id fun hh => parts.host.trans (hostAfter_nil hh))
    exact ⟨t, (run_succ hstep n).trans hrun, hbus⟩

/-! ## A primitive as its one atomic step (R111) -/

/-- A primitive looks at its own draws only. -/
theorem Rbc.afterCells_append {p : Prim} {ds : List Bool} (hds : ds.length = p.draws) (r : Rbc) (rest : List Bool) :
    r.afterCells p (ds ++ rest) = r.afterCells p ds := by
  cases hb : p.isByte with
  | false => rw [Rbc.afterCells_condition hb, Rbc.afterCells_condition hb]
  | true =>
    have hnine : ds.length = 9 := by simpa [Prim.draws, hb, drawsPerByte] using hds
    have htake : (ds ++ rest).take 8 = ds.take 8 := List.take_append_of_le_length (by omega)
    rw [← Rbc.afterCells_eq hb (by simp; omega) r 0, ← Rbc.afterCells_eq hb (by omega) r 0, htake,
      List.getD_append _ _ _ _ (by omega)]

/-- An engine at the first quarter-step of its primitive has just begun it (R105 to R109). -/
theorem Rbc.begun_of_first {tq1 : Nat} {r : Rbc} {pos : Script} {p : Prim} (hin : r.inPrim tq1 pos p = true)
    (hpos : r.script = some pos) (hsym : r.sym = some p) (hbitc : r.bitc = 0) (hq : r.q = 0) (htick : r.tick = 0)
    (hsh : ∀ b, p = .writeByte b → r.sh = b) : r.begun pos = r := by
  obtain ⟨hprim, -⟩ := Rbc.inPrim_iff.1 hin
  have hload : p.load r.sh = r.sh := by
    cases p with
    | writeByte b => exact (hsh b rfl).symm
    | start => rfl
    | restart => rfl
    | stop => rfl
    | readByte => rfl
  have hscript : r.atPos pos = r := by rw [Rbc.atPos, ← hpos]
  have hquarter := Rbc.atQuarter_of_inPrim hin hsym htick
  calc r.begun pos = (r.atPos pos).atQuarter p 0 0 (p.load r.sh) := by rw [hprim]; rfl
    _ = r.atQuarter p r.bitc r.q r.sh := by rw [hscript, hload, hbitc, hq]
    _ = r := hquarter

/-- What the end of a primitive keeps leaves the snapshot alone (R132). -/
theorem Rbc.keep_snapshot (r : Rbc) (pos : Script) :
    (r.keep pos).phase = r.phase ∧ (r.keep pos).addrS = r.addrS ∧ (r.keep pos).wdataS = r.wdataS := by
  refine ⟨by simp [Rbc.keep], ?_⟩
  unfold Rbc.keep Rbc.keepResult Rbc.keepByte
  split <;> split <;> simp

/-- The first quarter-step of the primitive the script stands at. -/
theorem Rbc.begun_first (r : Rbc) (pos : Script) :
    (r.begun pos).sym = some (primAt (r.begun pos) pos) ∧ ∀ b, primAt (r.begun pos) pos = .writeByte b → (r.begun pos).sh = b := by
  have hprim : primAt (r.begun pos) pos = primAt r pos := by cases pos <;> rfl
  rw [hprim]
  refine ⟨rfl, fun b hb => ?_⟩
  rw [Rbc.begun, hb]
  rfl

theorem Rbc.afterCells_snapshot (r : Rbc) (p : Prim) (ds : List Bool) :
    (r.afterCells p ds).phase = r.phase ∧ (r.afterCells p ds).addrS = r.addrS ∧ (r.afterCells p ds).wdataS = r.wdataS := by
  cases p <;> exact ⟨rfl, rfl, rfl⟩

/-- Settles O39: `Bus.atom` on the machine; what `Rbc.afterAtom` begins or completes is read off field by field. -/
theorem primitiveIsOneAtomicStep : Obligations.PrimitiveIsOneAtomicStep := by
  unfold Obligations.PrimitiveIsOneAtomicStep
  intro s pos p ds rest hi hhost hpos hsym hbitc hq htick hsh hslave hds
  obtain ⟨hrun, pos', hpos', hin⟩ := Rbc.good_inPrim hi.rbc hsym
  obtain rfl : pos = pos' := Option.some_injective _ (hpos.symm.trans hpos')
  obtain ⟨rfl, -⟩ := Rbc.inPrim_iff.1 hin
  obtain ⟨n, hatom⟩ := Bus.atom (par := s.params) (e := s.edge) (r := s.rbc) (pos := pos) (tr := s.trace) (ds := s.slave) hrun
    (by rw [hslave, List.length_append]; omega)
  rw [Rbc.begun_of_first hin hpos hsym hbitc hq htick hsh, hslave, Rbc.afterCells_append hds, ← hds, List.drop_left, ← hslave]
    at hatom
  obtain ⟨t, hcore, hbus⟩ := State.run_bus hi (by simp [State.hostOrdinary, hhost]) hatom (.inr hhost)
  obtain ⟨hrbc, htrace, hrest⟩ := State.bus_eq_iff.1 hbus
  refine ⟨t, hcore, htrace, hrest, ?_⟩
  generalize primAt s.rbc pos = p at hrbc ⊢
  obtain ⟨hph, haddr, hwdata⟩ := s.rbc.afterCells_snapshot p ds
  obtain ⟨hph', haddr', hwdata'⟩ := (s.rbc.afterCells p ds).keep_snapshot pos
  rw [Rbc.afterAtom] at hrbc
  cases hafter : pos.after s.params.probeAlwaysBoth (primResult p (s.rbc.afterCells p ds)) with
  | some next =>
    rw [hafter] at hrbc
    have hprim : primAt t.rbc next = primAt (((s.rbc.afterCells p ds).keep pos).begun next) next := by
      rw [hrbc]; cases next <;> rfl
    obtain ⟨hsym', hsh'⟩ := Rbc.begun_first ((s.rbc.afterCells p ds).keep pos) next
    simp only [hprim]
    rw [hrbc]
    exact ⟨hph'.trans (hph.trans hrun), rfl, hsym', rfl, rfl, rfl, hsh', haddr'.trans haddr, hwdata'.trans hwdata⟩
  | none =>
    rw [hafter] at hrbc
    obtain ⟨hidle, -, -, hscl, hsda, hdone, -⟩ :=
      completeAt_fields n { (s.rbc.afterCells p ds).keep pos with scl := true, sda := true } pos
    simp only
    rw [hrbc]
    exact ⟨hidle, hdone, hscl, hsda⟩

end Sys2Proof.Machine

/-! The quarter-steps of the bus primitives: their outputs (O35), how long they are held (O36), the 36 of a byte (O58), and where
`SDA` moves (O37); the idle master (O38) and the frame of an SLA byte (O16). -/

namespace Sys2Proof.Machine

/-! ## The outputs of a bit cell -/

/-- A bit cell raises `SCL` in its middle two quarter-steps and holds `SDA` (R104). -/
theorem driveOf_byte {p : Prim} (hb : p.isByte = true) (k : Fin 9) (q : Fin 4) (sh : Byte) :
    driveOf p k q sh = (decide (q = 1) || decide (q = 2), cellLevel p k sh) := by
  cases p with
  | writeByte b => fin_cases q <;> rfl
  | readByte => fin_cases q <;> rfl
  | start => cases hb
  | restart => cases hb
  | stop => cases hb

/-- What `SDA` carries in cell `k` of a byte written: bit `7 - k`, and nothing in the ACK cell (R108). -/
theorem cellLevel_write (b b0 : Byte) (k : Fin 9) :
    cellLevel (.writeByte b) k (b0 <<< k.val) = if k = 8 then true else b0.getLsbD (7 - k.val) := by
  rw [cellLevel]
  split
  · rfl
  · next h8 =>
    have hk : k.val < 8 := by omega
    simp [BitVec.msb_shiftLeft, BitVec.getMsbD, hk]

/-! ## A byte assembled -/

/-- Of the data cells before cell `k` of a read, the last one's level is in bit 0, the one before in bit 1, and so on (R109). -/
theorem cellSh_read_getLsbD (smp : Nat → Bool) (sh : Byte) {k : Nat} (hk : k ≤ 8) {i : Nat} (hi : i < k) :
    (cellSh .readByte smp sh k).getLsbD (k - 1 - i) = smp i := by
  induction k with
  | zero => omega
  | succ k ih =>
    have h8 : Fin.ofNat 9 k ≠ 8 := by
      rw [ne_eq, Fin.ext_iff, Fin.val_ofNat, Nat.mod_eq_of_lt (by omega)]
      omega
    rw [cellSh, shiftCell, if_neg h8, BitVec.getLsbD_or, BitVec.getLsbD_shiftLeft]
    by_cases hlast : i = k
    · subst hlast
      simp
    · have hbit : k + 1 - 1 - i = (k - 1 - i) + 1 := by omega
      have hlt : k - 1 - i + 1 < 8 := by omega
      rw [hbit, Nat.add_sub_cancel, ih (by omega) (by omega)]
      simp [hlt]

/-- Settles O35: each quarter-step drives by evaluation, and the level of a data cell is what the shift register holds in it. -/
theorem primitivesDriveTheirWaveform : Obligations.PrimitivesDriveTheirWaveform := by
  unfold Obligations.PrimitivesDriveTheirWaveform
  refine ⟨fun _ _ => ⟨rfl, rfl, rfl⟩, fun b smp k => ?_, fun sh k => rfl, fun sh smp i hi => ⟨?_, rfl⟩⟩
  · have hk : k.val ≤ 8 := by omega
    rw [cellSh_write b b smp hk, ← cellLevel_write b b k]
    rfl
  · exact cellSh_read_getLsbD smp sh le_rfl hi

/-! ## Quarter-steps on the machine -/

/-- Settles O36: `Bus.ticks` on the machine. -/
theorem quarterStepIsHeldForItsCycles : Obligations.QuarterStepIsHeldForItsCycles := by
  unfold Obligations.QuarterStepIsHeldForItsCycles
  intro s p hi hord hsym htick k hk
  obtain ⟨hrun, pos, hpos, hin⟩ := Rbc.good_inPrim hi.rbc hsym
  have hticks := Bus.ticks (par := s.params) (e := s.edge) (p := p) (k := s.rbc.bitc) (q := s.rbc.q) (sh := s.rbc.sh) (tr := s.trace)
    (ds := s.slave) hrun hpos (Nat.lt_succ_iff.1 hk)
  rw [Rbc.atQuarter_of_inPrim hin hsym htick] at hticks
  obtain ⟨t, hcore, hbus⟩ := State.run_bus hi hord hticks (.inl (Rbc.busy_iff.2 hrun))
  obtain ⟨hrbc, htrace, hslave⟩ := State.bus_eq_iff.1 hbus
  exact ⟨t, hcore, hrbc, htrace, hslave⟩

section
variable {par : Config.Params} {e : Nat} {r : Rbc} {pos : Script} (hrun : r.phase = .run) (hpos : r.script = some pos)
  {p : Prim} (hp : p.isByte = true) {k : Fin 9} {sh : Byte} {tr : List BusSym} {ds : List Bool}
include hrun hpos hp

/-- A quarter-step of a bit cell that is not its last, whatever the slave does: the cell goes on (R104). -/
theorem Bus.quarter_within {q : Fin 4} (h3 : q ≠ 3) :
    ∃ smp ds', Bus.Reaches par e par.tqCycles ⟨r.atQuarter p k q sh, tr, ds⟩
      ⟨Rbc.atQuarter { r with smp := smp } p k (q + 1) sh, tr, ds'⟩ := by
  by_cases h1 : q = 1
  · subst h1
    refine ⟨cellLevel p k sh && Bus.level (e + par.tqMinus1) ⟨r, tr, ds⟩, ds.tail,
      Bus.Reaches.trans (n := 1) (Bus.ticks hrun hpos le_rfl) ?_⟩
    simp [Bus.Reaches, Bus.run, Bus.next, Bus.level, Rbc.busy, Rbc.edge, Rbc.atQuarter, Rbc.drive, Rbc.sample, lineLevels,
      Rbc.nextQuarter, hrun, hpos, hp, driveOf_byte hp]
  · exact ⟨r.smp, ds, Bus.quarter_cell hrun hpos hp h1 h3⟩

/-- From the first quarter-step of a bit cell to any of them. -/
theorem Bus.cell_quarters (q : Fin 4) :
    ∃ smp ds', Bus.Reaches par e (q.val * par.tqCycles) ⟨r.atQuarter p k 0 sh, tr, ds⟩
      ⟨Rbc.atQuarter { r with smp := smp } p k q sh, tr, ds'⟩ := by
  induction q using Fin.induction with
  | zero => exact ⟨r.smp, ds, (show Bus.Reaches par e 0 _ _ from rfl).length_eq (Nat.zero_mul _).symm⟩
  | succ q ih =>
    obtain ⟨smp, ds', hto⟩ := ih
    obtain ⟨smp', ds'', hon⟩ := Bus.quarter_within (par := par) (e := e + q.castSucc.val * par.tqCycles)
      (r := { r with smp := smp }) (k := k) (sh := sh) (tr := tr) (ds := ds') hrun hpos hp (Fin.castSucc_lt_last q).ne
    rw [Fin.coeSucc_eq_succ] at hon
    exact ⟨smp', ds'', (hto.trans hon).length_eq (Nat.succ_mul _ _).symm⟩

/-- From the first bit cell of a byte to any of them; a byte written has been shifted once for each cell before (R108). -/
theorem Bus.cells_to (k : Fin 9) :
    ∃ smp sh' ds', (∀ b, p = .writeByte b → sh' = sh <<< k.val) ∧
      Bus.Reaches par e (4 * k.val * par.tqCycles) ⟨r.atQuarter p 0 0 sh, tr, ds⟩
        ⟨Rbc.atQuarter { r with smp := smp } p k 0 sh', tr, ds'⟩ := by
  induction k using Fin.induction with
  | zero =>
    exact ⟨r.smp, sh, ds, fun _ _ => by simp, (show Bus.Reaches par e 0 _ _ from rfl).length_eq (by simp)⟩
  | succ k ih =>
    obtain ⟨smp, sh', ds', hsh, hto⟩ := ih
    obtain ⟨smp', ds'', hcell⟩ := Bus.cell_quarters (par := par) (e := e + 4 * k.castSucc.val * par.tqCycles)
      (r := { r with smp := smp }) (k := k.castSucc) (sh := sh') (tr := tr) (ds := ds') hrun hpos hp 3
    have h8 : k.castSucc ≠ 8 := (Fin.castSucc_lt_last k).ne
    have hnext := Bus.quarter_nextCell (par := par) (r := { r with smp := smp' })
      (e := e + (4 * k.castSucc.val * par.tqCycles + 3 * par.tqCycles)) (sh := sh') (tr := tr) (ds := ds'') hrun hpos hp h8
    rw [Fin.coeSucc_eq_succ] at hnext
    refine ⟨smp', _, ds'', fun b hb => ?_, ((hto.trans hcell).trans hnext).length_eq ?_⟩
    · rw [hb, shiftCell, if_neg h8, hsh b hb, ← BitVec.shiftLeft_add]
      rfl
    · show 4 * k.val * par.tqCycles + 3 * par.tqCycles + par.tqCycles = 4 * (k.val + 1) * par.tqCycles
      ring

end

/-- Settles O58: cell by cell and quarter-step by quarter-step on the bus side, which is the machine's. -/
theorem bytesAreDrivenBitByBit : Obligations.BytesAreDrivenBitByBit := by
  unfold Obligations.BytesAreDrivenBitByBit
  intro s p hi hord hsym hp hbitc hq htick hsh k q j hj
  obtain ⟨hrun, pos, hpos, hin⟩ := Rbc.good_inPrim hi.rbc hsym
  have hbegun := Rbc.atQuarter_of_inPrim hin hsym htick
  rw [hbitc, hq] at hbegun
  obtain ⟨smp, sh, ds, hshift, hcells⟩ := Bus.cells_to (par := s.params) (e := s.edge) (sh := s.rbc.sh) (tr := s.trace)
    (ds := s.slave) hrun hpos hp k
  obtain ⟨smp', ds', hquarters⟩ := Bus.cell_quarters (par := s.params) (e := s.edge + 4 * k.val * s.params.tqCycles)
    (r := { s.rbc with smp := smp }) (k := k) (sh := sh) (tr := s.trace) (ds := ds) hrun hpos hp q
  have hticks := Bus.ticks (par := s.params)
    (e := s.edge + (4 * k.val * s.params.tqCycles + q.val * s.params.tqCycles)) (r := { s.rbc with smp := smp' }) (p := p) (k := k)
    (q := q) (sh := sh) (tr := s.trace) (ds := ds') hrun hpos (Nat.lt_succ_iff.1 hj)
  have hreach := (hcells.trans hquarters).trans hticks
  rw [hbegun, ← Nat.add_mul] at hreach
  obtain ⟨t, hcore, hbus⟩ := State.run_bus hi hord hreach (.inl (Rbc.busy_iff.2 hrun))
  obtain ⟨hrbc, -, -⟩ := State.bus_eq_iff.1 hbus
  refine ⟨t, hcore, ?_⟩
  rw [hrbc]
  refine ⟨rfl, rfl, rfl, rfl, congrArg Prod.fst (driveOf_byte hp k q sh), (congrArg Prod.snd (driveOf_byte hp k q sh)).trans ?_⟩
  cases p with
  | writeByte b => rw [hshift b rfl, hsh b rfl]; exact cellLevel_write b b k
  | readByte => rfl
  | start => cases hp
  | restart => cases hp
  | stop => cases hp

/-! ## Where `SDA` moves -/

/-- The step from one quarter-step of a condition to the next moves `SDA` in the condition's own place, and `SCL` is high there
(R105 to R107). -/
theorem driveOf_condition_sda {p : Prim} (hc : p.isByte = false) {k : Fin 9} {q : Fin 4} {sh : Byte} (hq : q < p.lastQ)
    (hsda : (driveOf p k q sh).2 ≠ (driveOf p k (q + 1) sh).2) :
    (driveOf p k q sh).1 = true ∧ (driveOf p k (q + 1) sh).1 = true ∧
      ((p = .start ∧ q = 0 ∧ (driveOf p k (q + 1) sh).2 = false) ∨ (p = .restart ∧ q = 1 ∧ (driveOf p k (q + 1) sh).2 = false) ∨
        (p = .stop ∧ q = 1 ∧ (driveOf p k (q + 1) sh).2 = true)) := by
  cases p with
  | start => fin_cases q <;> simp_all [driveOf, Prim.lastQ]
  | restart => fin_cases q <;> simp_all [driveOf, Prim.lastQ]
  | stop => fin_cases q <;> simp_all [driveOf, Prim.lastQ]
  | writeByte b => cases hc
  | readByte => cases hc

/-- The last quarter-step of a primitive leaves `SCL` low, but for a stop condition, which leaves both lines released. -/
theorem driveOf_lastQ (p : Prim) (k : Fin 9) (sh : Byte) :
    (p = .stop ∧ driveOf p k p.lastQ sh = (true, true)) ∨ (p ≠ .stop ∧ (driveOf p k p.lastQ sh).1 = false) := by
  cases p with
  | stop => exact .inl ⟨rfl, rfl⟩
  | start => exact .inr ⟨by simp, rfl⟩
  | restart => exact .inr ⟨by simp, rfl⟩
  | writeByte b => exact .inr ⟨by simp, rfl⟩
  | readByte => exact .inr ⟨by simp, rfl⟩

/-- The first quarter-step of a primitive drives `SCL` low, but for a start condition, which releases both lines. -/
theorem driveOf_first (p : Prim) (sh : Byte) :
    (p = .start ∧ driveOf p 0 0 sh = (true, true)) ∨ (p ≠ .start ∧ (driveOf p 0 0 sh).1 = false) := by
  cases p with
  | start => exact .inl ⟨rfl, rfl⟩
  | stop => exact .inr ⟨by simp, rfl⟩
  | restart => exact .inr ⟨by simp, rfl⟩
  | writeByte b => exact .inr ⟨by simp, rfl⟩
  | readByte => exact .inr ⟨by simp, rfl⟩

/-- Within a register read no start condition follows and no stop condition comes before (R137). -/
theorem ReadPos.after_prim {p p' : ReadPos} {acked : Bool} (h : p.after acked = some p') (a a' : Byte) :
    p'.prim a' ≠ .start ∧ p.prim a ≠ .stop := by
  cases p <;> cases acked <;> simp [ReadPos.after] at h <;> subst h <;> simp [ReadPos.prim]

/-- Nor within a register write (R139). -/
theorem WritePos.after_prim {p p' : WritePos} {acked : Bool} (h : p.after acked = some p') (a v a' v' : Byte) :
    p'.prim a' v' ≠ .start ∧ p.prim a v ≠ .stop := by
  cases p <;> cases acked <;> simp [WritePos.after] at h <;> subst h <;> simp [WritePos.prim]

/-- The first read of PROBE goes on as any read does, but for its stop condition (R140). -/
theorem Script.after_idHigh {p : ReadPos} (h : ∀ ok, p ≠ .stop ok) (always acked : Bool) :
    (Script.idHigh p).after always acked = (p.after acked).map .idHigh := by
  cases p with
  | stop ok => exact absurd rfl (h ok)
  | _ => rfl

/-- A start condition follows a stop condition and nothing else: where PROBE goes on to its second read (R140). -/
theorem Script.after_start_iff {always acked : Bool} {pos pos' : Script} (h : pos.after always acked = some pos') (r r' : Rbc) :
    primAt r' pos' = .start ↔ primAt r pos = .stop := by
  rcases pos with p | p | p | p
  case idHigh =>
    cases p with
    | stop ok =>
      simp only [Script.after, Option.ite_none_right_eq_some, Option.some.injEq] at h
      obtain ⟨-, rfl⟩ := h
      exact iff_of_true rfl rfl
    | _ =>
      rw [Script.after_idHigh (by simp)] at h
      obtain ⟨p', hp, rfl⟩ := Option.map_eq_some_iff.1 h
      obtain ⟨hstart, hstop⟩ := ReadPos.after_prim hp Config.idHighAddr Config.idHighAddr
      exact iff_of_false hstart hstop
  case wr =>
    obtain ⟨p', hp, rfl⟩ := Option.map_eq_some_iff.1 h
    exact iff_of_false (WritePos.after_prim hp 0 0 _ _).1 (WritePos.after_prim hp _ _ 0 0).2
  all_goals
    obtain ⟨p', hp, rfl⟩ := Option.map_eq_some_iff.1 h
    exact iff_of_false (ReadPos.after_prim hp 0 _).1 (ReadPos.after_prim hp _ 0).2

/-- A script begins with a start condition (R137, R139). -/
theorem Script.primAt_first {pos : Script} (h : pos.isFirst = true) (r : Rbc) : primAt r pos = .start := by
  rcases pos with p | p | p | p <;> cases p <;> simp_all [Script.isFirst, primAt, ReadPos.prim, WritePos.prim]

/-- The move of `SDA` from `r` to `r'` is one of those R113 names. -/
def Rbc.SdaMove (r r' : Rbc) : Prop :=
  (r'.sym = some .start ∧ r'.q = 1 ∧ r.scl = true ∧ r'.scl = true ∧ r'.sda = false) ∨
    (r'.sym = some .restart ∧ r'.q = 2 ∧ r.scl = true ∧ r'.scl = true ∧ r'.sda = false) ∨
    (r'.sym = some .stop ∧ r'.q = 2 ∧ r.scl = true ∧ r'.scl = true ∧ r'.sda = true) ∨
    (r'.q = 0 ∧ r'.sym.isSome = true ∧ r.scl = false ∧ r'.scl = false)

/-- Within a bit cell `SDA` is held (R104). -/
theorem Rbc.nextQuarter_sda_byte {r : Rbc} {p : Prim} (hp : p.isByte = true)
    (hdrive : (r.scl, r.sda) = driveOf p r.bitc r.q r.sh) : (r.nextQuarter p).sda = r.sda := by
  rw [driveOf_byte hp] at hdrive
  exact (congrArg Prod.snd (driveOf_byte hp r.bitc (r.q + 1) r.sh)).trans (congrArg Prod.snd hdrive).symm

/-- Within a condition `SDA` moves where R113 says. -/
theorem Rbc.nextQuarter_sdaMove {r : Rbc} {p : Prim} (hc : p.isByte = false) (hsym : r.sym = some p) (hq : r.q < p.lastQ)
    (hdrive : (r.scl, r.sda) = driveOf p r.bitc r.q r.sh) (hne : r.sda ≠ (r.nextQuarter p).sda) :
    r.SdaMove (r.nextQuarter p) := by
  obtain ⟨hscl, hsda⟩ := Prod.mk.inj hdrive
  rw [hsda] at hne
  obtain ⟨hhigh, hhigh', ⟨rfl, h0, hfall⟩ | ⟨rfl, h1, hfall⟩ | ⟨rfl, h1, hrise⟩⟩ := driveOf_condition_sda hc hq hne
  · exact .inl ⟨hsym, congrArg (· + 1) h0, hscl.trans hhigh, hhigh', hfall⟩
  · exact .inr (.inl ⟨hsym, congrArg (· + 1) h1, hscl.trans hhigh, hhigh', hfall⟩)
  · exact .inr (.inr (.inl ⟨hsym, congrArg (· + 1) h1, hscl.trans hhigh, hhigh', hrise⟩))

/-- Where a primitive ends, `SDA` moves to the next one's first quarter-step, with `SCL` low before and after: only from a stop to a start
condition is `SCL` high, and there `SDA` is released in both. A command that completes leaves the lines alone (R135). -/
theorem Rbc.afterPrim_sdaMove {r r0 : Rbc} {always : Bool} {n : Nat} {pos : Script} {p : Prim} {k : Fin 9} {sh : Byte}
    (hp : p = primAt r0 pos) (hdrive : (r.scl, r.sda) = driveOf p k p.lastQ sh) (hne : r.sda ≠ (r.afterPrim always n pos p).sda) :
    r.SdaMove (r.afterPrim always n pos p) := by
  obtain ⟨-, -, -, -, -, hkeep⟩ := r.keep_fields pos
  unfold Rbc.afterPrim at hne ⊢
  cases hafter : pos.after always (primResult p r) with
  | none =>
    obtain ⟨-, -, -, -, hsda, -⟩ := completeAt_fields n ((r.keepByte pos).keepResult pos) pos
    simp only [hafter] at hne
    exact absurd (hsda.trans hkeep).symm hne
  | some pos' =>
    have hiff := Script.after_start_iff hafter r0 ((r.keepByte pos).keepResult pos)
    rw [← hp] at hiff
    simp only [hafter] at hne ⊢
    generalize primAt ((r.keepByte pos).keepResult pos) pos' = p' at hne hiff ⊢
    rcases driveOf_first p' (p'.load ((r.keepByte pos).keepResult pos).sh) with ⟨hstart, hfirst⟩ | ⟨hstart, hfirst⟩
    · rcases driveOf_lastQ p k sh with ⟨hstop, hlast⟩ | ⟨hstop, hlast⟩
      · rw [hlast] at hdrive
        exact absurd ((congrArg Prod.snd hdrive).trans (congrArg Prod.snd hfirst).symm) hne
      · exact absurd (hiff.1 hstart) hstop
    · rcases driveOf_lastQ p k sh with ⟨hstop, hlast⟩ | ⟨hstop, hlast⟩
      · exact absurd (hiff.2 hstop) hstart
      · exact .inr (.inr (.inr ⟨rfl, rfl, (congrArg Prod.fst hdrive).trans hlast, hfirst⟩))

/-- An edge of the engine moves `SDA` only as R113 says. -/
theorem Rbc.edge_sdaMove {par : Config.Params} {n : Nat} {level : Bool} {r : Rbc} (hb : r.busy = true)
    (hg : r.good par.tqMinus1 = true) (hne : r.sda ≠ (r.edge par n level).1.sda) : r.SdaMove (r.edge par n level).1 := by
  obtain ⟨-, -, -, pos, hpos, -, ⟨hsym, hfirst, -, hsda⟩ | ⟨p, hsym, hin⟩⟩ := Rbc.good_run hb hg
  · have hstart := Script.primAt_first hfirst r
    simp only [Rbc.edge, hpos, hsym, hstart] at hne
    exact absurd hsda hne
  · obtain ⟨hp, -, hq, -, hdrive⟩ := Rbc.inPrim_iff.1 hin
    unfold Rbc.edge at hne ⊢
    simp only [hpos, hsym] at hne ⊢
    split_ifs at hne ⊢ with htick hbyte h1 h3 h8 hlt
    · exact absurd rfl hne
    · exact absurd (Rbc.nextQuarter_sda_byte (r := r.sample level) hbyte hdrive).symm hne
    · rw [h3, ← (Prim.byte_of_not p hbyte).1] at hdrive
      exact Rbc.afterPrim_sdaMove (r := r.lastCell p) hp hdrive hne
    · rw [h3, driveOf_byte hbyte] at hdrive
      exact .inr (.inr (.inr ⟨rfl, by rw [Rbc.nextCell, Rbc.drive, hsym]; rfl, congrArg Prod.fst hdrive,
        congrArg Prod.fst (driveOf_byte hbyte _ 0 _)⟩))
    · exact absurd (Rbc.nextQuarter_sda_byte hbyte hdrive).symm hne
    · exact Rbc.nextQuarter_sdaMove (by simpa using hbyte) hsym hlt hdrive hne
    · rw [le_antisymm hq (not_lt.1 hlt)] at hdrive
      exact Rbc.afterPrim_sdaMove hp hdrive hne

/-! ## The lines outside the engine -/

/-- A host access leaves the two outputs as they are. -/
theorem Rbc.afterAccess_lines (r : Rbc) (a : Option HostAccess) : (r.afterAccess a).scl = r.scl ∧ (r.afterAccess a).sda = r.sda := by
  rcases a with _ | ⟨off, v⟩ | off
  · exact ⟨rfl, rfl⟩
  · rw [Rbc.afterAccess]
    split
    · obtain ⟨-, -, -, -, -, -, hscl, hsda, -⟩ := r.afterCommand_frame v
      exact ⟨hscl, hsda⟩
    · unfold Rbc.writeReg
      split <;> exact ⟨rfl, rfl⟩
  · exact ⟨rfl, rfl⟩

/-- Settles O37: a host access leaves the lines alone, and an edge of the engine moves `SDA` as `Rbc.SdaMove` says. -/
theorem sdaChangesOnlyWhereTheConditionsSay : Obligations.SdaChangesOnlyWhereTheConditionsSay := by
  unfold Obligations.SdaChangesOnlyWhereTheConditionsSay
  intro s t hi hr h hne
  have parts := step_parts h hr
  cases hb : s.rbc.busy with
  | false =>
    obtain ⟨-, hsda⟩ := s.rbc.afterAccess_lines s.now.rbc
    rw [parts.rbc, State.rbcStep_idle hb] at hne
    exact absurd hsda.symm hne
  | true =>
    rw [parts.rbc, State.rbcStep_busy hb] at hne ⊢
    exact Rbc.edge_sdaMove hb hi.rbc hne

/-- A cycle that writes none of its registers leaves the register client as it is (R62). -/
theorem Rbc.afterAccess_of_not_write {a : Option HostAccess} (h : ∀ off v, a ≠ some (.write off v)) (r : Rbc) :
    r.afterAccess a = r := by
  rcases a with _ | ⟨off, v⟩ | off
  · rfl
  · exact absurd rfl (h off v)
  · rfl

/-- Under the invariant an idle master has both lines released (R102). -/
theorem Rbc.good_idle_lines {tq1 : Nat} {r : Rbc} (hg : r.good tq1 = true) (hidle : r.phase = .idle) :
    r.scl = true ∧ r.sda = true := by
  simp only [Rbc.good, hidle, Bool.and_eq_true] at hg
  obtain ⟨⟨⟨⟨-, hscl⟩, hsda⟩, -⟩, -⟩ := hg
  exact ⟨hscl, hsda⟩

/-- Settles O38: an edge of an idle register client is its host access, and the invariant releases an idle master's lines. -/
theorem idleMasterLeavesTheBusAlone : Obligations.IdleMasterLeavesTheBusAlone := by
  unfold Obligations.IdleMasterLeavesTheBusAlone
  intro s t hi hr h
  have parts := step_parts h hr
  refine ⟨fun hidle => ?_, fun hidle => Rbc.good_idle_lines (parts.inv hi).rbc hidle, fun hidle hw => ?_⟩
  · obtain ⟨hrbc, htrace, hslave⟩ := State.bus_eq_iff.1 (parts.bus_idle (Rbc.busy_of_idle hidle))
    obtain ⟨hscl, hsda⟩ := s.rbc.afterAccess_lines s.now.rbc
    obtain ⟨hscl', hsda'⟩ := Rbc.good_idle_lines hi.rbc hidle
    rw [hrbc]
    exact ⟨hscl.trans hscl', hsda.trans hsda', htrace, hslave⟩
  · rw [parts.rbc, State.rbcStep_idle (Rbc.busy_of_idle hidle), Rbc.afterAccess_of_not_write hw]

/-! ## The frame of an SLA byte -/

/-- Sending an SLA byte replaces the register client and nothing else, and leaves an idle one alone (R102, R108). -/
theorem beginSla_next (rw : Bool) (s : State) :
    beginSla rw s = .next (s.setRbc (if s.rbc.busy then s.rbc.beginPrim (.writeByte (slaByte rw)) else s.rbc)) := by
  unfold beginSla
  split <;> rfl

/-- Settles O16: the block that `beginSla` leaves differs in what `Rbc.beginPrim` sets. -/
theorem slaByteFrame : Obligations.SlaByteFrame := by
  unfold Obligations.SlaByteFrame
  intro i hi s t h
  obtain ⟨rw, rfl⟩ : ∃ rw : Bool, i = if rw then .slaR else .slaW := by
    rcases List.mem_pair.1 hi with rfl | rfl
    · exact ⟨false, rfl⟩
    · exact ⟨true, rfl⟩
  rw [exec_sla, beginSla_next] at h
  injection h with h
  subst h
  refine ⟨rfl, rfl, fun _ => rfl, rfl, rfl, rfl, rfl, rfl, rfl, rfl, rfl, rfl, rfl, ?_⟩
  rw [State.setRbc_rbc]
  split <;> rfl

end Sys2Proof.Machine

/-! Settlements of the register commands (spec/41_register_commands.md R131 to R144). First the three commands from the write that
starts them to their completion (O40, O41, O42); then the bound on their quarter-steps (O43), and what a command write does at its
edge (O4, O6 to O8, O11, O12, O14, O18). -/

namespace Sys2Proof.Machine

/-! ## A command run by a host that writes it and is silent after -/

/-- With a silent host the bus side on the machine comes to exactly what `Bus.Reaches` says. -/
theorem State.run_bus_silent {n : Nat} {s : State} {b : Bus} (hi : s.Inv) (hhost : s.host = [])
    (hreach : Bus.Reaches s.params s.edge n s.bus b) : ∃ t, Sys2Proof.core.run n s = .next t ∧ t.bus = b := by
  induction n generalizing s with
  | zero => exact ⟨s, rfl, hreach⟩
  | succ n ih =>
    obtain ⟨u, hstep, parts⟩ := step_next_parts hi (by rw [now_of_host_nil hhost]; rfl)
    have hnext : u.bus = s.bus.next s.params s.edge := parts.bus (by rw [now_of_host_nil hhost]; rfl)
    have hrest : Bus.Reaches u.params u.edge n u.bus b := by
      rw [hnext, parts.params, parts.edge]
      exact hreach
    obtain ⟨t, hrun, hbus⟩ := ih (parts.inv hi) (parts.host.trans (hostAfter_nil hhost)) hrest
    exact ⟨t, (run_succ hstep n).trans hrun, hbus⟩

/-- A command word written to an idle register client: the accepting edge makes `r` of it, and the bus side of `r` runs on alone. -/
theorem State.run_command {s : State} {v : Word} {r : Rbc} {n : Nat} {b : Bus} (hi : s.Inv) (hidle : s.rbc.busy = false)
    (hhost : s.host = [.cycle { rbc := some (.write 0 v) }]) (haccept : s.rbc.afterAccess (some (.write 0 v)) = r)
    (hreach : Bus.Reaches s.params (s.edge + 1) n ⟨r, s.trace, s.slave⟩ b) :
    ∃ t, Sys2Proof.core.run (n + 1) s = .next t ∧ t.bus = b := by
  have hnow : s.now = { rbc := some (.write 0 v) } := by rw [State.now, hhost]; rfl
  obtain ⟨u, hstep, parts⟩ := step_next_parts hi (by rw [hnow]; rfl)
  have hbus : u.bus = ⟨r, s.trace, s.slave⟩ := by rw [parts.bus_idle hidle, hnow, haccept]; rfl
  have huhost : u.host = [] := by rw [parts.host, State.hostAfter, hhost]
  obtain ⟨t, hrun, hb⟩ := State.run_bus_silent (parts.inv hi) huhost (by rw [hbus, parts.params, parts.edge]; exact hreach)
  exact ⟨t, (run_succ hstep n).trans hrun, hb⟩

/-! ## RD and WR -/

/-- Settles O40: the acceptance of RD, then `Bus.rd_completes`; `completeRd` is read off field by field. -/
theorem rdReadsTheRegister : Obligations.RdReadsTheRegister := by
  unfold Obligations.RdReadsTheRegister
  intro s hi hphase hhost hds
  have hidle := Rbc.busy_of_idle hphase
  obtain ⟨n, smp, sh, d, hvalue, hreach⟩ := Bus.rd_completes (par := s.params) (e := s.edge + 1)
    (r := s.rbc.flagAccept.start 0x1 (.rd .start)) (tr := s.trace) rfl rfl rfl hds
  obtain ⟨t, hrun, hbus⟩ := State.run_command hi hidle hhost (Rbc.afterAccess_rd hidle) hreach
  obtain ⟨hrbc, htrace, hslave⟩ := State.bus_eq_iff.1 hbus
  refine ⟨t, hrun, ?_⟩
  rw [hrbc]
  refine ⟨rfl, rfl, rfl, rfl, rfl, rfl, fun v hv => ?_, rfl, htrace, hslave, rfl, rfl⟩
  exact (if_pos (regRead_ok_of_value hv)).trans (hvalue v hv)

/-- Settles O41: the acceptance of WR, then `Bus.wr_completes`. -/
theorem wrWritesTheRegister : Obligations.WrWritesTheRegister := by
  unfold Obligations.WrWritesTheRegister
  intro s hi hphase hhost hds
  have hidle := Rbc.busy_of_idle hphase
  obtain ⟨smp, sh, hreach⟩ := Bus.wr_completes (par := s.params) (e := s.edge + 1)
    (r := s.rbc.flagAccept.start 0x2 (.wr .start)) (tr := s.trace) rfl rfl rfl hds
  obtain ⟨t, hrun, hbus⟩ := State.run_command hi hidle hhost (Rbc.afterAccess_wr hidle) hreach
  obtain ⟨hrbc, htrace, hslave⟩ := State.bus_eq_iff.1 hbus
  refine ⟨t, hrun, ?_⟩
  rw [hrbc]
  exact ⟨rfl, rfl, rfl, rfl, rfl, rfl, rfl, rfl, htrace, hslave, rfl, rfl⟩

/-! ## PROBE -/

/-- The acceptance of PROBE (R131, R140). -/
theorem Rbc.afterAccess_probe {r : Rbc} (hidle : r.busy = false) :
    r.afterAccess (some (.write 0x00 0x3)) = r.flagAcceptProbe.start 0x3 (.idHigh .start) := by
  have hword : decodeRbc 0x3 = .instr .probe := by decide
  simp only [Rbc.afterAccess, Rbc.afterCommand, hidle, hword]
  rfl

/-- A register read has a value exactly when it has succeeded (R137). -/
theorem regRead_value_isSome (a : Byte) (ds : List Bool) : (regRead a ds).value.isSome = (regRead a ds).ok := by
  unfold regRead
  split_ifs <;> rfl

/-- A register read takes at most 36 draws: four bytes of nine bit cells (R104, R137). -/
theorem regRead_rest_length (a : Byte) (ds : List Bool) : ds.length - 36 ≤ (regRead a ds).rest.length := by
  unfold regRead
  split_ifs <;> simp only [List.length_drop] <;> omega

/-- The register client with the results of PROBE's two reads in it (R36, R140). -/
def Rbc.withReads (r : Rbc) (ok1 ok2 : Bool) (d0 d1 : Byte) : Rbc := { r with ok1 := ok1, ok2 := ok2, d0 := d0, d1 := d1 }

/-- The register client as the stop condition that ends a command leaves it, `smp` and `sh` being what the bit cells left (R107). -/
def Rbc.stopped (r : Rbc) (smp : Bool) (sh : Byte) : Rbc := { r.withCells smp sh with scl := true, sda := true }

section
variable {par : Config.Params} {r : Rbc} {ds : List Bool} {ok : Bool} (hrun : r.phase = .run)
include hrun

/-- Where PROBE goes on to its second read, the first read's result is kept (R140). -/
theorem Bus.probe_goesOn (hgo : (ok || par.probeAlwaysBoth) = true) :
    Bus.Leg par 3 [.p] r (.idHigh (.stop ok)) ds (r.withReads ok false r.d0 r.d1) (.idLow .start) ds :=
  Bus.Leg.of_atom (p := .stop) hrun rfl (Nat.zero_le _) (fun _ => rfl) (fun _ => if_pos hgo) fun smp sh => ⟨smp, sh, rfl⟩

/-- The first read of PROBE, up to its stop condition (R137, R140). -/
theorem Bus.probe_firstRead (hds : 36 ≤ ds.length) :
    ∃ q syms d, Bus.Leg par q syms r (.idHigh .start) ds (r.withReads r.ok1 r.ok2 d r.d1)
        (.idHigh (.stop (regRead Config.idHighAddr ds).ok)) (regRead Config.idHighAddr ds).rest ∧
      (regRead Config.idHighAddr ds).quarters = q + 3 ∧ (regRead Config.idHighAddr ds).trace = syms ++ [.p] ∧
      ∀ v, (regRead Config.idHighAddr ds).value = some v → d = v :=
  Bus.Leg.regRead .idHigh hrun hds

/-- The second read of PROBE, up to its stop condition (R137, R140). -/
theorem Bus.probe_secondRead (hds : 36 ≤ ds.length) :
    ∃ q syms d, Bus.Leg par q syms r (.idLow .start) ds (r.withReads r.ok1 r.ok2 r.d0 d)
        (.idLow (.stop (regRead Config.idLowAddr ds).ok)) (regRead Config.idLowAddr ds).rest ∧
      (regRead Config.idLowAddr ds).quarters = q + 3 ∧ (regRead Config.idLowAddr ds).trace = syms ++ [.p] ∧
      ∀ v, (regRead Config.idLowAddr ds).value = some v → d = v :=
  Bus.Leg.regRead .idLow hrun hds

/-- R140: an accepted PROBE comes to the results, the trace, the draws and the number of quarter-steps of `probeRun`. -/
theorem Bus.probe_completes {e : Nat} {tr : List BusSym} (hsym : r.sym = none) (hpos : r.script = some (.idHigh .start))
    (hds : 72 ≤ ds.length) :
    ∃ n smp sh d0 d1, (∀ v, (probeRun par.probeAlwaysBoth ds).pid = some v → d0 = v) ∧
      (∀ v, (probeRun par.probeAlwaysBoth ds).ver = some v → d1 = v) ∧
      Bus.Reaches par e ((probeRun par.probeAlwaysBoth ds).quarters * par.tqCycles + 1) ⟨r, tr, ds⟩
        ⟨completeProbe n (Rbc.stopped (r.withReads (probeRun par.probeAlwaysBoth ds).pid.isSome
            (probeRun par.probeAlwaysBoth ds).ver.isSome d0 d1) smp sh),
          tr ++ (probeRun par.probeAlwaysBoth ds).trace, (probeRun par.probeAlwaysBoth ds).rest⟩ := by
  obtain ⟨q, syms, d, hfirst, hq, htrace, hvalue⟩ := Bus.probe_firstRead (par := par) hrun (ds := ds) (by omega)
  have hrest : 36 ≤ (regRead Config.idHighAddr ds).rest.length := by
    have := regRead_rest_length Config.idHighAddr ds
    omega
  have hbegins := Bus.begins (par := par) (e := e) (tr := tr) (ds := ds) hrun hpos hsym
  simp only [probeRun]
  split
  · next hgo =>
    have hboth := hfirst.trans (Bus.probe_goesOn hrun hgo)
    obtain ⟨q', syms', d', hsecond, hq', htrace', hvalue'⟩ := Bus.probe_secondRead (par := par)
      (r := r.withReads (regRead Config.idHighAddr ds).ok false d r.d1) hrun hrest
    obtain ⟨smp, sh, hto⟩ := (hboth.trans hsecond) (e + 1) tr r.smp r.sh
    obtain ⟨n, hstop⟩ := Bus.stop_completes (par := par) (e := e + (1 + (q + 3 + q') * par.tqCycles))
      (tr := tr ++ (syms ++ [.p] ++ syms'))
      (r := Rbc.withCells (r.withReads (regRead Config.idHighAddr ds).ok false d d') smp sh)
      (pos := .idLow (.stop (regRead Config.idLowAddr (regRead Config.idHighAddr ds).rest).ok))
      (ds := (regRead Config.idLowAddr (regRead Config.idHighAddr ds).rest).rest) hrun rfl rfl
    refine ⟨n, smp, sh, d, d', hvalue, hvalue', ?_⟩
    rw [regRead_value_isSome, regRead_value_isSome, htrace, htrace', hq, hq', ← List.append_assoc _ syms' [.p], ← List.append_assoc tr]
    exact ((hbegins.trans hto).trans hstop).length_eq (by ring)
  · next hgo =>
    obtain ⟨smp, sh, hto⟩ := hfirst (e + 1) tr r.smp r.sh
    obtain ⟨n, hstop⟩ := Bus.stop_completes (par := par) (e := e + (1 + q * par.tqCycles)) (tr := tr ++ syms)
      (r := Rbc.withCells (r.withReads r.ok1 r.ok2 d r.d1) smp sh) (pos := .idHigh (.stop (regRead Config.idHighAddr ds).ok))
      (ds := (regRead Config.idHighAddr ds).rest) hrun rfl (if_neg hgo)
    refine ⟨n, smp, sh, d, r.d1, hvalue, nofun, ?_⟩
    rw [regRead_value_isSome, htrace, hq, ← List.append_assoc]
    exact ((hbegins.trans hto).trans hstop).length_eq (by ring)

end

/-- What the end of PROBE shows of its two reads (R140). -/
theorem completeProbe_shows {r : Rbc} {pid ver : Option Byte} (hok1 : r.ok1 = pid.isSome) (hok2 : r.ok2 = ver.isSome)
    (hd0 : ∀ v, pid = some v → r.d0 = v) (hd1 : ∀ v, ver = some v → r.d1 = v) (n : Nat) :
    (completeProbe n r).present = (pid == some Config.expectedPid && ver == some Config.expectedVer) ∧
      (∀ v, pid = some v → (completeProbe n r).data0 = v) ∧ ∀ v, ver = some v → (completeProbe n r).data1 = v := by
  simp only [completeProbe, Rbc.complete_present, Rbc.complete_data0, Rbc.complete_data1, hok1, hok2]
  refine ⟨?_, fun v hv => ?_, fun v hv => ?_⟩
  · cases pid with
    | none => rfl
    | some v =>
      cases ver with
      | none => simp
      | some w => simp [hd0 v rfl, hd1 w rfl]
  · rw [hv, ← hd0 v hv]; rfl
  · rw [hv, ← hd1 v hv]; rfl

/-- Settles O42: the acceptance of PROBE, then `Bus.probe_completes`. -/
theorem probeIdentifiesTheSensor : Obligations.ProbeIdentifiesTheSensor := by
  unfold Obligations.ProbeIdentifiesTheSensor
  intro s hi hphase hhost hds
  have hidle := Rbc.busy_of_idle hphase
  obtain ⟨n, smp, sh, d0, d1, hpid, hver, hreach⟩ := Bus.probe_completes (par := s.params) (e := s.edge + 1)
    (r := s.rbc.flagAcceptProbe.start 0x3 (.idHigh .start)) (tr := s.trace) rfl rfl rfl hds
  obtain ⟨t, hrun, hbus⟩ := State.run_command hi hidle hhost (Rbc.afterAccess_probe hidle) hreach
  obtain ⟨hrbc, htrace, hslave⟩ := State.bus_eq_iff.1 hbus
  refine ⟨t, hrun, ?_⟩
  rw [hrbc]
  obtain ⟨hpresent, hdata0, hdata1⟩ := completeProbe_shows (r := Rbc.stopped (Rbc.withReads _ _ _ d0 d1) smp sh) rfl rfl hpid hver n
  exact ⟨rfl, rfl, rfl, hpresent, rfl, rfl, hdata0, hdata1, htrace, hslave, rfl, rfl⟩

/-! ## The bound on a command's quarter-steps (R142) -/

/-- The most quarter-steps a register read takes from the beginning of a position on, that of the position included (R112, R137). -/
def ReadPos.quartersLeft : ReadPos → Nat
  | .start => 154
  | .slaW => 151
  | .reg => 115
  | .restart => 79
  | .slaR => 75
  | .data => 39
  | .stop _ => 3

/-- The same of a register write (R139). -/
def WritePos.quartersLeft : WritePos → Nat
  | .start => 114
  | .slaW => 111
  | .reg => 75
  | .value => 39
  | .stop _ => 3

/-- The same of a command: after the first read of PROBE comes at most the second (R140). -/
def Script.quartersLeft : Script → Nat
  | .rd p => p.quartersLeft
  | .idHigh p => p.quartersLeft + ReadPos.start.quartersLeft
  | .idLow p => p.quartersLeft
  | .wr p => p.quartersLeft

/-- A register read counts the primitive it stands at, and no more than R142 allows. -/
theorem ReadPos.quartersLeft_bounds (p : ReadPos) (a : Byte) : (p.prim a).quarters ≤ p.quartersLeft ∧ p.quartersLeft ≤ 154 := by
  cases p <;> simp [ReadPos.prim, Prim.quarters, ReadPos.quartersLeft]

/-- The same of a register write. -/
theorem WritePos.quartersLeft_bounds (p : WritePos) (a v : Byte) :
    (p.prim a v).quarters ≤ p.quartersLeft ∧ p.quartersLeft ≤ 114 := by
  cases p <;> simp [WritePos.prim, Prim.quarters, WritePos.quartersLeft]

/-- R142: the bound of the command a position belongs to. -/
theorem Script.quartersLeft_le (pos : Script) :
    pos.quartersLeft ≤ if pos.op = 0x1 then 154 else if pos.op = 0x2 then 114 else 308 := by
  rcases pos with p | p | p | p
  · exact (p.quartersLeft_bounds 0).2
  · exact Nat.add_le_add_right (p.quartersLeft_bounds 0).2 154
  · exact (p.quartersLeft_bounds 0).2.trans (Nat.le_add_right 154 154)
  · exact (p.quartersLeft_bounds 0 0).2

/-- The primitive at a position is counted there. -/
theorem Script.quarters_le (pos : Script) (r : Rbc) : (primAt r pos).quarters ≤ pos.quartersLeft := by
  rcases pos with p | p | p | p
  · exact (p.quartersLeft_bounds _).1
  · exact Nat.le_add_right_of_le (p.quartersLeft_bounds _).1
  · exact (p.quartersLeft_bounds _).1
  · exact (p.quartersLeft_bounds _ _).1

/-- Within a register read the quarter-steps of a primitive are spent where the next one begins, whatever the slave answers. -/
theorem ReadPos.quartersLeft_after {p p' : ReadPos} {acked : Bool} (h : p.after acked = some p') (a : Byte) :
    (p.prim a).quarters + p'.quartersLeft ≤ p.quartersLeft := by
  cases p <;> cases acked <;> cases h <;> simp [ReadPos.prim, Prim.quarters, ReadPos.quartersLeft]

/-- The same within a register write. -/
theorem WritePos.quartersLeft_after {p p' : WritePos} {acked : Bool} (h : p.after acked = some p') (a v : Byte) :
    (p.prim a v).quarters + p'.quartersLeft ≤ p.quartersLeft := by
  cases p <;> cases acked <;> cases h <;> simp [WritePos.prim, Prim.quarters, WritePos.quartersLeft]

/-- The quarter-steps of a primitive are spent where the script goes on. -/
theorem Script.quartersLeft_after {always acked : Bool} {pos pos' : Script} (h : pos.after always acked = some pos') (r : Rbc) :
    (primAt r pos).quarters + pos'.quartersLeft ≤ pos.quartersLeft := by
  rcases pos with p | p | p | p
  case idHigh =>
    cases p with
    | stop ok =>
      simp only [Script.after, Option.ite_none_right_eq_some, Option.some.injEq] at h
      obtain ⟨-, rfl⟩ := h
      exact le_rfl
    | _ =>
      rw [Script.after_idHigh (by simp)] at h
      obtain ⟨p', hp, rfl⟩ := Option.map_eq_some_iff.1 h
      have := ReadPos.quartersLeft_after hp Config.idHighAddr
      exact (Nat.add_assoc _ _ _).symm.trans_le (Nat.add_le_add_right this _)
  case wr =>
    obtain ⟨p', hp, rfl⟩ := Option.map_eq_some_iff.1 h
    exact WritePos.quartersLeft_after hp _ _
  all_goals
    obtain ⟨p', hp, rfl⟩ := Option.map_eq_some_iff.1 h
    exact ReadPos.quartersLeft_after hp _

/-- The quarter-steps of the engine's primitive before the one it is in (R112). -/
def Rbc.quartersDone (r : Rbc) : Nat := 4 * r.bitc.val + r.q.val

/-- The most clock edges a running command takes from here on, `tq` for each quarter-step (R101, R142). -/
def Rbc.edgesLeft (tq : Nat) (r : Rbc) : Nat :=
  match r.script with
  | none => 0
  | some pos =>
    match r.sym with
    | none => pos.quartersLeft * tq + 1
    | some _ => (pos.quartersLeft - r.quartersDone) * tq - r.tick

section
variable {tq1 : Nat} {r : Rbc} {pos : Script} {p : Prim}

theorem Rbc.edgesLeft_waiting (hpos : r.script = some pos) (hsym : r.sym = none) (tq : Nat) :
    r.edgesLeft tq = pos.quartersLeft * tq + 1 := by
  simp only [Rbc.edgesLeft, hpos, hsym]

theorem Rbc.edgesLeft_inPrim (hpos : r.script = some pos) (hsym : r.sym = some p) (tq : Nat) :
    r.edgesLeft tq = (pos.quartersLeft - r.quartersDone) * tq - r.tick := by
  simp only [Rbc.edgesLeft, hpos, hsym]

theorem Rbc.edgesLeft_begun (r : Rbc) (pos : Script) (tq : Nat) : (r.begun pos).edgesLeft tq = pos.quartersLeft * tq := rfl

/-- The next quarter-step of the same condition or bit cell. -/
theorem Rbc.nextQuarter_quartersDone (hq : r.q < Fin.last 3) (p : Prim) :
    (r.nextQuarter p).quartersDone = r.quartersDone + 1 := by
  show 4 * r.bitc.val + (r.q + 1).val = 4 * r.bitc.val + r.q.val + 1
  rw [Fin.val_add_one_of_lt hq]
  rfl

/-- The next bit cell of the same byte. -/
theorem Rbc.nextCell_quartersDone (hq : r.q = 3) (hbitc : r.bitc < Fin.last 8) (p : Prim) :
    (r.nextCell p).quartersDone = r.quartersDone + 1 := by
  show 4 * (r.bitc + 1).val + 0 = 4 * r.bitc.val + r.q.val + 1
  rw [Fin.val_add_one_of_lt hbitc, hq]
  omega

/-- The engine is within its primitive: the quarter-step it is in is one of the primitive's (R112). -/
theorem Rbc.quartersDone_lt (hin : r.inPrim tq1 pos p = true) : r.quartersDone < p.quarters := by
  obtain ⟨-, -, hq, hbitc, -⟩ := Rbc.inPrim_iff.1 hin
  have hk := r.bitc.isLt
  have hq' : r.q.val ≤ p.lastQ.val := hq
  unfold Rbc.quartersDone
  cases p with
  | writeByte b => simp only [Prim.quarters, Prim.lastQ] at hq' ⊢; omega
  | readByte => simp only [Prim.quarters, Prim.lastQ] at hq' ⊢; omega
  | _ => rw [hbitc rfl]; simp only [Prim.quarters, Prim.lastQ] at hq' ⊢; omega

/-- The edge that ends a quarter-step pays for the quarter-steps that are left after it. -/
theorem quartersLeft_mul_lt {left done next : Nat} (h : done + 1 + next ≤ left) :
    next * (tq1 + 1) < (left - done) * (tq1 + 1) - tq1 := by
  have hmul := Nat.mul_le_mul_right (tq1 + 1) (show next + 1 ≤ left - done by omega)
  rw [Nat.succ_mul] at hmul
  omega

/-- A command that runs is not at its end. -/
theorem Rbc.edgesLeft_pos (hb : r.busy = true) (hg : r.good tq1 = true) : 0 < r.edgesLeft (tq1 + 1) := by
  obtain ⟨-, -, -, pos, hpos, -, ⟨hsym, -⟩ | ⟨p, hsym, hin⟩⟩ := Rbc.good_run hb hg
  · rw [Rbc.edgesLeft_waiting hpos hsym]
    exact Nat.succ_pos _
  · obtain ⟨hp, htick, -⟩ := Rbc.inPrim_iff.1 hin
    have hdone := (Rbc.quartersDone_lt hin).trans_le (hp ▸ pos.quarters_le r)
    rw [Rbc.edgesLeft_inPrim hpos hsym]
    have := quartersLeft_mul_lt (tq1 := tq1) (next := 0) (show r.quartersDone + 1 + 0 ≤ pos.quartersLeft from hdone)
    omega

/-- `r'` is what an edge of a running command `r` may leave: a command that is nearer to its end, or has completed. -/
def Rbc.Advanced (tq : Nat) (r r' : Rbc) : Prop :=
  (r'.phase = .run ∧ r'.edgesLeft tq < r.edgesLeft tq) ∨ (r'.phase = .idle ∧ r'.done = true)

section
variable {r' : Rbc} (hrun : r'.phase = .run) (hpos : r.script = some pos) (hsym : r.sym = some p)
  (hpos' : r'.script = some pos) (hsym' : r'.sym = some p) (hdone : r.quartersDone + 1 ≤ pos.quartersLeft)
include hrun hpos hsym hpos' hsym' hdone

/-- An edge within a quarter-step. -/
theorem Rbc.advanced_tick (htick : r.tick < tq1) (hdone' : r'.quartersDone = r.quartersDone) (htick' : r'.tick = r.tick + 1) :
    r.Advanced (tq1 + 1) r' := by
  refine .inl ⟨hrun, ?_⟩
  rw [Rbc.edgesLeft_inPrim hpos hsym, Rbc.edgesLeft_inPrim hpos' hsym', htick', hdone']
  have := quartersLeft_mul_lt (tq1 := tq1) (next := 0) hdone
  omega

/-- The edge that ends a quarter-step within a primitive. -/
theorem Rbc.advanced_quarter (htick : r.tick = tq1) (hdone' : r'.quartersDone = r.quartersDone + 1) (htick' : r'.tick = 0) :
    r.Advanced (tq1 + 1) r' := by
  refine .inl ⟨hrun, ?_⟩
  rw [Rbc.edgesLeft_inPrim hpos hsym, Rbc.edgesLeft_inPrim hpos' hsym', htick, htick', hdone', Nat.sub_zero]
  exact quartersLeft_mul_lt (by omega)

end

/-- The edge that ends a primitive, `r0` being the register client the edge finds. -/
theorem Rbc.advanced_afterPrim {r0 : Rbc} {always : Bool} {n : Nat} (hrun : r.phase = .run) (hpos : r0.script = some pos)
    (hsym : r0.sym = some p) (hp : p = primAt r0 pos) (hdone : r0.quartersDone + 1 = p.quarters) (htick : r0.tick = tq1) :
    r0.Advanced (tq1 + 1) (r.afterPrim always n pos p) := by
  unfold Rbc.afterPrim
  cases hafter : pos.after always (primResult p r) with
  | none =>
    obtain ⟨hidle, -, -, -, -, hflag, -⟩ := completeAt_fields n ((r.keepByte pos).keepResult pos) pos
    exact .inr ⟨hidle, hflag⟩
  | some pos' =>
    have hnext := Script.quartersLeft_after hafter r0
    rw [← hp, ← hdone] at hnext
    refine .inl ⟨(r.keep_snapshot pos).1.trans hrun, ?_⟩
    rw [Rbc.edgesLeft_inPrim hpos hsym, htick]
    exact (Rbc.edgesLeft_begun (r.keep pos) pos' _).trans_lt (quartersLeft_mul_lt hnext)

end

/-- EVERY EDGE OF A RUNNING COMMAND BRINGS IT NEARER TO ITS END (R142), whatever the slave answers. -/
theorem Rbc.edge_advanced {par : Config.Params} {r : Rbc} (hb : r.busy = true) (hg : r.good par.tqMinus1 = true) (n : Nat)
    (level : Bool) : r.Advanced par.tqCycles (r.edge par n level).1 := by
  have hrun := Rbc.busy_iff.1 hb
  obtain ⟨-, -, -, pos, hpos, -, ⟨hsym, -⟩ | ⟨p, hsym, hin⟩⟩ := Rbc.good_run hb hg
  · have hbegins : (r.edge par n level).1 = r.begun pos := by simp only [Rbc.edge, hpos, hsym, Rbc.begun]
    rw [hbegins]
    refine .inl ⟨hrun, ?_⟩
    rw [Rbc.edgesLeft_waiting hpos hsym, Rbc.edgesLeft_begun]
    exact Nat.lt_succ_self _
  · obtain ⟨hp, hle, hq, hbitc, -⟩ := Rbc.inPrim_iff.1 hin
    have hdone : r.quartersDone + 1 ≤ pos.quartersLeft := (Rbc.quartersDone_lt hin).trans_le (hp ▸ pos.quarters_le r)
    have hlast (h : ¬ r.tick < par.tqMinus1) : r.tick = par.tqMinus1 := le_antisymm hle (not_lt.1 h)
    unfold Rbc.edge
    simp only [hpos, hsym]
    split_ifs with htick hbyte h1 h3 h8 hlt
    · exact Rbc.advanced_tick hrun hpos hsym rfl rfl hdone htick rfl rfl
    · exact Rbc.advanced_quarter hrun hpos hsym hpos hsym hdone (hlast htick)
        (Rbc.nextQuarter_quartersDone (r := r.sample level) (by rw [Rbc.sample_q, h1]; decide) p) rfl
    · refine Rbc.advanced_afterPrim (r := r.lastCell p) hrun hpos hsym hp ?_ (hlast htick)
      rw [Rbc.quartersDone, h3, h8]
      cases p with
      | writeByte b => rfl
      | readByte => rfl
      | _ => cases hbyte
    · exact Rbc.advanced_quarter hrun hpos hsym hpos hsym hdone (hlast htick)
        (Rbc.nextCell_quartersDone h3 (Fin.lt_last_iff_ne_last.2 h8) p) rfl
    · exact Rbc.advanced_quarter hrun hpos hsym hpos hsym hdone (hlast htick)
        (Rbc.nextQuarter_quartersDone (Fin.lt_last_iff_ne_last.2 h3) p) rfl
    · exact Rbc.advanced_quarter hrun hpos hsym hpos hsym hdone (hlast htick)
        (Rbc.nextQuarter_quartersDone (hlt.trans_le (Fin.le_last _)) p) rfl
    · refine Rbc.advanced_afterPrim hrun hpos hsym hp ?_ (hlast htick)
      have hc : p.isByte = false := (Bool.not_eq_true _).mp hbyte
      rw [Rbc.quartersDone, hbitc hc, le_antisymm hq (not_lt.1 hlt)]
      cases p with
      | writeByte b => cases hc
      | readByte => cases hc
      | _ => rfl

/-- A running command completes within the edges it has left, whatever the slave answers and whatever the host does short of reset. -/
theorem State.run_completes {n : Nat} {s : State} (hi : s.Inv) (hord : s.hostOrdinary = true) (hrun : s.rbc.phase = .run)
    (hn : s.rbc.edgesLeft s.params.tqCycles ≤ n) :
    ∃ m t, m ≤ n ∧ Sys2Proof.core.run m s = .next t ∧ t.rbc.phase = .idle ∧ t.rbc.done = true := by
  have hb := Rbc.busy_iff.2 hrun
  induction n generalizing s with
  | zero => exact absurd (Rbc.edgesLeft_pos hb hi.rbc) (Nat.not_lt.2 hn)
  | succ n ih =>
    obtain ⟨u, hstep, parts⟩ := step_next_parts hi (ordinary_of_hostOrdinary hord)
    have hedge := parts.rbc.trans (State.rbcStep_busy hb)
    rcases Rbc.edge_advanced hb hi.rbc s.edge (slaveLevel s) with ⟨hgoes, hless⟩ | ⟨hidle, hdone⟩
    · have hurun : u.rbc.phase = .run := by rw [hedge]; exact hgoes
      have hleft : u.rbc.edgesLeft u.params.tqCycles ≤ n := by
        rw [parts.params, hedge]
        exact Nat.le_of_lt_succ (hless.trans_le hn)
      have huord : u.hostOrdinary = true := by rw [State.hostOrdinary, parts.host]; exact hostAfter_ordinary hord
      obtain ⟨m, t, hm, hruns, hend⟩ := ih (parts.inv hi) huord hurun hleft (Rbc.busy_iff.2 hurun)
      exact ⟨m + 1, t, Nat.succ_le_succ hm, (run_succ hstep m).trans hruns, hend⟩
    · exact ⟨1, u, Nat.succ_pos n, run_succ hstep 0, by rw [hedge]; exact ⟨hidle, hdone⟩⟩

/-- A running command has at most its bound left, and the edge that begins its script (R142). -/
theorem Rbc.edgesLeft_le {tq1 : Nat} {r : Rbc} (hb : r.busy = true) (hg : r.good tq1 = true) (tq : Nat) :
    r.edgesLeft tq ≤ (if r.opS = 0x1 then 154 else if r.opS = 0x2 then 114 else 308) * tq + 1 := by
  obtain ⟨-, -, -, pos, hpos, hop, hsym⟩ := Rbc.good_run hb hg
  have hbound := Nat.mul_le_mul_right tq pos.quartersLeft_le
  rw [hop] at hbound
  rcases hsym with ⟨hsym, -⟩ | ⟨p, hsym, -⟩
  · rw [Rbc.edgesLeft_waiting hpos hsym]
    exact Nat.succ_le_succ hbound
  · rw [Rbc.edgesLeft_inPrim hpos hsym]
    have := Nat.mul_le_mul_right tq (Nat.sub_le pos.quartersLeft r.quartersDone)
    omega

/-- Settles O43: every edge brings the command nearer to its end, and it has no more edges left than its bound. -/
theorem everyBusCommandCompletes : Obligations.EveryBusCommandCompletes := by
  unfold Obligations.EveryBusCommandCompletes
  intro s hi hord hrun
  exact State.run_completes hi hord hrun (Rbc.edgesLeft_le (Rbc.busy_iff.2 hrun) hi.rbc _)

/-! ## What a command write does at its edge -/

/-- Any word written to `RBC_CMD` while the register client is busy is an overrun (R133, R225). -/
theorem rbcCommand_busy {s : State} (hb : s.rbc.busy = true) (v : Word) :
    rbcCommand v s = .next (s.setRbc s.rbc.overrun) := by
  rw [rbcCommand_next, Rbc.afterCommand, if_pos hb]

/-- Any word written to `CAP_CMD` while the capture engine is busy is an overrun (R166, R225). -/
theorem capCommand_busy {s : State} (hb : s.cap.busy = true) (v : Word) :
    capCommand v s = .next (s.setCap s.cap.overrun) := by
  rw [capCommand_next, State.oldAfter_busy hb, Cap.afterCommand, if_pos hb]
  rfl

/-- The register client's commands are what the words of their encodings do (R83). -/
theorem exec_eq_rbcCommand {i : Instr} (hi : i ∈ [Instr.nop, .rd, .wr, .probe]) (s : State) :
    exec i s = rbcCommand (encode i).bits s := by
  rw [(exec_registerCommand hi).2, rbcCommand_next]

/-- The capture engine's commands are what the words of their encodings do (R84). -/
theorem exec_eq_capCommand {i : Instr} (hi : i ∈ [Instr.cnop, .capture]) (s : State) :
    exec i s = capCommand (encode i).bits s := by
  rw [(exec_captureCommand hi).2, capCommand_next]

/-- Settles O4: NOP leaves an idle register client as it is, and is an overrun of a busy one. -/
theorem nopChangesNothing : Obligations.NopChangesNothing := by
  unfold Obligations.NopChangesNothing
  intro s
  refine ⟨(exec_eq_rbcCommand (i := .nop) (by decide) s).symm, fun hidle => ?_, fun hrun => ?_⟩
  · exact rbcUnlessBusy_idle (Rbc.busy_of_idle hidle) id
  · exact rbcUnlessBusy_busy (Rbc.busy_iff.2 hrun) id

/-- Settles O6: the acceptance of RD, written out. -/
theorem rdIsAcceptedWhileIdle : Obligations.RdIsAcceptedWhileIdle := by
  unfold Obligations.RdIsAcceptedWhileIdle
  exact fun s hidle => rbcUnlessBusy_idle (Rbc.busy_of_idle hidle) fun r => r.flagAccept.start 0x1 (.rd .start)

/-- Settles O7: the acceptance of WR, written out. -/
theorem wrIsAcceptedWhileIdle : Obligations.WrIsAcceptedWhileIdle := by
  unfold Obligations.WrIsAcceptedWhileIdle
  exact fun s hidle => rbcUnlessBusy_idle (Rbc.busy_of_idle hidle) fun r => r.flagAccept.start 0x2 (.wr .start)

/-- Settles O8: the acceptance of PROBE, written out. -/
theorem probeIsAcceptedWhileIdle : Obligations.ProbeIsAcceptedWhileIdle := by
  unfold Obligations.ProbeIsAcceptedWhileIdle
  exact fun s hidle => rbcUnlessBusy_idle (Rbc.busy_of_idle hidle) fun r => r.flagAcceptProbe.start 0x3 (.idHigh .start)

/-- Settles O11: the check for `BUSY` stands before every word, and each command is what its word does. -/
theorem commandWhileBusyOnlySetsOvr : Obligations.CommandWhileBusyOnlySetsOvr := by
  unfold Obligations.CommandWhileBusyOnlySetsOvr
  constructor
  · intro s v hrun
    have hb := Rbc.busy_iff.2 hrun
    exact ⟨rbcCommand_busy hb v, fun i hi => (exec_eq_rbcCommand hi s).trans (rbcCommand_busy hb _)⟩
  · intro s v hrun
    have hb := Cap.busy_iff.2 hrun
    exact ⟨capCommand_busy hb v, fun i hi => (exec_eq_capCommand hi s).trans (capCommand_busy hb _)⟩

/-- A word that is no command, written to `RBC_CMD` while the register client is idle (R134). -/
theorem rbcCommand_illegal {s : State} (hidle : s.rbc.phase = .idle) {v : Word} (hwf : (⟨.rcmd, v⟩ : Code).wf = false) :
    rbcCommand v s = .next (s.setRbc s.rbc.flagIllegal) := by
  obtain ⟨e, he⟩ := (onlyTheEncodingDecodesToAnInstruction.2 ⟨.rcmd, v⟩).2 hwf
  rw [rbcCommand, show decodeRbc v = .illegal e from he]
  exact rbcUnlessBusy_idle (Rbc.busy_of_idle hidle) Rbc.flagIllegal

/-- Settles O12: an ill-formed code is refused by the decoder, and the flags of R134 give the status word. -/
theorem illegalRegisterCommandIsFlagged : Obligations.IllegalRegisterCommandIsFlagged := by
  unfold Obligations.IllegalRegisterCommandIsFlagged
  refine ⟨fun s v hidle hwf => rbcCommand_illegal hidle hwf, fun s hidle hovr hpresent => ?_⟩
  refine ⟨_, rbcCommand_illegal hidle (by decide), ?_⟩
  simp only [State.setRbc_rbc, Rbc.status, Rbc.busy, Rbc.flagIllegal_phase, Rbc.flagIllegal_done, Rbc.flagIllegal_ok,
    Rbc.flagIllegal_present, Rbc.flagIllegal_illegal, Rbc.flagIllegal_ovr, hidle, hovr, hpresent]
  decide

/-- An idle master begins no SLA byte (R102, R144). -/
theorem beginSla_idle {s : State} (hidle : s.rbc.phase = .idle) (rw : Bool) : beginSla rw s = .next s :=
  if_neg (by rw [Rbc.busy_of_idle hidle]; exact Bool.false_ne_true)

/-- Settles O14: both SLA bytes are `beginSla`. -/
theorem idleMasterSendsNoSlaByte : Obligations.IdleMasterSendsNoSlaByte := by
  unfold Obligations.IdleMasterSendsNoSlaByte
  exact fun s hidle => ⟨beginSla_idle hidle false, beginSla_idle hidle true⟩

/-- A cycle without reset whose accesses can be expressed: the host's accesses, then the rest of the edge (R226). -/
theorem step_of_now {s : State} (hord : s.now.ordinary = true) :
    step s = andThen (hostEdge s.now (openEdge s.now s)) (finishEdge s) := by
  rw [step_ordinary hord, hostEdge_next]
  rfl

/-- The accesses of a cycle that writes a command to `RBC_CMD` and nothing else: the instruction its word decodes to (R131). -/
theorem hostEdge_rbcCommand {v : Word} {i : Instr} (hdec : decodeRbc v = .instr i) (s : State) :
    hostEdge { rbc := some (.write 0 v) } s = exec i s := by
  obtain ⟨t, ht⟩ := exec_next i s
  have hrbc : rbcAccess (some (.write 0 v)) s = exec i s := by simp [rbcAccess, rbcCommand, hdec]
  rw [hostEdge, hrbc, ht]
  rfl

/-- The same of `CAP_CMD` (R164). -/
theorem hostEdge_capCommand {v : Word} {i : Instr} (hdec : decodeCap v = .instr i) (s : State) :
    hostEdge { cap := some (.write 0 v) } s = exec i s := by
  have hcap : capAccess (some (.write 0 v)) s = exec i s := by simp [capAccess, capCommand, hdec]
  exact hcap

/-- Settles O18: an ordinary step runs the host's accesses first, and those are the instruction. -/
theorem stepRunsTheWrittenCommand : Obligations.StepRunsTheWrittenCommand := by
  unfold Obligations.StepRunsTheWrittenCommand
  constructor
  · intro s v i rest hhost hdec
    have hnow : s.now = { rbc := some (.write 0 v) } := by rw [State.now, hhost]; rfl
    rw [step_of_now (by rw [hnow]; rfl), hnow, hostEdge_rbcCommand hdec]
  · intro s v i rest hhost hdec
    have hnow : s.now = { cap := some (.write 0 v) } := by rw [State.now, hhost]; rfl
    rw [step_of_now (by rw [hnow]; rfl), hnow, hostEdge_capCommand hdec]

end Sys2Proof.Machine

/-! Settlements of the capture family (spec/42_capture.md R160 to R177): the command writes (O5, O9, O10), what one sample makes of a
running capture whatever the host writes meanwhile (O49, O46), the lines and levels examined (O47, O52), runs of many samples (O50, O51),
and faults (O21). -/

namespace Sys2Proof.Machine

/-! ## What a write of `CAP_CMD` does while the engine is idle -/

/-- Settles O5: an idle engine's CNOP, and its word, go on with the state itself. -/
theorem cnopChangesNothingWhileIdle : Obligations.CnopChangesNothingWhileIdle := by
  unfold Obligations.CnopChangesNothingWhileIdle
  intro s hidle
  have hcnop : exec .cnop s = .next s := capUnlessBusy_idle (Cap.busy_of_idle hidle) _
  exact ⟨hcnop, (exec_eq_capCommand (i := .cnop) (by decide) s).symm.trans hcnop⟩

/-- CAPTURE of an idle engine is the range check of R165, then the acceptance of R164. -/
theorem exec_capture_idle {s : State} (hidle : s.cap.phase = .idle) :
    exec .capture s = if s.cap.rangeIllegal then .next (s.setCap s.cap.flagIllegal)
      else .next ((s.setCap s.cap.start).setMemOld s.mem) := by
  rw [show exec .capture s = execCapture s from rfl, execCapture, capUnlessBusy_idle (Cap.busy_of_idle hidle)]
  rfl

/-- `illegal_range` (R165) as a proposition. -/
theorem Cap.rangeIllegal_iff {c : Cap} :
    c.rangeIllegal = true ↔
      0 < c.width.toNat * c.height.toNat ∧ 2 ^ 32 < c.base.toNat + c.width.toNat * c.height.toNat := by
  rw [Cap.rangeIllegal, Bool.and_eq_true, decide_eq_true_eq, decide_eq_true_eq]
  rfl

/-- Settles O9: the range is legal, and the acceptance is written out. -/
theorem captureIsAcceptedWhileIdle : Obligations.CaptureIsAcceptedWhileIdle := by
  unfold Obligations.CaptureIsAcceptedWhileIdle
  intro s hidle hfits
  rw [exec_capture_idle hidle, if_neg (by rw [Cap.rangeIllegal_iff]; omega)]
  rfl

/-- A word that is no command, written to `CAP_CMD` while the engine is idle (R165). -/
theorem capCommand_illegal {s : State} (hidle : s.cap.phase = .idle) {v : Word} (hwf : (⟨.ccmd, v⟩ : Code).wf = false) :
    capCommand v s = .next (s.setCap s.cap.flagIllegal) := by
  obtain ⟨e, he⟩ := (onlyTheEncodingDecodesToAnInstruction.2 ⟨.ccmd, v⟩).2 hwf
  rw [capCommand, show decodeCap v = .illegal e from he]
  exact capUnlessBusy_idle (Cap.busy_of_idle hidle) capRefuse

/-- A word that decodes to CAPTURE, written to `CAP_CMD`. -/
theorem capCommand_capture {v : Word} (hdec : decodeCap v = .instr .capture) (s : State) : capCommand v s = exec .capture s := by
  rw [capCommand, hdec]

/-- Settles O10: an illegal word is refused by the decoder, an illegal range by CAPTURE. -/
theorem refusedCaptureCommandsAreFlagged : Obligations.RefusedCaptureCommandsAreFlagged := by
  unfold Obligations.RefusedCaptureCommandsAreFlagged
  have hrange {s : State} {v : Word} (hidle : s.cap.phase = .idle) (hdec : decodeCap v = .instr .capture)
      (hpasses : 0 < s.cap.width.toNat * s.cap.height.toNat ∧
        2 ^ 32 < s.cap.base.toNat + s.cap.width.toNat * s.cap.height.toNat) :
      capCommand v s = .next (s.setCap s.cap.flagIllegal) := by
    rw [capCommand_capture hdec, exec_capture_idle hidle, if_pos (Cap.rangeIllegal_iff.2 hpasses)]
  have hword : decodeCap 0x00000001 = .instr .capture := by decide
  refine ⟨fun s v hidle h => h.elim (capCommand_illegal hidle) fun ⟨hdec, hpasses⟩ => hrange hidle hdec hpasses,
    fun s hidle hbase hwidth => ⟨fun hheight => ?_, fun hheight => hrange hidle hword ?_⟩⟩
  · have haccepted := captureIsAcceptedWhileIdle s hidle (by rw [hbase, hwidth, hheight]; decide)
    exact ⟨_, (capCommand_capture hword s).trans haccepted, rfl⟩
  · rw [hbase, hwidth, hheight]
    decide

/-! ## One sample of a running capture -/

/-- The capture engine after an ordinary step: the engine's edge, with what the host owns and the synchronisers riding along. -/
theorem StepParts.cap_busy {s t : State} (p : StepParts s t) (hb : s.cap.busy = true) :
    t.cap = ((s.cap.edge s.cap.sync2).1.withHost t.cap.ovr t.cap.base t.cap.width t.cap.height).shiftSync (videoLevel s) ∧
      t.mem = if (s.cap.edge s.cap.sync2).2 then s.mem.set s.cap.pixelAddr s.cap.sync2.d else s.mem := by
  rw [p.cap, p.mem, State.capStep_busy hb]
  exact ⟨rfl, rfl⟩

/-- Settles O49: `Cap.edge_written` on the machine, and an accepted CAPTURE is at the beginning of its buffer. -/
theorem bytesAreWrittenInRowMajorOrder : Obligations.BytesAreWrittenInRowMajorOrder := by
  unfold Obligations.BytesAreWrittenInRowMajorOrder
  constructor
  · intro s t hi hr hrun h
    have hb := Cap.busy_iff.2 hrun
    obtain ⟨hcap, hmem⟩ := (step_parts h hr).cap_busy hb
    obtain ⟨hbase, hwidth, hheight, hkept, hstored, hbound, hall⟩ := Cap.edge_written s.cap.sync2 hi.cap hb
    rw [hcap, hmem]
    refine ⟨hbase, hwidth, hheight, ?_, hbound, hall⟩
    cases hst : (s.cap.edge s.cap.sync2).2 with
    | false => exact .inl ⟨rfl, hkept hst⟩
    | true =>
      obtain ⟨hone, haddr⟩ := hstored hst
      exact .inr ⟨congrArg (s.mem.set · s.cap.sync2.d) haddr, hone⟩
  · intro s t hidle h hrun
    rw [exec_capture_idle hidle] at h
    split at h
    · injection h with h
      subst h
      exact absurd hidle hrun
    · injection h with h
      subst h
      rfl

/-! ## The transition table -/

/-- The phases and conditions of the eighteen rows of R163. -/
def Cap.rowConditions (c : Cap) (x : Sample) : List Bool :=
  [decide (c.phase = .vsDrain ∧ x.vs = true), decide (c.phase = .vsDrain ∧ x.vs = false),
    decide (c.phase = .vsWaitHigh ∧ x.vs = false), decide (c.phase = .vsWaitHigh ∧ x.vs = true),
    decide (c.phase = .vsWaitFall ∧ x.vs = true),
    decide (c.phase = .vsWaitFall ∧ x.vs = false ∧ c.hS = 0),
    decide (c.phase = .vsWaitFall ∧ x.vs = false ∧ c.hS ≠ 0),
    decide (c.phase = .rowWaitStart ∧ x.hr = false),
    decide (c.phase = .rowWaitStart ∧ x.hr = true ∧ c.wS = 0),
    decide (c.phase = .rowWaitStart ∧ x.hr = true ∧ c.wS ≠ 0),
    decide (c.phase = .pixWaitHigh ∧ x.pc = false), decide (c.phase = .pixWaitHigh ∧ x.pc = true),
    decide (c.phase = .pixWaitLow ∧ x.pc = true),
    decide (c.phase = .pixWaitLow ∧ x.pc = false ∧ c.col.toNat + 1 < c.wS.toNat),
    decide (c.phase = .pixWaitLow ∧ x.pc = false ∧ c.col.toNat + 1 = c.wS.toNat),
    decide (c.phase = .rowWaitEnd ∧ x.hr = true),
    decide (c.phase = .rowWaitEnd ∧ x.hr = false ∧ c.row.toNat + 1 < c.hS.toNat),
    decide (c.phase = .rowWaitEnd ∧ x.hr = false ∧ c.row.toNat + 1 = c.hS.toNat)]

/-- "The table is total" (R163): a condition on a line holds or fails, and a row or column below its bound is the last one or not. -/
theorem Cap.rowConditions_count {c : Cap} (hg : c.good = true) (hrun : c.phase ≠ .idle) (x : Sample) :
    (c.rowConditions x).count true = 1 := by
  obtain ⟨hpos, -⟩ := Cap.good_iff.1 hg
  unfold Cap.posGood at hpos
  unfold Cap.rowConditions
  cases hp : c.phase <;>
    simp only [hp, Bool.and_eq_true, decide_eq_true_eq, beq_iff_eq] at hpos
  case idle => exact absurd hp hrun
  case vsDrain => cases x.vs <;> simp
  case vsWaitHigh => cases x.vs <;> simp
  case vsWaitFall => cases x.vs <;> by_cases hh : c.hS = 0#16 <;> simp [hh]
  case rowWaitStart => cases x.hr <;> by_cases hw : c.wS = 0#16 <;> simp [hw]
  case pixWaitHigh => cases x.pc <;> simp
  case pixWaitLow =>
    obtain hlt | hlast : c.col.toNat + 1 < c.wS.toNat ∨ c.col.toNat + 1 = c.wS.toNat := by omega
    · cases x.pc <;> simp [hlt, hlt.ne]
    · cases x.pc <;> simp [hlast]
  case rowWaitEnd =>
    obtain hlt | hlast : c.row.toNat + 1 < c.hS.toNat ∨ c.row.toNat + 1 = c.hS.toNat := by omega
    · cases x.hr <;> simp [hlt, hlt.ne]
    · cases x.hr <;> simp [hlast]

/-- Settles O46: each row of R163 is one branch of `Cap.edge`. -/
theorem captureFollowsItsTable : Obligations.CaptureFollowsItsTable := by
  unfold Obligations.CaptureFollowsItsTable
  intro s hi hord
  obtain ⟨t, hstep, p⟩ := step_next_parts hi hord
  refine ⟨t, hstep, ?_⟩
  intro x k
  have row {q : CapPhase} (c : Cap) (hphase : s.cap.phase = q) (hq : q ≠ .idle) (hedge : s.cap.edge x = (c, false)) :
      t.cap = (c.withHost t.cap.ovr t.cap.base t.cap.width t.cap.height).shiftSync (videoLevel s) ∧ t.mem = s.mem := by
    have hparts := p.cap_busy (Cap.busy_iff.2 (hphase ▸ hq))
    rwa [show s.cap.edge s.cap.sync2 = (c, false) from hedge] at hparts
  have store (hphase : s.cap.phase = .pixWaitHigh) (hx : x.pc = true) :
      t.cap = { k with phase := .pixWaitLow } ∧ t.mem = s.mem.set s.cap.pixelAddr x.d := by
    have hparts := p.cap_busy (Cap.busy_iff.2 (hphase ▸ nofun))
    rwa [show s.cap.edge s.cap.sync2 = (s.cap.goto .pixWaitLow, true) by simpa [Cap.edge, hphase] using hx] at hparts
  refine ⟨fun hp hx => row s.cap hp nofun ?_, fun hp hx => row (s.cap.goto .vsWaitHigh) hp nofun ?_,
    fun hp hx => row s.cap hp nofun ?_, fun hp hx => row (s.cap.goto .vsWaitFall) hp nofun ?_,
    fun hp hx => row s.cap hp nofun ?_, fun hp hx hh => row s.cap.complete hp nofun ?_,
    fun hp hx hh => row (Cap.goto { s.cap with row := 0 } .rowWaitStart) hp nofun ?_,
    fun hp hx => row s.cap hp nofun ?_, fun hp hx hw => row (s.cap.goto .rowWaitEnd) hp nofun ?_,
    fun hp hx hw => row (Cap.goto { s.cap with col := 0 } .pixWaitHigh) hp nofun ?_,
    fun hp hx => row s.cap hp nofun ?_, store,
    fun hp hx => row s.cap hp nofun ?_,
    fun hp hx hlt => row (Cap.goto { s.cap with col := s.cap.col + 1 } .pixWaitHigh) hp nofun ?_,
    fun hp hx hlast => row (Cap.goto { s.cap with col := s.cap.col + 1 } .rowWaitEnd) hp nofun ?_,
    fun hp hx => row s.cap hp nofun ?_,
    fun hp hx hlt => row (Cap.goto { s.cap with row := s.cap.row + 1, col := 0 } .rowWaitStart) hp nofun ?_,
    fun hp hx hlast => row (Cap.complete { s.cap with row := s.cap.row + 1, col := 0 }) hp nofun ?_,
    fun hrun => Cap.rowConditions_count hi.cap hrun x⟩
  -- what is left is one branch of `Cap.edge` for each row
  all_goals simp only [Cap.edge, *, if_true, Bool.false_eq_true, if_false, Nat.lt_irrefl]

/-! ## The levels that are examined -/

/-- Settles O47: the first synchroniser stage takes the inputs' levels, and the second one takes what the first held. -/
theorem samplesAreTwoEdgesOld : Obligations.SamplesAreTwoEdgesOld := by
  unfold Obligations.SamplesAreTwoEdgesOld
  intro s t u hr hr' h h'
  have hfirst : t.cap.sync1 = videoLevel s := by rw [(step_parts h hr).cap]; rfl
  rw [(step_parts h' hr').sync2, hfirst]

/-- Settles O52: what a phase does reads no other line of the sample (R163). -/
theorem unwatchedLinesAreIgnored : Obligations.UnwatchedLinesAreIgnored := by
  unfold Obligations.UnwatchedLinesAreIgnored
  intro s x y
  refine ⟨fun hp hx => ?_, fun hp hx => ?_, fun hp hx => ?_⟩ <;> rw [hx]
  · rcases hp with hp | hp | hp | hp <;> simp only [capOn, hp] <;> rfl
  · rcases hp with hp | hp <;> simp only [capOn, hp] <;> rfl
  · rcases hp with hp | hp | hp | hp | hp <;> simp only [capOn, hp] <;> rfl

/-! ## Runs of many samples -/

/-- A sample that does not meet the exit condition of the phase changes nothing (R175). -/
theorem Cap.edge_waits {c : Cap} {x : Sample} (h : c.phase.exits x = false) : c.edge x = (c, false) := by
  unfold Cap.edge
  cases hp : c.phase <;> simp_all [CapPhase.exits]

/-- A sample that meets it takes the engine to another phase (R163). -/
theorem Cap.edge_leaves {c : Cap} {x : Sample} (h : c.phase.exits x = true) : (c.edge x).1.phase ≠ c.phase := by
  unfold Cap.edge
  cases hp : c.phase <;> rw [hp] at h <;> simp only [CapPhase.exits, Bool.not_eq_true', Bool.false_eq_true] at h
  case vsWaitFall | rowWaitStart | pixWaitLow | rowWaitEnd =>
    simp only [h, Cap.goto, Cap.complete, if_true, Bool.false_eq_true, if_false]
    split_ifs <;> nofun
  all_goals simp [h, Cap.goto]

/-- Samples that do not meet the exit condition, one after the other. -/
theorem foldl_capSample_waits {c : Cap} {xs : List Sample} (h : ∀ x ∈ xs, c.phase.exits x = false) (m : Memory) :
    xs.foldl capSample (c, m) = (c, m) := by
  induction xs with
  | nil => rfl
  | cons x xs ih =>
    obtain ⟨hx, hxs⟩ := List.forall_mem_cons.1 h
    rw [List.foldl_cons, show capSample (c, m) x = (c, m) by simp [capSample, Cap.edge_waits hx], ih hxs]

/-- The engine's own part of the block: what the host owns and the synchronisers left out. -/
def Cap.engine (c : Cap) : Cap := ((c.withHost false 0 0 0).shiftSync .zero).shiftSync .zero

theorem Cap.edge_engine (x : Sample) (c : Cap) : c.engine.edge x = ((c.edge x).1.engine, (c.edge x).2) := by
  simp only [Cap.engine, Cap.edge_sync, Cap.edge_withHost]

/-- An edge of a running capture is one sample, whatever the host does in the cycle short of reset. -/
theorem StepParts.capSample_engine {s t : State} (p : StepParts s t) (hb : s.cap.busy = true) :
    (t.cap.engine, t.mem) = Machine.capSample (s.cap.engine, s.mem) s.cap.sync2 := by
  obtain ⟨hcap, hmem⟩ := p.cap_busy hb
  rw [Machine.capSample, Cap.edge_engine, hmem, hcap]
  rfl

/-- The lines left after an ordinary step of an ordinary host. -/
theorem StepParts.hostOrdinary {s t : State} (p : StepParts s t) (hord : s.hostOrdinary = true) : t.hostOrdinary = true := by
  rw [State.hostOrdinary, p.host]
  exact hostAfter_ordinary hord

/-- THE CAPTURE'S SIDE ON THE MACHINE: a run over samples of which none but the last may complete the capture is their fold, whatever
the host does short of reset. -/
theorem State.run_samples {xs : List Sample} {s : State} (hi : s.Inv) (hord : s.hostOrdinary = true) (hcome : xs <+: s.pendingSamples)
    (hbusy : (xs.dropLast.foldl capSample (s.cap.engine, s.mem)).1.busy = true) :
    ∃ t, Sys2Proof.core.run xs.length s = .next t ∧ (t.cap.engine, t.mem) = xs.foldl capSample (s.cap.engine, s.mem) := by
  induction xs generalizing s with
  | nil => exact ⟨s, rfl, rfl⟩
  | cons x xs ih =>
    obtain ⟨rfl, hcome'⟩ := List.cons_prefix_cons.1 hcome
    have hb : s.cap.busy = true := by
      refine Cap.busy_iff.2 fun hidle => ?_
      rw [foldl_capSample_idle (c := s.cap.engine) hidle] at hbusy
      exact Cap.busy_iff.1 hbusy hidle
    obtain ⟨u, hstep, p⟩ := step_next_parts hi (ordinary_of_hostOrdinary hord)
    have hsample := p.capSample_engine hb
    have hrest : (xs.dropLast.foldl capSample (u.cap.engine, u.mem)).1.busy = true ∨ xs = [] := by
      cases xs with
      | nil => exact .inr rfl
      | cons y ys => rw [hsample]; exact .inl hbusy
    rcases hrest with hrest | rfl
    · obtain ⟨t, hrun, hfold⟩ := ih (p.inv hi) (p.hostOrdinary hord) (hcome'.trans p.samples) hrest
      exact ⟨t, (run_succ hstep _).trans hrun, by rw [hfold, hsample]; rfl⟩
    · exact ⟨u, run_succ hstep 0, hsample⟩

/-! ## A frame -/

section
variable {c : Cap} {m : Memory} {row : Dim}

/-- Before the sample that ends a row, the engine has its pixels and awaits the end (R171). -/
theorem capSample_row_busy {bs : List Byte} (hlen : bs.length = c.wS.toNat) :
    ((rowWave bs).dropLast.foldl capSample (c.moved .rowWaitStart row 0, m)).1.busy = true := by
  have hstart : capSample (c.moved .rowWaitStart row 0, m) ⟨false, true, false, 0⟩ =
      (if c.wS = 0 then c.moved .rowWaitEnd row 0 else c.moved .pixWaitHigh row 0, m) := rfl
  rw [rowWave, List.dropLast_concat, List.foldl_cons, hstart]
  by_cases hne : bs = []
  · subst hne
    rw [if_pos (dim_eq_of_toNat hlen.symm)]
    rfl
  · rw [if_neg fun h => hne (List.length_eq_zero_iff.1 (by rw [hlen, h]; rfl)), capSample_pixels hne (by simpa using hlen)]
    rfl

/-- Before the sample that ends the last of the rows to come, the capture still runs. -/
theorem capSample_rows_busy {rows : List (List Byte)} (hne : rows ≠ []) (hrows : row.toNat + rows.length = c.hS.toNat)
    (hlen : ∀ bs ∈ rows, bs.length = c.wS.toNat) :
    ((rows.flatMap rowWave).dropLast.foldl capSample (c.moved .rowWaitStart row 0, m)).1.busy = true := by
  induction rows generalizing row m with
  | nil => exact absurd rfl hne
  | cons bs rows ih =>
    have hbs := hlen bs (by simp)
    cases rows with
    | nil => rw [List.flatMap_singleton]; exact capSample_row_busy hbs
    | cons bs' rows =>
      rw [List.length_cons, List.length_cons] at hrows
      have hrow : (row + 1).toNat = row.toNat + 1 := dim_succ (b := c.hS) (by omega)
      rw [List.flatMap_cons, List.dropLast_append_of_ne_nil (by simp [rowWave]), List.foldl_append, capSample_row hbs, if_pos (by omega)]
      exact ih (by simp) (by rw [hrow, List.length_cons]; omega) (fun x hx => hlen x (by simp [hx]))

/-- A capture that has its frame but for the last sample still runs (R172). -/
theorem capSample_frame_busy {rows : List (List Byte)} (hrows : c.hS.toNat = rows.length) (hlen : ∀ bs ∈ rows, bs.length = c.wS.toNat) :
    ((frameWave rows).dropLast.foldl capSample (c.moved .vsDrain 0 0, m)).1.busy = true := by
  by_cases hne : rows = []
  · subst hne
    rfl
  · have hh : c.hS ≠ 0 := fun h => hne (List.length_eq_zero_iff.1 (by rw [← hrows, h]; rfl))
    have hsync : [(⟨false, false, false, 0⟩ : Sample), ⟨true, false, false, 0⟩, ⟨false, false, false, 0⟩].foldl capSample
        (c.moved .vsDrain 0 0, m) = (c.moved .rowWaitStart 0 0, m) := by
      simp only [List.foldl_cons, List.foldl_nil, capSample, Cap.edge, Cap.moved, Cap.goto, hh, if_true, Bool.false_eq_true, if_false]
    have hwave : rows.flatMap rowWave ≠ [] := by
      obtain ⟨bs, rows', rfl⟩ := List.exists_cons_of_ne_nil hne
      simp [rowWave]
    rw [frameWave, List.dropLast_append_of_ne_nil hwave, List.foldl_append, hsync]
    exact capSample_rows_busy hne (by simpa using hrows.symm) hlen

end

/-- Settles O50: the capture's side of an accepted CAPTURE stands at the start of `capSample_frame`; the run
is the fold of the frame's samples, which stores the rows. -/
theorem captureStoresTheFrame : Obligations.CaptureStoresTheFrame := by
  unfold Obligations.CaptureStoresTheFrame
  intro s rows rest hi hord hdrain hrows hlen hcome
  have hbegin : s.cap.engine = s.cap.engine.moved .vsDrain 0 0 := by
    obtain ⟨hpos, -⟩ := Cap.good_iff.1 hi.cap
    simp only [Cap.posGood, hdrain, Bool.and_eq_true, beq_iff_eq] at hpos
    have hself : s.cap.engine = s.cap.engine.moved s.cap.phase s.cap.row s.cap.col := rfl
    rwa [hdrain, hpos.1, hpos.2] at hself
  obtain ⟨t, hrun, hfold⟩ := State.run_samples hi hord ⟨rest, hcome.symm⟩ (by
    rw [hbegin]
    exact capSample_frame_busy hrows hlen)
  rw [hbegin, capSample_frame (c := s.cap.engine) hrows hlen] at hfold
  obtain ⟨hcap, hmem⟩ := Prod.mk.inj hfold
  refine ⟨t, hrun, congrArg Cap.phase hcap, congrArg Cap.done hcap, congrArg Cap.row hcap, congrArg Cap.col hcap,
    fun k b hb => ?_, fun a ha => ?_⟩
  · rw [hmem]
    exact Memory.get_store_inside hb _ _
  · rw [hmem]
    exact Memory.get_store_outside _ _ ha

/-! ## Waits without a timeout -/

/-- An ordinary edge of a running capture stays in the phase exactly where the sample does not meet its exit condition (R175). -/
theorem StepParts.phase_eq_iff {s t : State} (p : StepParts s t) (hb : s.cap.busy = true) :
    t.cap.phase = s.cap.phase ↔ s.cap.phase.exits s.cap.sync2 = false := by
  rw [show t.cap.phase = (s.cap.edge s.cap.sync2).1.phase by rw [(p.cap_busy hb).1]; rfl]
  cases h : s.cap.phase.exits s.cap.sync2 with
  | false => rw [Cap.edge_waits h]; exact iff_of_true rfl rfl
  | true => exact iff_of_false (Cap.edge_leaves h) nofun

/-- `n` edges lead from `s` to `t`, and what the next edge needs of `t` holds there. -/
structure State.Reaches (s : State) (n : Nat) (t : State) : Prop where
  run : Sys2Proof.core.run n s = .next t
  inv : t.Inv
  host : t.hostOrdinary = true

theorem State.Reaches.next {s t : State} {n : Nat} (h : s.Reaches n t) : ∃ u, StepParts t u ∧ s.Reaches (n + 1) u := by
  obtain ⟨u, hstep, p⟩ := step_next_parts h.inv (ordinary_of_hostOrdinary h.host)
  exact ⟨u, p, (run_add h.run 1).trans (run_succ hstep 0), p.inv h.inv, p.hostOrdinary h.host⟩

/-- With an ordinary host a state of the invariant runs for any number of edges. -/
theorem State.reaches {s : State} (hi : s.Inv) (hord : s.hostOrdinary = true) (n : Nat) : ∃ t, s.Reaches n t := by
  induction n with
  | zero => exact ⟨s, rfl, hi, hord⟩
  | succ n ih =>
    obtain ⟨t, ht⟩ := ih
    obtain ⟨u, -, hu⟩ := ht.next
    exact ⟨u, hu⟩

/-- Every run from such a state is one of those. -/
theorem State.reaches_of_run {s t : State} {n : Nat} (hi : s.Inv) (hord : s.hostOrdinary = true)
    (hrun : Sys2Proof.core.run n s = .next t) : s.Reaches n t := by
  obtain ⟨t', ht⟩ := State.reaches hi hord n
  rwa [Host.Outcome.next.inj (hrun.symm.trans ht.run)]

section
variable {s : State} (hi : s.Inv) (hord : s.hostOrdinary = true)
include hi hord

/-- Listed samples that do not meet the exit condition leave the engine where it is, and store nothing (R175). -/
theorem State.run_waits {n : Nat} (hrun : s.cap.phase ≠ .idle) (hn : n ≤ s.pendingSamples.length)
    (hwaits : ∀ x ∈ s.pendingSamples.take n, s.cap.phase.exits x = false) :
    ∃ t, Sys2Proof.core.run n s = .next t ∧ t.cap.phase = s.cap.phase ∧ t.mem = s.mem ∧ t.cap.row = s.cap.row ∧
      t.cap.col = s.cap.col := by
  have hstay (ys : List Sample) (hys : ys ⊆ s.pendingSamples.take n) :=
    foldl_capSample_waits (c := s.cap.engine) (fun x hx => hwaits x (hys hx)) s.mem
  have hbusy : ((s.pendingSamples.take n).dropLast.foldl capSample (s.cap.engine, s.mem)).1.busy = true := by
    rw [hstay _ (List.dropLast_subset _)]
    exact Cap.busy_iff.2 hrun
  obtain ⟨t, hruns, hfold⟩ := State.run_samples hi hord (List.take_prefix n _) hbusy
  rw [List.length_take_of_le hn] at hruns
  rw [hstay _ (List.Subset.refl _)] at hfold
  obtain ⟨hcap, hmem⟩ := Prod.mk.inj hfold
  exact ⟨t, hruns, (congrArg Cap.phase hcap :), hmem, (congrArg Cap.row hcap :), (congrArg Cap.col hcap :)⟩

/-- A capture that hangs never examines a sample that meets the exit condition: that edge would leave the phase. -/
theorem State.waits_of_captureHangs (h : s.captureHangs) {n : Nat} {t : State} (hrun : Sys2Proof.core.run n s = .next t) :
    s.cap.phase.exits t.cap.sync2 = false := by
  obtain ⟨hb, hstays⟩ := h
  have hphase {k : Nat} {u : State} (hu : s.Reaches k u) : u.cap.phase = s.cap.phase := by
    obtain ⟨u', hrun', hu'⟩ := hstays k
    rwa [Host.Outcome.next.inj (hu.run.symm.trans hrun')]
  have ht := State.reaches_of_run hi hord hrun
  obtain ⟨u, p, hu⟩ := ht.next
  have htb : t.cap.busy = true := Cap.busy_iff.2 (hphase ht ▸ Cap.busy_iff.1 hb)
  have hkept := (p.phase_eq_iff htb).1 ((hphase hu).trans (hphase ht).symm)
  rwa [hphase ht] at hkept

/-- A running capture none of whose samples ever meets the exit condition stays in its phase, edge by edge. -/
theorem State.captureHangs_of_waits (hrun : s.cap.phase ≠ .idle)
    (hwaits : ∀ n t, Sys2Proof.core.run n s = .next t → s.cap.phase.exits t.cap.sync2 = false) : s.captureHangs := by
  have hstays (n : Nat) : ∃ t, s.Reaches n t ∧ t.cap.phase = s.cap.phase := by
    induction n with
    | zero => exact ⟨s, ⟨rfl, hi, hord⟩, rfl⟩
    | succ n ih =>
      obtain ⟨t, ht, hphase⟩ := ih
      obtain ⟨u, p, hu⟩ := ht.next
      have hkept := (p.phase_eq_iff (Cap.busy_iff.2 (hphase ▸ hrun))).2 (hphase ▸ hwaits n t ht.run)
      exact ⟨u, hu, hkept.trans hphase⟩
  exact ⟨Cap.busy_iff.2 hrun, fun n => (hstays n).imp fun _ ht => ⟨ht.1.run, ht.2⟩⟩

end

/-- Settles O51: a sample that does not meet the exit condition changes nothing, and one that meets it ends the wait. -/
theorem captureWaitsWithoutTimeout : Obligations.CaptureWaitsWithoutTimeout := by
  unfold Obligations.CaptureWaitsWithoutTimeout
  refine ⟨fun s n hi hord hrun hn hwaits => State.run_waits hi hord hrun hn hwaits, fun s hi hord => ⟨fun hhang => ?_, fun h => ?_⟩⟩
  · exact ⟨Cap.busy_iff.1 hhang.1, fun n t hrun => State.waits_of_captureHangs hi hord hhang hrun⟩
  · exact State.captureHangs_of_waits hi hord h.1 h.2

/-! ## Faults -/

/-- Settles O21: an ordinary cycle takes a step, a reset edge always does, and any other cycle is refused. -/
theorem noStepFaultsUnderTheInvariant : Obligations.NoStepFaultsUnderTheInvariant := by
  unfold Obligations.NoStepFaultsUnderTheInvariant
  intro s hi f
  by_cases hok : accessOk s.now.rbc = true ∧ accessOk s.now.cap = true
  · cases hr : s.now.rst with
    | true =>
      have hstep : step s = .next (resetEdge s.now s) := by
        rw [step, clockEdge, if_pos (by rwa [Bool.and_eq_true]), if_pos hr]
      rw [hstep]
      nofun
    | false =>
      obtain ⟨t, hstep⟩ := step_next hi (by simp [HostCycle.ordinary, hr, hok])
      rw [hstep]
      nofun
  · rw [step_refused hok]
    nofun

end Sys2Proof.Machine

/-! Settlements of the client-procedure family (spec/49_client_procedures.md R190 to R200): the format procedures against a register
file and what describing the format then gives (O56), and where a procedure or a description over any world stops (O57). -/

namespace Sys2Proof.Machine

/-! ## Procedures and descriptions over any world -/

section
variable {σ : Type} {io : SyncPort σ} {w w' : σ} {a : Byte}

/-- `rmw_cases`, read both ways (R190). -/
theorem rmw_eq_some_iff {f : Byte → Byte} {r : ClientResult} :
    rmw io a f w = some (r, w') ↔
      (r = .fail a .read ∧ ∃ v, io.rd w a = some (false, v, w')) ∨
        ∃ v w1, io.rd w a = some (true, v, w1) ∧
          ((r = .fail a .write ∧ io.wr w1 a (f v) = some (false, w')) ∨
            (r = .done ∧ io.wr w1 a (f v) = some (true, w'))) := by
  refine ⟨rmw_cases, ?_⟩
  rintro (⟨rfl, v, hr⟩ | ⟨v, w1, hr, ⟨rfl, hw⟩ | ⟨rfl, hw⟩⟩)
  · simp [rmw, hr]
  · simp [rmw, hr, hw]
  · simp [rmw, hr, hw]

/-- A read-modify-write that fails names its own register (R190). -/
theorem addr_eq_of_rmw_fails {f : Byte → Byte} {b : Byte} {leg : Leg} (h : rmw io a f w = some (.fail b leg, w')) : a = b := by
  rcases rmw_cases h with ⟨hb, -⟩ | ⟨-, -, -, ⟨hb, -⟩ | ⟨hb, -⟩⟩
  · exact (ClientResult.fail.inj hb).1.symm
  · exact (ClientResult.fail.inj hb).1.symm
  · cases hb

/-- A procedure goes on only after a step that is done (R196). -/
theorem runSteps_cons_of_done {r : RmwStep} (steps : List RmwStep) (h : rmw io r.addr r.f w = some (.done, w')) :
    runSteps io (r :: steps) w = runSteps io steps w' := by
  rw [runSteps, h]

/-- A procedure whose first step fails is that failure (R196). -/
theorem runSteps_cons_of_fail {r : RmwStep} {leg : Leg} (steps : List RmwStep)
    (h : rmw io r.addr r.f w = some (.fail a leg, w')) : runSteps io (r :: steps) w = some (.fail a leg, w') := by
  rw [runSteps, h]

/-- The failing step of a procedure that fails, and the steps done before it (R196). -/
theorem runSteps_fails_at_step {steps : List RmwStep} {leg : Leg} (h : runSteps io steps w = some (.fail a leg, w')) :
    ∃ before r after w1, steps = before ++ r :: after ∧ runSteps io before w = some (.done, w1) ∧
      rmw io r.addr r.f w1 = some (.fail a leg, w') := by
  induction steps generalizing w with
  | nil => cases h
  | cons r rest ih =>
    rcases hr : rmw io r.addr r.f w with _ | ⟨_ | ⟨b, leg'⟩, w1⟩
    · rw [runSteps, hr] at h
      cases h
    · rw [runSteps_cons_of_done rest hr] at h
      obtain ⟨before, x, after, w2, hsteps, hdone, hfail⟩ := ih h
      exact ⟨r :: before, x, after, w2, congrArg (r :: ·) hsteps, (runSteps_cons_of_done before hr).trans hdone, hfail⟩
    · rw [runSteps_cons_of_fail rest hr] at h
      exact ⟨[], r, rest, w, rfl, rfl, hr.trans h⟩

/-- The reads of the YUV category fail at the first of `0x3A` and `0x3D` that is not acknowledged (R198, R200). -/
theorem describeOrder_fails_iff {com7 sec : Byte} :
    describeOrder io com7 sec w = some (.fail a, w') ↔
      (a = Config.tslbAddr ∧ ∃ v, io.rd w Config.tslbAddr = some (false, v, w')) ∨
        ∃ tslb w1, io.rd w Config.tslbAddr = some (true, tslb, w1) ∧ a = Config.com13Addr ∧
          ∃ v, io.rd w1 Config.com13Addr = some (false, v, w') := by
  rcases ht : io.rd w Config.tslbAddr with _ | ⟨_ | _, tslb, w1⟩
  · simp [describeOrder, ht]
  · simp [describeOrder, ht, eq_comm (a := a)]
  · rcases hc : io.rd w1 Config.com13Addr with _ | ⟨_ | _, com13, w2⟩
    · simp [describeOrder, ht, hc]
    · simp [describeOrder, ht, hc, eq_comm (a := a)]
    · simp [describeOrder, ht, hc]

/-- The code of the YUV category is (0, 0) (R197). -/
theorem isYuv_iff {com7 : Byte} : isYuv com7 = true ↔ com7.getLsbD 2 = false ∧ com7.getLsbD 0 = false := by
  simp [isYuv]

/-- A description whose first two reads are acknowledged (R197, R198). -/
theorem describeCurrentFormat_of_reads {com7 sec : Byte} {w1 w2 : σ} (h7 : io.rd w Config.com7Addr = some (true, com7, w1))
    (hs : io.rd w1 Config.secondaryAddr = some (true, sec, w2)) :
    describeCurrentFormat io w =
      if isYuv com7 then describeOrder io com7 sec w2 else some (.format (describeValues com7 sec .yuyv), w2) := by
  simp only [describeCurrentFormat, h7, hs]

/-- A description fails at its first read that does, and only the YUV category has reads after the first two (R197, R198, R200). -/
theorem describeCurrentFormat_fails_iff :
    describeCurrentFormat io w = some (.fail a, w') ↔
      (a = Config.com7Addr ∧ ∃ v, io.rd w Config.com7Addr = some (false, v, w')) ∨
        ∃ com7 w1, io.rd w Config.com7Addr = some (true, com7, w1) ∧
          ((a = Config.secondaryAddr ∧ ∃ v, io.rd w1 Config.secondaryAddr = some (false, v, w')) ∨
            ∃ sec w2, io.rd w1 Config.secondaryAddr = some (true, sec, w2) ∧ isYuv com7 = true ∧
              describeOrder io com7 sec w2 = some (.fail a, w')) := by
  rcases h7 : io.rd w Config.com7Addr with _ | ⟨_ | _, com7, w1⟩
  · simp [describeCurrentFormat, h7]
  · simp [describeCurrentFormat, h7, eq_comm (a := a)]
  · rcases hs : io.rd w1 Config.secondaryAddr with _ | ⟨_ | _, sec, w2⟩
    · simp [describeCurrentFormat, h7, hs]
    · simp [describeCurrentFormat, h7, hs, eq_comm (a := a)]
    · rw [describeCurrentFormat_of_reads h7 hs]
      cases hy : isYuv com7 <;> simp [hs, hy]

/-- A description issues no WR: it is a function of the reads (R200). -/
theorem describeCurrentFormat_congr_rd {io' : SyncPort σ} (h : io.rd = io'.rd) (w : σ) :
    describeCurrentFormat io w = describeCurrentFormat io' w := by
  simp only [describeCurrentFormat, describeOrder, h]

end

/-- Settles O57: a procedure and a description stop at their first failing access, a read-modify-write at either of its two. -/
theorem formatProcedureStopsAtTheFirstFailure : Obligations.FormatProcedureStopsAtTheFirstFailure := by
  unfold Obligations.FormatProcedureStopsAtTheFirstFailure
  refine ⟨fun σ io steps w w' a leg h => ?_, fun σ io a f w w' => ⟨?_, ?_, ?_⟩, fun σ io w w' a => ?_, fun σ io wr w => ?_⟩
  · obtain ⟨before, r, after, w1, hsteps, hdone, hfail⟩ := runSteps_fails_at_step h
    exact ⟨before, r, after, w1, hsteps, hdone, hfail, addr_eq_of_rmw_fails hfail⟩
  · simp [rmw_eq_some_iff]
  · simp [rmw_eq_some_iff]
  · simp [rmw_eq_some_iff]
  · simp only [describeCurrentFormat_fails_iff, describeOrder_fails_iff, isYuv_iff, and_assoc]
    rfl
  · exact describeCurrentFormat_congr_rd rfl w

/-! ## Against a register file -/

section
variable {p : Config.Params} {m : MockRegs}

/-- A read-modify-write of a register file is done, and changes one register. -/
theorem rmw_mockPort (a : Byte) (f : Byte → Byte) (m : MockRegs) :
    rmw mockPort a f m = some (.done, mockWrite m a (f (m a))) := rfl

/-- What one step of a procedure leaves of a register file. -/
def RmwStep.onRegs (m : MockRegs) (r : RmwStep) : MockRegs := mockWrite m r.addr (r.f (m r.addr))

/-- Against a register file every procedure is done, each step on what the steps before it left. -/
theorem runSteps_mockPort (steps : List RmwStep) (m : MockRegs) :
    runSteps mockPort steps m = some (.done, steps.foldl RmwStep.onRegs m) := by
  induction steps generalizing m with
  | nil => rfl
  | cons r rest ih => rw [runSteps_cons_of_done rest (rmw_mockPort r.addr r.f m), ih, List.foldl_cons, RmwStep.onRegs]

/-- The registers a format's procedure leaves. -/
def OutputFormat.appliedTo (fmt : OutputFormat) (p : Config.Params) (m : MockRegs) : MockRegs :=
  (fmt.steps p).foldl RmwStep.onRegs m

theorem applyFormat_mockPort (p : Config.Params) (fmt : OutputFormat) (m : MockRegs) :
    applyFormat p mockPort (.format fmt) m = some (.done, fmt.appliedTo p m) :=
  runSteps_mockPort _ m

/-- The ordering registers matter to the YUV category only (R197, R198). -/
theorem describeValues_of_not_yuv {com7 : Byte} (h : ¬ isYuv com7 = true) (sec : Byte) (o o' : YuvOrder) :
    describeValues com7 sec o = describeValues com7 sec o' := by
  unfold describeValues categoryOf
  cases h2 : com7.getLsbD 2 <;> cases h0 : com7.getLsbD 0
  · exact absurd (isYuv_iff.2 ⟨h2, h0⟩) h
  all_goals rfl

/-- `secondary[5:4]` and the details of R199. -/
theorem rgbDetail_eq (sec : Byte) :
    rgbDetail sec = if sec.extractLsb' 4 2 = 0b01 then .rgb565 else if sec.extractLsb' 4 2 = 0b11 then .rgb555 else .plain := by
  unfold rgbDetail
  generalize sec.extractLsb' 4 2 = x
  decide +revert

/-- Describing a register file describes the values of its four format registers, and leaves it; the ordering registers matter to
the YUV category only (R197, R198). -/
theorem describeCurrentFormat_mockPort (m : MockRegs) :
    describeCurrentFormat mockPort m =
      some (.format (describeValues (m 0x12) (m 0x40) (yuvOrder (m 0x3A) (m 0x3D))), m) := by
  rw [describeCurrentFormat_of_reads (io := mockPort) (w := m) rfl rfl]
  split
  · rfl
  · next hy => exact congrArg (fun d => some (Described.format d, m)) (describeValues_of_not_yuv hy _ _ _)

/-- Applying a format to a register file and describing it describes the registers its procedure leaves. -/
theorem describe_of_applied (fmt : OutputFormat) {d : FormatDescription}
    (hd : describeValues (fmt.appliedTo p m 0x12) (fmt.appliedTo p m 0x40)
      (yuvOrder (fmt.appliedTo p m 0x3A) (fmt.appliedTo p m 0x3D)) = d) :
    ∃ m', applyFormat p mockPort (.format fmt) m = some (.done, m') ∧
      describeCurrentFormat mockPort m' = some (.format d, m') :=
  ⟨fmt.appliedTo p m, applyFormat_mockPort p fmt m, by rw [describeCurrentFormat_mockPort, hd]⟩

end

/-! ## What each procedure leaves in the registers -/

section
variable {com7 sec : Byte} {o : YuvOrder}

theorem categoryOf_yuv (h2 : com7.getLsbD 2 = false) (h0 : com7.getLsbD 0 = false) : categoryOf com7 sec o = .yuv o := by
  rw [categoryOf, h2, h0]

theorem categoryOf_rgb (h2 : com7.getLsbD 2 = true) (h0 : com7.getLsbD 0 = false) :
    categoryOf com7 sec o = .rgb (rgbDetail sec) := by
  rw [categoryOf, h2, h0]

theorem categoryOf_rawBayer (h2 : com7.getLsbD 2 = false) (h0 : com7.getLsbD 0 = true) : categoryOf com7 sec o = .rawBayer := by
  rw [categoryOf, h2, h0]

theorem categoryOf_processedRawBayer (h2 : com7.getLsbD 2 = true) (h0 : com7.getLsbD 0 = true) :
    categoryOf com7 sec o = .processedRawBayer := by
  rw [categoryOf, h2, h0]

end

/-- R193: `COM7` gets the code (0, 0) and the ordering bits 0, whatever the three registers held. -/
theorem describeValues_yuv_applied (com7 sec tslb com13 : Byte) :
    describeValues (com7 &&& 0xFA) sec (yuvOrder (tslb &&& 0xF7) (com13 &&& 0xFE)) =
      ⟨.yuv .yuyv, com7.getLsbD 3, com7.getLsbD 6⟩ := by
  have horder : yuvOrder (tslb &&& 0xF7) (com13 &&& 0xFE) = .yuyv := by simp [yuvOrder]
  rw [describeValues, categoryOf_yuv (by simp) (by simp), horder]
  simp

/-- R194: `secondary[5:4]` gets the detail 01, whatever it held. -/
theorem rgbDetail_rgb565_applied (sec : Byte) : rgbDetail ((sec ||| 0x10) &&& 0xDF) = .rgb565 := by
  have hbits : ((sec ||| 0x10) &&& 0xDF).extractLsb' 4 2 = 0b01 := by
    ext i hi
    obtain rfl | rfl : i = 0 ∨ i = 1 := by omega
    · simp
    · simp
  rw [rgbDetail_eq, if_pos hbits]

/-- R194: `COM7` gets the code (1, 0), whatever it held. -/
theorem describeValues_rgb565_applied (com7 sec : Byte) (o : YuvOrder) :
    describeValues ((com7 ||| 0x04) &&& 0xFE) ((sec ||| 0x10) &&& 0xDF) o =
      ⟨.rgb .rgb565, com7.getLsbD 3, com7.getLsbD 6⟩ := by
  rw [describeValues, categoryOf_rgb (by simp) (by simp), rgbDetail_rgb565_applied]
  simp

/-- R195: `COM7` gets the code (0, 1), whatever it held. -/
theorem describeValues_rawBayer_applied (com7 sec : Byte) (o : YuvOrder) :
    describeValues ((com7 ||| 0x01) &&& 0xFB) sec o = ⟨.rawBayer, com7.getLsbD 3, com7.getLsbD 6⟩ := by
  rw [describeValues, categoryOf_rawBayer (by simp) (by simp)]
  simp

/-- Settles O56: each format's procedure leaves its code, details and orderings, and a description reads them back. -/
theorem describeGivesTheFormatApplied : Obligations.DescribeGivesTheFormatApplied := by
  unfold Obligations.DescribeGivesTheFormatApplied
  refine ⟨fun p m => ⟨?_, ?_, ?_⟩, fun σ p io w => rfl, fun m => ⟨fun h2 h0 => ?_, fun h2 h0 => ?_⟩⟩
  · exact describe_of_applied .rawBayer (describeValues_rawBayer_applied (m 0x12) (m 0x40) _)
  · exact describe_of_applied .rgb565 (describeValues_rgb565_applied (m 0x12) (m 0x40) _)
  · exact describe_of_applied .yuvInterleaved (describeValues_yuv_applied (m 0x12) (m 0x40) (m 0x3A) (m 0x3D))
  · rw [describeCurrentFormat_mockPort, describeValues, categoryOf_processedRawBayer h2 h0]
  · rw [describeCurrentFormat_mockPort, describeValues, categoryOf_rgb h2 h0, rgbDetail_eq]

end Sys2Proof.Machine

/-! ## The outcomes a status pattern shows (R220) -/

namespace Sys2Proof.Machine

theorem mem_overrunShown_iff {o : OutcomeCode} {ovr : Bool} : o ∈ overrunShown ovr ↔ o = .overrun ∧ ovr = true := by
  cases ovr <;> simp [overrunShown]

theorem Rbc.mem_outcomes_iff {r : Rbc} {o : OutcomeCode} :
    o ∈ r.outcomes ↔ r.outcome = some o ∨ (o = .overrun ∧ r.ovr = true) := by
  rw [Rbc.outcomes, List.mem_append, Option.mem_toList, mem_overrunShown_iff]

theorem Cap.mem_outcomes_iff {c : Cap} {o : OutcomeCode} :
    o ∈ c.outcomes ↔ c.outcome = some o ∨ (o = .overrun ∧ c.ovr = true) := by
  rw [Cap.outcomes, List.mem_append, Option.mem_toList, mem_overrunShown_iff]

theorem Rbc.outcome_eq_none {r : Rbc} (h : r.phase = .run ∨ r.done = false) : r.outcome = none := by
  rw [Rbc.outcome, if_pos]
  obtain hrun | hdone := h
  · simp [Rbc.busy_iff.2 hrun]
  · simp [hdone]

/-- The pattern of a command that has ended, in the order R220 reads it. -/
theorem Rbc.outcome_of_done {r : Rbc} (hidle : r.phase = .idle) (hdone : r.done = true) :
    r.outcome = some (if r.illegal = true then .illegalCmd else if r.ok = false then .busFail
      else if r.opS = 0x3 ∧ r.present = false then .idMismatch else .success) := by
  simp [Rbc.outcome, Rbc.busy_of_idle hidle, hdone, apply_ite some]

/-- OVERRUN, CAP_DONE and HANG are no pattern of a register command. -/
theorem Rbc.outcome_ne (r : Rbc) :
    r.outcome ≠ some .overrun ∧ r.outcome ≠ some .capDone ∧ r.outcome ≠ some .hang := by
  unfold Rbc.outcome
  split_ifs <;> decide

/-- The pattern of a capture command that has ended or was refused. -/
theorem Cap.outcome_eq_some_iff {c : Cap} {o : OutcomeCode} :
    c.outcome = some o ↔
      c.phase = .idle ∧ c.done = true ∧ (if c.illegal = true then .illegalCmd else .capDone) = o := by
  by_cases hidle : c.phase = .idle
  · cases hdone : c.done
    · simp [Cap.outcome, hdone]
    · simp [Cap.outcome, Cap.busy_of_idle hidle, hidle, hdone, ← apply_ite some]
  · simp [Cap.outcome, Cap.busy_iff.2 hidle, hidle]

/-- Settles O45: an outcome is the pattern's or OVERRUN, and each pattern is read in the order of R220. -/
theorem outcomeFollowsTheStatusPattern : Obligations.OutcomeFollowsTheStatusPattern := by
  unfold Obligations.OutcomeFollowsTheStatusPattern
  refine ⟨rfl, fun r hidle hdone hok => ?_, fun r => ?_, fun c => ?_⟩
  · simp only [Rbc.mem_outcomes_iff, Rbc.outcome_of_done hidle hdone]
    cases hill : r.illegal
    · cases hk : r.ok
      · simp
      · by_cases hop : r.opS = 0x3
        · cases hp : r.present <;> simp [hop]
        · simp only [hop]
          simp
    · simp [hok hill]
  · obtain ⟨hovr, hcap, hhang⟩ := r.outcome_ne
    refine ⟨by simp [Rbc.mem_outcomes_iff, hovr], by simp [Rbc.mem_outcomes_iff, hcap],
      by simp [Rbc.mem_outcomes_iff, hhang], fun h o ho => ?_⟩
    rw [Rbc.mem_outcomes_iff, Rbc.outcome_eq_none h] at ho
    exact (ho.resolve_left nofun).1
  · simp only [Cap.mem_outcomes_iff, Cap.outcome_eq_some_iff]
    cases hill : c.illegal <;> simp

end Sys2Proof.Machine

/-! Settlement of O22 (spec/70_reset_and_hazards.md R250, R252): an edge with `rst` = 1 is the reset edge, and the values its reads
return are those that O23 gives. -/

namespace Sys2Proof.Machine

@[simp] theorem resetEdge_host (c : HostCycle) (s : State) : (resetEdge c s).host = s.hostAfter := rfl
@[simp] theorem resetEdge_params (c : HostCycle) (s : State) : (resetEdge c s).params = s.params := rfl

/-- With `rst` = 1 nothing else in the cycle counts but that its accesses can be expressed (R61, R250). -/
theorem step_of_rst {s : State} (hrbc : accessOk s.now.rbc = true) (hcap : accessOk s.now.cap = true)
    (hr : s.now.rst = true) : step s = .next (resetEdge s.now s) := by
  rw [step, clockEdge, if_pos (by rw [hrbc, hcap, Bool.and_self]), if_pos hr]

/-! ## Every register reads 0 after a reset edge (R41) -/

theorem Rbc.reset_readReg (off : Word) : Rbc.reset.readReg off = 0 :=
  (resetStateIsAsSpecified.1 off).1

theorem Cap.reset_readReg (off : Word) : Cap.reset.readReg off = 0 :=
  (resetStateIsAsSpecified.1 off).2

/-- The elements a reset leaves UNSPECIFIED stand in no register. -/
theorem rbcAfterReset_readReg (n : Nat) (off : Word) : (rbcAfterReset n).readReg off = 0 :=
  Rbc.reset_readReg off

theorem capAfterReset_readReg (n : Nat) (off : Word) : (capAfterReset n).readReg off = 0 :=
  Cap.reset_readReg off

/-- A read returns what the window holds at its offset (R63). -/
theorem readBack_read (window : Word → Word) (off : Word) : readBack window (some (.read off)) = some (window off) := rfl

/-- Settles O22: the step is `resetEdge`, read off field by field; a read in the cycle is of a window that reads 0 throughout. -/
theorem resetEdgeResetsBothBlocks : Obligations.ResetEdgeResetsBothBlocks := by
  unfold Obligations.ResetEdgeResetsBothBlocks
  intro s a b f rest hhost ha hb
  have hnow : s.now = { rst := true, rbc := a, cap := b, fb := f } := by rw [State.now, hhost]; rfl
  have hstep : step s = .next (resetEdge s.now s) :=
    step_of_rst (by rw [hnow]; exact ha) (by rw [hnow]; exact hb) (by rw [hnow])
  refine ⟨_, hstep, rfl, rfl, fun off => ⟨rbcAfterReset_readReg _ off, capAfterReset_readReg _ off⟩, rfl, rfl, rfl, rfl, rfl, rfl,
    ?_, fun off hread => ?_, fun off hread => ?_⟩
  · rw [resetEdge_host, State.hostAfter, hhost]
  · rw [resetEdge_readRbc, hnow, hread, readBack_read, Rbc.reset_readReg]
  · rw [resetEdge_readCap, hnow, hread, readBack_read, Cap.reset_readReg]

end Sys2Proof.Machine
